-- ==== Sys2Proof/Word.lean ====
section
/-! DEFINITION. The value types of SPIBB: the 8-bit byte and the line level (00_scope.md R9, R10). -/

namespace Sys2Proof

/-- A buffer byte or an accumulator: 8 bits, bit 7 most significant (R10). -/
abbrev Byte := BitVec 8

/-- The level of a line (R10): `false` is electrical LOW (0), `true` is electrical HIGH (1). -/
abbrev Level := Bool

end Sys2Proof
end

