-- ==== Sys2Proof/Config.lean ====
section
/-! DEFINITION. What an implementation of SPIBB fixes (00_scope.md R6, R7, R8) and the free values the spec leaves
open (93_implementation_defined.md U4, U16). -/

namespace Sys2Proof

/-- The open parameters of the two blocks (R6, R7, R8). They are arguments of the model (R44): a `State` carries one
`Params`, no step changes it, and no statement fixes it (log 1). -/
structure Params where
  /-- `CAP_M`, capacity in bytes of SPIBB-M's buffers. -/
  capM : Nat
  /-- `CAP_S`, capacity in bytes of SPIBB-S's buffers. -/
  capS : Nat
  /-- `D_SETTLE`, dwell after chip-select is asserted. -/
  dSettle : Nat
  /-- `D_DRIVE`, dwell between driving `mosi` and sampling `miso`. -/
  dDrive : Nat
  /-- `D_HALF`, dwell after each clock edge. -/
  dHalf : Nat
  /-- `D_GAP`, dwell after chip-select is deasserted. -/
  dGap : Nat
  /-- `TIMEOUT`, polls one wait of SPIBB-S may last. -/
  timeout : Nat
  deriving DecidableEq, Repr

/-- The bit period `T_BIT` in SPIBB-M cycles (R7, R243). -/
def Params.tBit (p : Params) : Nat := 2 * p.dHalf + p.dDrive + 4

/-- The byte period `T_BYTE` in SPIBB-M cycles (R243). -/
def Params.tByte (p : Params) : Nat := p.dSettle + p.dGap + 3 + 8 * p.tBit

/-- The longest dwell: `m_dly` is wide enough for it (R7). -/
def Params.maxDwell (p : Params) : Nat := max (max p.dSettle p.dDrive) (max p.dHalf p.dGap)

/-- The deadline is longer than the master's longest quiet time in lockstep (70_reset_and_hazards.md R236). -/
def Params.deadlineBound (p : Params) : Prop := p.dSettle + p.dDrive + 3 ≤ p.timeout

/-- The parameter sets the spec admits (R6, R7, R8, R235). The step rules are total without it (U2). -/
abbrev Params.Legal (p : Params) : Prop :=
  1 ≤ p.capM ∧ p.capM ≤ 255 ∧ 1 ≤ p.capS ∧ p.capS ≤ 255 ∧ p.tBit ≤ p.dSettle + 1 ∧ 1 ≤ p.timeout

/-- DESIGN CHOICE (log 1): the parameters of the test vectors (95_test_vectors.md), which `State.reset` carries. -/
def Params.vectors : Params :=
  { capM := 4, capS := 4, dSettle := 3, dDrive := 0, dHalf := 0, dGap := 0, timeout := 16 }

/-- The four buffer spaces (20_memory.md R60). -/
inductive Buffer where
  | mTx
  | mRx
  | sTx
  | sRx
  deriving DecidableEq, Repr

/-- The four lines (20_memory.md R61). -/
inductive Line where
  | sclk
  | csN
  | mosi
  | miso
  deriving DecidableEq, Repr

/-- Free value (U4, log 8): what byte `i` of a buffer holds before its first write, after `epoch` resets of its
block. Nothing constrains it. -/
opaque Config.unwrittenByte (b : Buffer) (epoch i : Nat) : Byte

/-- Free value (U16, log 4): the level the line environment puts on a line in the `n`-th step, where no tick is listed
or where `State.withFetchWord` placed the tick. -/
opaque Config.freeLevel (l : Line) (n : Nat) : Level

end Sys2Proof
end

