-- ==== Sys2Proof/Syntax.lean ====
section
/-! DEFINITION. The instructions of SPIBB: one constructor per row of spec/opcode_table.json. The ten host operations
carry the fields of their command word (30_encoding.md R81), the ignored ones too (R84), so that no word is lost; the
ten sequencer rows carry nothing. -/

namespace Sys2Proof

/-- A host operation or a sequencer action. `len` is `h_len`, `wdata` the bytes of `h_wdata`, byte `i` first at `i`
(20_memory.md R65); `op` is `h_op[1:0]` of a reserved opcode `1oo`. -/
inductive Instr where
  | mNop (len : Nat) (wdata : List Byte)
  | mLoad (len : Nat) (wdata : List Byte)
  | mStart (len : Nat) (wdata : List Byte)
  | mRead (len : Nat) (wdata : List Byte)
  | mReserved (op : BitVec 2) (len : Nat) (wdata : List Byte)
  | sNop (len : Nat) (wdata : List Byte)
  | sLoad (len : Nat) (wdata : List Byte)
  | sStart (len : Nat) (wdata : List Byte)
  | sRead (len : Nat) (wdata : List Byte)
  | sReserved (op : BitVec 2) (len : Nat) (wdata : List Byte)
  | mSeqPAssert
  | mSeqPDrive
  | mSeqPSample
  | mSeqPHigh
  | mSeqPLow
  | mSeqPStore
  | mSeqPDeassert
  | mSeqPFinish
  | sSeqWHigh
  | sSeqWLow
  deriving DecidableEq, Repr

/-- Where an instruction's bits stand: the two host command ports (R80) and the two sequencer positions (10_state.md
R22, R34). Each numbers its words on its own (log 12). -/
inductive Port where
  | mHost
  | sHost
  | mSeq
  | sSeq
  deriving DecidableEq, Repr

/-- The port an instruction's words appear on. -/
def Instr.port : Instr → Port
  | .mNop _ _ => .mHost
  | .mLoad _ _ => .mHost
  | .mStart _ _ => .mHost
  | .mRead _ _ => .mHost
  | .mReserved _ _ _ => .mHost
  | .sNop _ _ => .sHost
  | .sLoad _ _ => .sHost
  | .sStart _ _ => .sHost
  | .sRead _ _ => .sHost
  | .sReserved _ _ _ => .sHost
  | .mSeqPAssert => .mSeq
  | .mSeqPDrive => .mSeq
  | .mSeqPSample => .mSeq
  | .mSeqPHigh => .mSeq
  | .mSeqPLow => .mSeq
  | .mSeqPStore => .mSeq
  | .mSeqPDeassert => .mSeq
  | .mSeqPFinish => .mSeq
  | .sSeqWHigh => .sSeq
  | .sSeqWLow => .sSeq

end Sys2Proof
end

