-- ==== Sys2Proof/WellFormed.lean ====
section
/-! DEFINITION. When an instruction is one its port can carry: `h_len` fits `LW` bits and `h_wdata` has `CAP` bytes
(30_encoding.md R80, R81). -/

namespace Sys2Proof

/-- `LW = ceil(log2(CAP + 1))`, the width of every byte count of a block (00_scope.md R6); for `CAP >= 1` it is the
number of binary digits of `CAP`. -/
def lenBits (cap : Nat) : Nat := Nat.log2 cap + 1

/-- The capacity of the block a port belongs to; the sequencer positions have no command word. -/
def Port.cap (p : Params) : Port → Nat
  | .mHost => p.capM
  | .sHost => p.capS
  | .mSeq => 0
  | .sSeq => 0

/-- The operands fit the pins of a port of a block with capacity `cap`: `h_len` is `LW` bits, `h_wdata` is `CAP` bytes. -/
def operandsFit (cap len : Nat) (wdata : List Byte) : Bool :=
  decide (len < 2 ^ lenBits cap) && decide (wdata.length = cap)

/-- An instruction its port can carry. -/
def Instr.wf (p : Params) : Instr → Bool
  | .mNop len wdata => operandsFit p.capM len wdata
  | .mLoad len wdata => operandsFit p.capM len wdata
  | .mStart len wdata => operandsFit p.capM len wdata
  | .mRead len wdata => operandsFit p.capM len wdata
  | .mReserved _ len wdata => operandsFit p.capM len wdata
  | .sNop len wdata => operandsFit p.capS len wdata
  | .sLoad len wdata => operandsFit p.capS len wdata
  | .sStart len wdata => operandsFit p.capS len wdata
  | .sRead len wdata => operandsFit p.capS len wdata
  | .sReserved _ len wdata => operandsFit p.capS len wdata
  | .mSeqPAssert => true
  | .mSeqPDrive => true
  | .mSeqPSample => true
  | .mSeqPHigh => true
  | .mSeqPLow => true
  | .mSeqPStore => true
  | .mSeqPDeassert => true
  | .mSeqPFinish => true
  | .sSeqWHigh => true
  | .sSeqWLow => true

end Sys2Proof
end

