-- ==== Sys2Proof/Decode.lean ====
section
/-! DEFINITION. From the bits on a port to an instruction and back (30_encoding.md R80 to R88, 10_state.md R22, R34).
A word is a natural number whose bit 0 is the least significant bit of the port. -/

namespace Sys2Proof

/-- Why a port's bits are no instruction. -/
inductive DecodeError where
  /-- the number needs more bits than the command port has pins (`3 + LW + 8*CAP`, R80) -/
  | wordTooWide
  /-- the number is no value of the sequencer's phase register (R22: 3 bits, R34: 1 bit) -/
  | noSuchPhase
  deriving DecidableEq, Repr

/-- The bytes of an `n`-byte field, byte `i` from bits `[8*i+7 : 8*i]` (20_memory.md R65). -/
def unpackBytes : Nat → Nat → List Byte
  | 0, _ => []
  | n + 1, w => BitVec.ofNat 8 w :: unpackBytes n (w / 256)

/-- The field that carries the bytes, byte `i` in bits `[8*i+7 : 8*i]` (R65). -/
def packBytes : List Byte → Nat
  | [] => 0
  | b :: bs => b.toNat + 256 * packBytes bs

/-- The width of a command word: `3 + LW + 8*CAP` bits (R80). -/
def hcmdWidth (cap : Nat) : Nat := 3 + lenBits cap + 8 * cap

/-- The fields of a command word (R81). -/
structure Hcmd where
  op : BitVec 3
  len : Nat
  wdata : List Byte
  deriving DecidableEq, Repr

/-- The three fields of a command word (R81): `h_op` above `h_len` above `h_wdata`. -/
def Hcmd.ofWord (cap w : Nat) : Hcmd :=
  { op := BitVec.ofNat 3 (w / 2 ^ (8 * cap) / 2 ^ lenBits cap)
    len := w / 2 ^ (8 * cap) % 2 ^ lenBits cap
    wdata := unpackBytes cap (w % 2 ^ (8 * cap)) }

/-- `{ h_op, h_len, h_wdata }` as one number (R80). -/
def Hcmd.word (cap : Nat) (h : Hcmd) : Nat :=
  (h.op.toNat * 2 ^ lenBits cap + h.len) * 2 ^ (8 * cap) + packBytes h.wdata

/-- SPIBB-M's opcode map (R83): every one of the eight values has a row. -/
def decodeMHcmd (h : Hcmd) : Instr :=
  match h.op.toNat with
  | 0 => .mNop h.len h.wdata
  | 1 => .mLoad h.len h.wdata
  | 2 => .mStart h.len h.wdata
  | 3 => .mRead h.len h.wdata
  | n => .mReserved (BitVec.ofNat 2 n) h.len h.wdata

/-- SPIBB-S's opcode map (R83). -/
def decodeSHcmd (h : Hcmd) : Instr :=
  match h.op.toNat with
  | 0 => .sNop h.len h.wdata
  | 1 => .sLoad h.len h.wdata
  | 2 => .sStart h.len h.wdata
  | 3 => .sRead h.len h.wdata
  | n => .sReserved (BitVec.ofNat 2 n) h.len h.wdata

/-- The action `m_phase` names (R22). -/
def decodeMPhase : Nat → Except DecodeError Instr
  | 0 => .ok .mSeqPAssert
  | 1 => .ok .mSeqPDrive
  | 2 => .ok .mSeqPSample
  | 3 => .ok .mSeqPHigh
  | 4 => .ok .mSeqPLow
  | 5 => .ok .mSeqPStore
  | 6 => .ok .mSeqPDeassert
  | 7 => .ok .mSeqPFinish
  | _ => .error .noSuchPhase

/-- The wait `s_phase` names (R34). -/
def decodeSPhase : Nat → Except DecodeError Instr
  | 0 => .ok .sSeqWHigh
  | 1 => .ok .sSeqWLow
  | _ => .error .noSuchPhase

/-- The instruction the bits `w` on a port stand for. -/
def decode (p : Params) (port : Port) (w : Nat) : Except DecodeError Instr :=
  match port with
  | .mHost =>
    if w < 2 ^ hcmdWidth p.capM then .ok (decodeMHcmd (Hcmd.ofWord p.capM w)) else .error .wordTooWide
  | .sHost =>
    if w < 2 ^ hcmdWidth p.capS then .ok (decodeSHcmd (Hcmd.ofWord p.capS w)) else .error .wordTooWide
  | .mSeq => decodeMPhase w
  | .sSeq => decodeSPhase w

/-- The fields of a reserved opcode's command word: `h_op = 1oo` (R83). -/
def reservedHcmd (op : BitVec 2) (len : Nat) (wdata : List Byte) : Hcmd :=
  { op := BitVec.ofNat 3 (4 + op.toNat), len := len, wdata := wdata }

/-- The word of an instruction on its port (R80, R83, R22, R34). -/
def encode (p : Params) : Instr → Nat
  | .mNop len wdata => Hcmd.word p.capM { op := 0, len := len, wdata := wdata }
  | .mLoad len wdata => Hcmd.word p.capM { op := 1, len := len, wdata := wdata }
  | .mStart len wdata => Hcmd.word p.capM { op := 2, len := len, wdata := wdata }
  | .mRead len wdata => Hcmd.word p.capM { op := 3, len := len, wdata := wdata }
  | .mReserved op len wdata => Hcmd.word p.capM (reservedHcmd op len wdata)
  | .sNop len wdata => Hcmd.word p.capS { op := 0, len := len, wdata := wdata }
  | .sLoad len wdata => Hcmd.word p.capS { op := 1, len := len, wdata := wdata }
  | .sStart len wdata => Hcmd.word p.capS { op := 2, len := len, wdata := wdata }
  | .sRead len wdata => Hcmd.word p.capS { op := 3, len := len, wdata := wdata }
  | .sReserved op len wdata => Hcmd.word p.capS (reservedHcmd op len wdata)
  | .mSeqPAssert => 0
  | .mSeqPDrive => 1
  | .mSeqPSample => 2
  | .mSeqPHigh => 3
  | .mSeqPLow => 4
  | .mSeqPStore => 5
  | .mSeqPDeassert => 6
  | .mSeqPFinish => 7
  | .sSeqWHigh => 0
  | .sSeqWLow => 1

/-- The command word a number of spec/opcode_table.json stands for: the table numbers an HCMD row from `h_op[0]`
(its "fixed" bits 2..0 are `h_op[2:0]`), and every other bit of the word is 0. A number of 8 or more gives a word wider
than the port, which the decoder rejects (log 12). -/
def tableHcmdWord (cap w : Nat) : Nat := w * 2 ^ lenBits cap * 2 ^ (8 * cap)

/-- The instruction the decoder reads from a table word. The ten HCMD rows, the eight `m_phase` rows and the two
`s_phase` rows use the same numbers; a table word alone is read on SPIBB-M's host port (log 12). -/
def decodeTableWord (_nbits w : Nat) : Option Instr :=
  match decode Params.vectors .mHost (tableHcmdWord Params.vectors.capM w) with
  | .ok i => some i
  | .error _ => none

end Sys2Proof
end

