-- ==== Sys2Proof/Machine/State.lean ====
section
/-! DEFINITION. The state of SPIBB (10_state.md): both blocks, their pins, the wiring, the parameters and the ticks
still to come. Everything is plain data. -/

namespace Sys2Proof.Machine

/-- A buffer space (20_memory.md R60): the bytes written since the block's reset, as (index, byte) pairs with indices
strictly rising. An index that is not listed holds no value of its own (log 8). -/
abbrev Memory := List Host.Cell

/-- The role state of a block (R21, R33): "exactly one of {idle, active}". -/
inductive Role where
  | idle
  | active
  deriving DecidableEq, Repr

/-- `m_phase` (R22): the action the master's sequencer performs next. -/
inductive MPhase where
  | pAssert
  | pDrive
  | pSample
  | pHigh
  | pLow
  | pStore
  | pDeassert
  | pFinish
  deriving DecidableEq, Repr

/-- `s_phase` (R34): the clock level the slave is polling for. -/
inductive SPhase where
  | wHigh
  | wLow
  deriving DecidableEq, Repr

/-- `M.res` (R29): the values 2 and 3 never occur and are not in the type (U7). -/
inductive MRes where
  | none
  | ready
  deriving DecidableEq, Repr

/-- `S.res` (R41): the value 3 never occurs and is not in the type (U7). -/
inductive SRes where
  | none
  | ready
  | incomplete
  deriving DecidableEq, Repr

/-- The result codes of a host operation (30_encoding.md R85); codes 6 and 7 are never produced (U8). -/
inductive ResultCode where
  | ok
  | notReady
  | busy
  | incomplete
  | badLen
  | badOp
  deriving DecidableEq, Repr

/-- A response HRSP (R82): `h_res`, `h_rlen` and the bytes of `h_rdata`, byte `i` at position `i`. -/
structure Rsp where
  res : ResultCode
  rlen : Nat
  rdata : List Byte
  deriving DecidableEq, Repr

/-- The input pins of SPIBB-M in one of its clock cycles (R20). -/
structure MPins where
  rst : Bool
  hValid : Bool
  /-- the command word on `h_op`, `h_len`, `h_wdata` (R80) -/
  hcmd : Nat
  miso : Level
  deriving DecidableEq, Repr

/-- The input pins of SPIBB-S in one of its clock cycles (R32). -/
structure SPins where
  rst : Bool
  hValid : Bool
  hcmd : Nat
  sclk : Level
  csN : Level
  mosi : Level
  deriving DecidableEq, Repr

/-- One step's outside inputs (00_scope.md R13, R14, R44): for each block, whether its clock has an edge, and if so
what its input pins carry. Both blocks: lockstep; one block: an interleaving step (70_reset_and_hazards.md R241). The
line levels in it are the line environment's, and are used only where `Wiring` says so. -/
structure Tick where
  m : Option MPins
  s : Option SPins
  deriving DecidableEq, Repr

/-- Where SPIBB-M's `miso` comes from: the slave of a pair, its own `mosi` (loopback), or the environment (R74, R14). -/
inductive MisoSource where
  | slave
  | mosi
  | env
  deriving DecidableEq, Repr

/-- Where SPIBB-S's three input lines come from: the master of a pair, or the environment (R74, R14). -/
inductive LineSource where
  | master
  | env
  deriving DecidableEq, Repr

/-- How the input lines are connected (R74); constant along every step. -/
structure Wiring where
  miso : MisoSource
  slave : LineSource
  deriving DecidableEq, Repr

/-- SPIBB-M (10_state.md section 1). `epoch` is the model's own: the number of resets of the block (log 9). -/
structure Master where
  role : Role
  phase : MPhase
  byte : Nat
  bit : Fin 8
  acc : Byte
  dly : Nat
  tx : Memory
  txLen : Nat
  rx : Memory
  rxLen : Nat
  res : MRes
  sclk : Level
  csN : Level
  mosi : Level
  epoch : Nat
  deriving DecidableEq, Repr

/-- SPIBB-S (10_state.md section 2). `epoch` is the model's own: the number of resets of the block (log 9). -/
structure Slave where
  role : Role
  phase : SPhase
  byte : Nat
  bit : Fin 8
  acc : Byte
  tmr : Nat
  csPrev : Level
  tx : Memory
  txLen : Nat
  rx : Memory
  rxLen : Nat
  res : SRes
  miso : Level
  epoch : Nat
  deriving DecidableEq, Repr

/-- Why a step stops the machine. -/
inductive Fault where
  /-- Raised by `M.seq.P_DRIVE`, `M.seq.P_STORE` and `S.seq.W_LOW` when the byte index is `CAP` or more: the spec has
  no such byte (R60). SAFE: the machine stops where the spec has no rule; no state a run reaches is such a state (R50;
  log 10). -/
  | noSuchByte
  deriving DecidableEq, Repr

/-- Why there is no meaning to run. -/
inductive Refusal where
  /-- An arm of `exec` that has no meaning yet. SAFE. No arm uses it. -/
  | notModelled (mnemonic : String)
  /-- Raised by a block's cycle when the bits on its command port are no instruction: only a number with more bits
  than the port has pins (R80), which no host can present. SAFE (log 11). -/
  | undecodable (e : DecodeError)
  deriving DecidableEq, Repr

/-- The whole machine. -/
structure State where
  /-- the open parameters (R6, R7, R8); constant along every step -/
  params : Params
  /-- how the lines are connected (R74); constant along every step -/
  wiring : Wiring
  master : Master
  slave : Slave
  /-- SPIBB-M's input pins in its latest cycle (R20; log 6) -/
  mPins : MPins
  /-- SPIBB-S's input pins in its latest cycle (R32; log 6) -/
  sPins : SPins
  /-- SPIBB-M's response pins in its latest cycle (R82; log 7) -/
  mRsp : Rsp
  /-- SPIBB-S's response pins in its latest cycle (R82; log 7) -/
  sRsp : Rsp
  /-- the MODEL's own: the ticks still to come, oldest first (log 3) -/
  inputs : List Tick
  /-- the MODEL's own: steps taken, the counter the free line levels are taken at (log 4) -/
  ticks : Nat
  deriving DecidableEq, Repr

/-- `rsp(code)` of 40_host_operations.md: the code with `h_rlen = 0` and `h_rdata = 0`, which has `cap` bytes (R82). -/
def Rsp.plain (cap : Nat) (c : ResultCode) : Rsp :=
  { res := c, rlen := 0, rdata := List.replicate cap 0 }

/-- SPIBB-M after its `n`-th reset (R48): every buffer byte is unspecified, so none is listed. -/
def Master.afterReset (n : Nat) : Master :=
  { role := .idle, phase := .pAssert, byte := 0, bit := 0, acc := 0, dly := 0
    tx := [], txLen := 0, rx := [], rxLen := 0, res := .none
    sclk := false, csN := true, mosi := false, epoch := n }

/-- SPIBB-S after its `n`-th reset (R48). -/
def Slave.afterReset (n : Nat) : Slave :=
  { role := .idle, phase := .wHigh, byte := 0, bit := 0, acc := 0, tmr := 0, csPrev := false
    tx := [], txLen := 0, rx := [], rxLen := 0, res := .none, miso := false, epoch := n }

/-- The machine right after reset of both blocks (R48, R231), for any parameters and wiring. The pins are DESIGN
CHOICE (log 6). -/
def State.resetWith (p : Params) (w : Wiring) : State :=
  { params := p, wiring := w
    master := Master.afterReset 0, slave := Slave.afterReset 0
    mPins := { rst := false, hValid := false, hcmd := 0, miso := false }
    sPins := { rst := false, hValid := false, hcmd := 0, sclk := false, csN := true, mosi := false }
    mRsp := Rsp.plain p.capM .ok, sRsp := Rsp.plain p.capS .ok
    inputs := [], ticks := 0 }

/-- The machine right after reset (R48), with the parameters of the test vectors (log 1) wired as a pair (log 5). -/
def State.reset : State := State.resetWith Params.vectors { miso := .slave, slave := .master }

end Sys2Proof.Machine
end

