-- ==== Sys2Proof/Machine/Ops.lean ====
section
/-! DEFINITION. The named operations over the buffers, the lines, the response ports and the two blocks. -/

namespace Sys2Proof.Machine

/-- One outcome after another: a fault or a refusal ends the step. -/
def andThen (o : Host.Outcome State Fault Refusal) (f : State → Host.Outcome State Fault Refusal) :
    Host.Outcome State Fault Refusal :=
  match o with
  | .next s => f s
  | .fault r => .fault r
  | .refused r => .refused r

/-- `shift_in(acc, b) = {acc[6:0], b}` (00_scope.md R12). -/
def shiftIn (acc : Byte) (b : Level) : Byte := BitVec.concat (acc.setWidth 7) b

/-! ## Buffers (20_memory.md R60; `MemRead`, `MemWrite` of 00_scope.md R11) -/

/-- What a buffer lists for index `i`: nothing, where no write since reset has reached it. -/
def Memory.read? : Memory → Nat → Option Byte
  | [], _ => none
  | (a, b) :: rest, i => if i = a then some b else Memory.read? rest i

/-- `MemWrite(buf, i, v)`. -/
def Memory.write : Memory → Nat → Byte → Memory
  | [], i, v => [(i, v)]
  | (a, b) :: rest, i, v =>
    if i < a then (i, v) :: (a, b) :: rest
    else if i = a then (i, v) :: rest
    else (a, b) :: Memory.write rest i v

/-- Consecutive writes from index `i` upward. -/
def Memory.writeBytes : Memory → Nat → List Byte → Memory
  | m, _, [] => m
  | m, i, b :: bs => Memory.writeBytes (m.write i b) (i + 1) bs

/-- The canonical form: indices strictly rising. An unlisted index reads as no value, so no entry can equal it. -/
def Memory.wf : Memory → Bool
  | [] => true
  | [_] => true
  | (a, _) :: (a', b') :: rest => decide (a < a') && Memory.wf ((a', b') :: rest)

/-- Every listed index exists in a buffer of `cap` bytes (R60). -/
def Memory.below (cap : Nat) (m : Memory) : Bool := m.all (fun c => decide (c.1 < cap))

/-- The buffer a space names. -/
def State.buffer (s : State) : Buffer → Memory
  | .mTx => s.master.tx
  | .mRx => s.master.rx
  | .sTx => s.slave.tx
  | .sRx => s.slave.rx

/-- What a buffer holds at index `i`, where something has been written there since the block's reset. -/
def State.readByte (s : State) (b : Buffer) (i : Nat) : Option Byte := (s.buffer b).read? i

/-- `M.TX[i]` (R27): a byte never written since reset has a free value (log 8). -/
def Master.txByte (m : Master) (i : Nat) : Byte :=
  (m.tx.read? i).getD (Config.unwrittenByte .mTx m.epoch i)

/-- `M.RX[i]` (R28): a byte never written since reset has a free value (log 8). -/
def Master.rxByte (m : Master) (i : Nat) : Byte :=
  (m.rx.read? i).getD (Config.unwrittenByte .mRx m.epoch i)

/-- `S.TX[i]` (R39): a byte never written since reset has a free value (log 8). -/
def Slave.txByte (x : Slave) (i : Nat) : Byte :=
  (x.tx.read? i).getD (Config.unwrittenByte .sTx x.epoch i)

/-- `S.RX[i]` (R40): a byte never written since reset has a free value (log 8). -/
def Slave.rxByte (x : Slave) (i : Nat) : Byte :=
  (x.rx.read? i).getD (Config.unwrittenByte .sRx x.epoch i)

/-! ## Responses -/

/-- SPIBB-M answers with a code and no bytes: `rsp(code)` of 40_host_operations.md. -/
def State.answerM (s : State) (c : ResultCode) : State := { s with mRsp := Rsp.plain s.params.capM c }

/-- SPIBB-S answers with a code and no bytes. -/
def State.answerS (s : State) (c : ResultCode) : State := { s with sRsp := Rsp.plain s.params.capS c }

/-- The bytes of `h_rdata` when `n` bytes are delivered from a buffer of capacity `cap`: 0x00 from `n` on (R82). -/
def deliveredBytes (cap n : Nat) (rx : Nat → Byte) : List Byte :=
  (List.range cap).map (fun i => if i < n then rx i else 0)

/-- SPIBB-M delivers `RX[0..rx_len-1]` with a code (R114). -/
def State.deliverM (s : State) (c : ResultCode) : State :=
  { s with mRsp := { res := c, rlen := s.master.rxLen
                     rdata := deliveredBytes s.params.capM s.master.rxLen s.master.rxByte } }

/-- SPIBB-S delivers `RX[0..rx_len-1]` with a code (R118). -/
def State.deliverS (s : State) (c : ResultCode) : State :=
  { s with sRsp := { res := c, rlen := s.slave.rxLen
                     rdata := deliveredBytes s.params.capS s.slave.rxLen s.slave.rxByte } }

/-! ## SPIBB-M -/

/-- `TX[0..bs.length-1] <- bs; tx_len <- n` (R112). -/
def Master.load (m : Master) (n : Nat) (bs : List Byte) : Master :=
  { m with tx := m.tx.writeBytes 0 bs, txLen := n }

/-- START with nothing to send: `res <- READY; rx_len <- 0` (R113, R154). -/
def Master.completeEmpty (m : Master) : Master := { m with res := .ready, rxLen := 0 }

/-- START of a transfer (R113). -/
def Master.begin (m : Master) : Master :=
  { m with role := .active, phase := .pAssert, byte := 0, dly := 0, res := .none }

/-- `res <- NONE`: the result has been delivered (R114). -/
def Master.taken (m : Master) : Master := { m with res := .none }

/-- One dwell cycle (R140). -/
def Master.dwell (m : Master) : Master := { m with dly := m.dly - 1 }

/-! ## SPIBB-S -/

/-- `TX[0..bs.length-1] <- bs; tx_len <- n` (R117). -/
def Slave.load (x : Slave) (n : Nat) (bs : List Byte) : Slave :=
  { x with tx := x.tx.writeBytes 0 bs, txLen := n }

/-- `res <- NONE`: the result has been delivered (R118). For `INCOMPLETE` this is the return from the exceptional
outcome (60_exceptions.md R213). -/
def Slave.taken (x : Slave) : Slave := { x with res := .none }

/-- `end_session(r, n)` (R181). With `.incomplete` it is the entry into the incomplete state (60_exceptions.md R212):
`rx_len` saves the number of whole bytes, the slave is idle, and the unfinished byte stays behind in `s_acc`. -/
def Slave.endSession (x : Slave) (r : SRes) (n : Nat) : Slave :=
  { x with role := .idle, res := r, rxLen := n, miso := false }

/-- `poll_miss` (R178): the deadline is the `TIMEOUT`-th consecutive miss of one wait. -/
def Slave.pollMiss (x : Slave) (timeout : Nat) : Slave :=
  if x.tmr + 1 = timeout then x.endSession .incomplete x.byte else { x with tmr := x.tmr + 1 }

/-- `sample` (R174). -/
def Slave.sample (x : Slave) (mosi : Level) : Slave :=
  { x with acc := shiftIn x.acc mosi, phase := .wLow, tmr := 0 }

/-- `cs_prev <- cs` (R179): the last thing every slave step does. -/
def Slave.sawCs (x : Slave) (cs : Level) : Slave := { x with csPrev := cs }

/-! ## Lines and pins -/

/-- The present level of a line is its writer's output register (20_memory.md R61, R75). -/
def State.line (s : State) : Line → Level
  | .sclk => s.master.sclk
  | .csN => s.master.csN
  | .mosi => s.master.mosi
  | .miso => s.slave.miso

/-- The level SPIBB-M reads on `miso`, where the environment offers `env` (R74). -/
def State.misoRead (s : State) (env : Level) : Level :=
  match s.wiring.miso with
  | .slave => s.line .miso
  | .mosi => s.line .mosi
  | .env => env

/-- SPIBB-M's input pins in a cycle that begins now (R20, R74). -/
def State.readMPins (s : State) (a : MPins) : MPins := { a with miso := s.misoRead a.miso }

/-- SPIBB-S's input pins in a cycle that begins now (R32, R74). -/
def State.readSPins (s : State) (a : SPins) : SPins :=
  match s.wiring.slave with
  | .master => { a with sclk := s.line .sclk, csN := s.line .csN, mosi := s.line .mosi }
  | .env => a

/-- What happens in step `n` where no tick is listed: both clocks have an edge, no reset, no command, and the
environment's levels are free (log 3, 4). -/
def freeTick (n : Nat) : Tick :=
  { m := some { rst := false, hValid := false, hcmd := 0, miso := Config.freeLevel .miso n }
    s := some { rst := false, hValid := false, hcmd := 0, sclk := Config.freeLevel .sclk n
                csN := Config.freeLevel .csN n, mosi := Config.freeLevel .mosi n } }

/-- The tick the next step consumes. -/
def State.nextTick (s : State) : Tick :=
  match s.inputs with
  | [] => freeTick s.ticks
  | t :: _ => t

/-- The beginning of a step: the tick is taken off the list, and each block that has a clock edge reads its input pins
as the lines stand now (00_scope.md R13, 20_memory.md R67). -/
def State.sampled (s : State) (t : Tick) : State :=
  { s with
    inputs := s.inputs.tail
    ticks := s.ticks + 1
    mPins := match t.m with
      | some a => s.readMPins a
      | none => s.mPins
    sPins := match t.s with
      | some a => s.readSPins a
      | none => s.sPins }

/-- A cycle of SPIBB-M with `rst = 1` (70_reset_and_hazards.md R230): every element takes its reset value and the
response pins read zero. -/
def State.resetM (s : State) : State :=
  ({ s with master := Master.afterReset (s.master.epoch + 1) }).answerM .ok

/-- A cycle of SPIBB-S with `rst = 1` (R230). -/
def State.resetS (s : State) : State :=
  ({ s with slave := Slave.afterReset (s.slave.epoch + 1) }).answerS .ok

/-- The tick that presents one command word to SPIBB-M in step `n` and nothing else (30_encoding.md R80). The level the
environment puts on `miso` in it is left open (93_implementation_defined.md U16); DESIGN CHOICE (log 4, 13): the free
value of step `n`, as where no tick is listed. It is read only where the wiring takes `miso` from the environment. -/
def mCommandTick (n w : Nat) : Tick :=
  { m := some { rst := false, hValid := true, hcmd := w, miso := Config.freeLevel .miso n }, s := none }

end Sys2Proof.Machine
end

