-- ==== Sys2Proof/Machine/Flags.lean ====
section
/-! DEFINITION. The numbers of phases, role states, result slots and result codes (92_eei_decisions.md D4, D5), the
status words (10_state.md R31, R43) and the response word (30_encoding.md R82). -/

namespace Sys2Proof.Machine

/-- `IDLE` 0, `ACTIVE` 1 (R21, R33). -/
def Role.code : Role → BitVec 1
  | .idle => 0
  | .active => 1

/-- The number of `m_phase` (R22). -/
def MPhase.code : MPhase → Nat
  | .pAssert => 0
  | .pDrive => 1
  | .pSample => 2
  | .pHigh => 3
  | .pLow => 4
  | .pStore => 5
  | .pDeassert => 6
  | .pFinish => 7

/-- The number of `s_phase` (R34). -/
def SPhase.code : SPhase → Nat
  | .wHigh => 0
  | .wLow => 1

/-- The number of `M.res` (R29). -/
def MRes.code : MRes → BitVec 2
  | .none => 0
  | .ready => 1

/-- The number of `S.res` (R41). -/
def SRes.code : SRes → BitVec 2
  | .none => 0
  | .ready => 1
  | .incomplete => 2

/-- The number of `h_res` (R85). -/
def ResultCode.code : ResultCode → BitVec 3
  | .ok => 0
  | .notReady => 1
  | .busy => 2
  | .incomplete => 3
  | .badLen => 4
  | .badOp => 5

/-- `{INCOMPLETE, READY, ACTIVE}` as a 3-bit word (30_encoding.md R86). -/
def statusWord (incomplete ready active : Bool) : BitVec 3 :=
  BitVec.ofBool incomplete ++ BitVec.ofBool ready ++ BitVec.ofBool active

/-- SPIBB-M's status word (R31): `INCOMPLETE` is always 0. -/
def Master.status (m : Master) : BitVec 3 :=
  statusWord false (decide (m.res = .ready)) (decide (m.role = .active))

/-- SPIBB-S's status word (R43). -/
def Slave.status (x : Slave) : BitVec 3 :=
  statusWord (decide (x.res = .incomplete)) (decide (x.res = .ready)) (decide (x.role = .active))

/-- `HRSP = { h_res, h_rlen, h_rdata }` as one number on the response pins of a block of capacity `cap` (R82). -/
def Rsp.word (cap : Nat) (r : Rsp) : Nat :=
  (r.res.code.toNat * 2 ^ lenBits cap + r.rlen) * 2 ^ (8 * cap) + packBytes r.rdata

/-- The code a delivering READ of the slave answers with, where there is something to deliver (R118). -/
def SRes.delivers : SRes → Option ResultCode
  | .none => Option.none
  | .ready => some .ok
  | .incomplete => some .incomplete

end Sys2Proof.Machine
end

