-- ==== Sys2Proof/Machine/Operands.lean ====
section
/-! DEFINITION. The operand forms: the bytes a LOAD takes from `h_wdata`, the bit a block puts on its data line. -/

namespace Sys2Proof.Machine

/-- Byte `i` of `h_wdata` (30_encoding.md R81). A decoded command has a byte at every `i < CAP`; a term that is no
decoded command may have fewer, and the missing pins are taken as 0 (log 14). -/
def wdataByte (wdata : List Byte) (i : Nat) : Byte := wdata.getD i 0

/-- The bytes an accepted LOAD writes: `h_wdata[8*i+7 : 8*i]` for `i` in `0 .. h_len-1` (R112, R117). -/
def loadBytes (len : Nat) (wdata : List Byte) : List Byte := (List.range len).map (wdataByte wdata)

/-- `TX[m_byte][m_bit]` (41_master_sequencer.md R143). -/
def Master.txBit (m : Master) : Level := (m.txByte m.byte).getLsbD m.bit.val

/-- `resp_bit(i, b)` (42_slave_sequencer.md R180). -/
def Slave.respBit (x : Slave) (i b : Nat) : Level :=
  if i < x.txLen then (x.txByte i).getLsbD b else false

/-- The slave's data line and its wait in a state where byte `i`, bit count `k` is about to be exchanged. -/
def Slave.drive (x : Slave) (i b : Nat) : Slave :=
  { x with miso := x.respBit i b, phase := .wHigh, tmr := 0 }

end Sys2Proof.Machine
end

