-- ==== Sys2Proof/Machine/MHost.lean ====
section
/-! DEFINITION. The host operations of SPIBB-M (40_host_operations.md section 2). Each is the host step of a cycle
alone (00_scope.md R13); the sequencer step that follows it in the same cycle is in Machine/Cycle.lean. -/

namespace Sys2Proof.Machine

/-- `M.NOP` (R111). -/
def execMNop (s : State) : Host.Outcome State Fault Refusal := .next (s.answerM .ok)

/-- `M.LOAD` (R112): `BUSY` is tested before `BAD_LEN` (R206). -/
def execMLoad (len : Nat) (wdata : List Byte) (s : State) : Host.Outcome State Fault Refusal :=
  if s.master.role = .active then .next (s.answerM .busy)
  else if s.params.capM < len then .next (s.answerM .badLen)
  else .next (({ s with master := s.master.load len (loadBytes len wdata) }).answerM .ok)

/-- `M.START` (R113). -/
def execMStart (s : State) : Host.Outcome State Fault Refusal :=
  if s.master.role = .active then .next (s.answerM .busy)
  else if s.master.txLen = 0 then .next (({ s with master := s.master.completeEmpty }).answerM .ok)
  else .next (({ s with master := s.master.begin }).answerM .ok)

/-- `M.READ` (R114). -/
def execMRead (s : State) : Host.Outcome State Fault Refusal :=
  if s.master.res = .ready then .next { s.deliverM .ok with master := s.master.taken }
  else .next (s.answerM .notReady)

/-- The reserved opcodes of SPIBB-M (R115). -/
def execMReserved (s : State) : Host.Outcome State Fault Refusal := .next (s.answerM .badOp)

end Sys2Proof.Machine
end

