-- ==== Sys2Proof/Machine/MSeq.lean ====
section
/-! DEFINITION. The eight actions of the master transfer loop (41_master_sequencer.md section 2). Each is the action
itself; when it is performed (`m_state = ACTIVE`, `m_dly = 0`, R140) is decided in Machine/Cycle.lean (log 17). -/

namespace Sys2Proof.Machine

/-- `P_ASSERT` (R142). -/
def execMSeqPAssert (s : State) : Host.Outcome State Fault Refusal :=
  .next { s with master := { s.master with
    csN := false, bit := 7, acc := 0, phase := .pDrive, dly := s.params.dSettle } }

/-- `P_DRIVE` (R143). A byte index the buffer does not have is a fault (log 10). -/
def execMSeqPDrive (s : State) : Host.Outcome State Fault Refusal :=
  if s.master.byte < s.params.capM then
    .next { s with master := { s.master with
      mosi := s.master.txBit, phase := .pSample, dly := s.params.dDrive } }
  else .fault .noSuchByte

/-- `P_SAMPLE` (R144): `miso` is the level at the start of the cycle. -/
def execMSeqPSample (s : State) : Host.Outcome State Fault Refusal :=
  .next { s with master := { s.master with
    acc := shiftIn s.master.acc s.mPins.miso, phase := .pHigh, dly := 0 } }

/-- `P_HIGH` (R145). -/
def execMSeqPHigh (s : State) : Host.Outcome State Fault Refusal :=
  .next { s with master := { s.master with
    sclk := true, phase := .pLow, dly := s.params.dHalf } }

/-- `P_LOW` (R146). -/
def execMSeqPLow (s : State) : Host.Outcome State Fault Refusal :=
  if s.master.bit = 0 then
    .next { s with master := { s.master with
      sclk := false, phase := .pStore, dly := s.params.dHalf } }
  else
    .next { s with master := { s.master with
      sclk := false, bit := s.master.bit - 1, phase := .pDrive, dly := s.params.dHalf } }

/-- `P_STORE` (R147): the only write to `M.RX`. A byte index the buffer does not have is a fault (log 10). -/
def execMSeqPStore (s : State) : Host.Outcome State Fault Refusal :=
  if s.master.byte < s.params.capM then
    .next { s with master := { s.master with
      rx := s.master.rx.write s.master.byte s.master.acc, phase := .pDeassert, dly := 0 } }
  else .fault .noSuchByte

/-- `P_DEASSERT` (R148). -/
def execMSeqPDeassert (s : State) : Host.Outcome State Fault Refusal :=
  .next { s with master := { s.master with
    csN := true
    byte := s.master.byte + 1
    dly := s.params.dGap
    phase := if s.master.byte + 1 = s.master.txLen then .pFinish else .pAssert } }

/-- `P_FINISH` (R149). -/
def execMSeqPFinish (s : State) : Host.Outcome State Fault Refusal :=
  .next { s with master := { s.master with
    role := .idle, res := .ready, rxLen := s.master.txLen, phase := .pAssert } }

end Sys2Proof.Machine
end

