-- ==== Sys2Proof/Machine/SHost.lean ====
section
/-! DEFINITION. The host operations of SPIBB-S (40_host_operations.md section 3), each the host step of a cycle alone
(00_scope.md R13). -/

namespace Sys2Proof.Machine

/-- `S.NOP` (R116). -/
def execSNop (s : State) : Host.Outcome State Fault Refusal := .next (s.answerS .ok)

/-- `S.LOAD` (R117): `BUSY` is tested before `BAD_LEN` (R206). -/
def execSLoad (len : Nat) (wdata : List Byte) (s : State) : Host.Outcome State Fault Refusal :=
  if s.slave.role = .active then .next (s.answerS .busy)
  else if s.params.capS < len then .next (s.answerS .badLen)
  else .next (({ s with slave := s.slave.load len (loadBytes len wdata) }).answerS .ok)

/-- `S.START` is reserved on the slave (R119): only chip-select starts a session. -/
def execSStart (s : State) : Host.Outcome State Fault Refusal := .next (s.answerS .badOp)

/-- `S.READ` (R118). -/
def execSRead (s : State) : Host.Outcome State Fault Refusal :=
  match s.slave.res.delivers with
  | some c => .next { s.deliverS c with slave := s.slave.taken }
  | none => .next (s.answerS .notReady)

/-- The reserved opcodes of SPIBB-S (R119). -/
def execSReserved (s : State) : Host.Outcome State Fault Refusal := .next (s.answerS .badOp)

end Sys2Proof.Machine
end

