-- ==== Sys2Proof/Machine/SSeq.lean ====
section
/-! DEFINITION. The slave receive loop (42_slave_sequencer.md): the session start, the two waits and the idle step. A
row `S.seq.W_…` of the opcode table is the whole `ACTIVE` step in that phase (R170, R185), with chip-select tested
first (R172) and `cs_prev` written last (R179; log 17). -/

namespace Sys2Proof.Machine

/-- `start_session` (R171). -/
def Slave.startSession (x : Slave) : Slave :=
  { x with role := .active, phase := .wHigh, byte := 0, bit := 0, acc := 0, tmr := 0
           res := .none, miso := x.respBit 0 7 }

/-- `bit_done` within a byte (R175); used where `s_bit < 7`. -/
def Slave.bitDone (x : Slave) : Slave :=
  { x.drive x.byte (6 - x.bit.val) with bit := x.bit + 1 }

/-- `bit_done` at the end of a byte (R176): the commit. -/
def Slave.commit (x : Slave) : Slave :=
  { x.drive (x.byte + 1) 7 with rx := x.rx.write x.byte x.acc, byte := x.byte + 1, bit := 0 }

/-- `bit_done` that fills the buffer (R177). -/
def Slave.commitFull (x : Slave) (cap : Nat) : Slave :=
  ({ x with rx := x.rx.write x.byte x.acc, byte := x.byte + 1, bit := 0 }).endSession .ready cap

/-- The slave's state after a step, with the edge detector's history written (R179). -/
def State.slaveStepped (s : State) (x : Slave) : Host.Outcome State Fault Refusal :=
  .next { s with slave := x.sawCs s.sPins.csN }

/-- The step in `IDLE` (R170, R171, R184): only a falling edge of chip-select starts a session. -/
def slaveIdleStep (s : State) : Host.Outcome State Fault Refusal :=
  if s.slave.csPrev = true ∧ s.sPins.csN = false then s.slaveStepped s.slave.startSession
  else s.slaveStepped s.slave

/-- `S.seq.W_HIGH` (R173, R174, R178). -/
def execSSeqWHigh (s : State) : Host.Outcome State Fault Refusal :=
  if s.sPins.csN = true then s.slaveStepped (s.slave.endSession .ready s.slave.byte)
  else if s.sPins.sclk = true then s.slaveStepped (s.slave.sample s.sPins.mosi)
  else s.slaveStepped (s.slave.pollMiss s.params.timeout)

/-- `S.seq.W_LOW` (R173, R175, R176, R177, R178). A commit at a byte index the buffer does not have is a fault
(log 10). -/
def execSSeqWLow (s : State) : Host.Outcome State Fault Refusal :=
  if s.sPins.csN = true then s.slaveStepped (s.slave.endSession .ready s.slave.byte)
  else if s.sPins.sclk = false then
    if s.slave.bit.val < 7 then s.slaveStepped s.slave.bitDone
    else if s.slave.byte + 1 < s.params.capS then s.slaveStepped s.slave.commit
    else if s.slave.byte + 1 = s.params.capS then s.slaveStepped (s.slave.commitFull s.params.capS)
    else .fault .noSuchByte
  else s.slaveStepped (s.slave.pollMiss s.params.timeout)

end Sys2Proof.Machine
end

