-- ==== Sys2Proof/Machine/Dispatch.lean ====
section
/-! DEFINITION. exec: one arm per constructor of Instr, each a direct call of its meaning. -/

namespace Sys2Proof.Machine

def exec (i : Instr) (s : State) : Host.Outcome State Fault Refusal :=
  match i with
  | .mNop _ _ => Sys2Proof.Machine.execMNop s
  | .mLoad len wdata => Sys2Proof.Machine.execMLoad len wdata s
  | .mStart _ _ => Sys2Proof.Machine.execMStart s
  | .mRead _ _ => Sys2Proof.Machine.execMRead s
  | .mReserved _ _ _ => Sys2Proof.Machine.execMReserved s
  | .sNop _ _ => Sys2Proof.Machine.execSNop s
  | .sLoad len wdata => Sys2Proof.Machine.execSLoad len wdata s
  | .sStart _ _ => Sys2Proof.Machine.execSStart s
  | .sRead _ _ => Sys2Proof.Machine.execSRead s
  | .sReserved _ _ _ => Sys2Proof.Machine.execSReserved s
  | .mSeqPAssert => Sys2Proof.Machine.execMSeqPAssert s
  | .mSeqPDrive => Sys2Proof.Machine.execMSeqPDrive s
  | .mSeqPSample => Sys2Proof.Machine.execMSeqPSample s
  | .mSeqPHigh => Sys2Proof.Machine.execMSeqPHigh s
  | .mSeqPLow => Sys2Proof.Machine.execMSeqPLow s
  | .mSeqPStore => Sys2Proof.Machine.execMSeqPStore s
  | .mSeqPDeassert => Sys2Proof.Machine.execMSeqPDeassert s
  | .mSeqPFinish => Sys2Proof.Machine.execMSeqPFinish s
  | .sSeqWHigh => Sys2Proof.Machine.execSSeqWHigh s
  | .sSeqWLow => Sys2Proof.Machine.execSSeqWLow s

end Sys2Proof.Machine
end

