-- ==== Sys2Proof/Machine/Cycle.lean ====
section
/-! DEFINITION. One clock cycle of each block (00_scope.md R13): reset, or the host operation on its command port and
then one step of its sequencer (60_exceptions.md R211). -/

namespace Sys2Proof.Machine

/-- Run what a port's bits decode to. -/
def runDecoded (d : Except DecodeError Instr) (s : State) : Host.Outcome State Fault Refusal :=
  match d with
  | .ok i => exec i s
  | .error e => .refused (.undecodable e)

/-- The host step of SPIBB-M: the command on its port, if any; else the response pins read zero (R110). -/
def hostM (s : State) : Host.Outcome State Fault Refusal :=
  if s.mPins.hValid = true then runDecoded (decode s.params .mHost s.mPins.hcmd) s
  else .next (s.answerM .ok)

/-- The host step of SPIBB-S (R110). -/
def hostS (s : State) : Host.Outcome State Fault Refusal :=
  if s.sPins.hValid = true then runDecoded (decode s.params .sHost s.sPins.hcmd) s
  else .next (s.answerS .ok)

/-- `seq_step_M` (41_master_sequencer.md R140, R141): the action that `m_phase` names is fetched by decoding its number
(10_state.md R22, R24). -/
def seqM (s : State) : Host.Outcome State Fault Refusal :=
  if s.master.role = .idle then .next s
  else if s.master.dly ≠ 0 then .next { s with master := s.master.dwell }
  else runDecoded (decode s.params .mSeq s.master.phase.code) s

/-- `seq_step_S` (42_slave_sequencer.md R170). -/
def seqS (s : State) : Host.Outcome State Fault Refusal :=
  if s.slave.role = .idle then slaveIdleStep s
  else runDecoded (decode s.params .sSeq s.slave.phase.code) s

/-- One clock cycle of SPIBB-M, its input pins already read. -/
def cycleM (s : State) : Host.Outcome State Fault Refusal :=
  if s.mPins.rst = true then .next s.resetM else andThen (hostM s) seqM

/-- One clock cycle of SPIBB-S, its input pins already read. -/
def cycleS (s : State) : Host.Outcome State Fault Refusal :=
  if s.sPins.rst = true then .next s.resetS else andThen (hostS s) seqS

/-- The cycles of the blocks that have a clock edge in a tick. Where both have one, each has read its pins before
either writes a line, so their order does not matter (70_reset_and_hazards.md R241 L). -/
def runTick (t : Tick) (s : State) : Host.Outcome State Fault Refusal :=
  andThen (if t.m.isSome = true then cycleM s else .next s)
    (fun s' => if t.s.isSome = true then cycleS s' else .next s')

end Sys2Proof.Machine
end

