-- ==== Sys2Proof/Machine/Step.lean ====
section
/-! DEFINITION. One step of the machine: the next tick (log 2, 3). -/

namespace Sys2Proof.Machine

/-- The next tick: the blocks that have a clock edge read their pins and run one cycle each. -/
def step (s : State) : Host.Outcome State Fault Refusal := runTick s.nextTick (s.sampled s.nextTick)

/-- `s` with a tick before all others that presents the command word of a table number to SPIBB-M (log 12, 13);
the level of `miso` in it is free (log 4). -/
def State.withFetchWord (s : State) (_nbits w : Nat) : State :=
  { s with inputs := mCommandTick s.ticks (tableHcmdWord s.params.capM w) :: s.inputs }

end Sys2Proof.Machine
end

