-- ==== Sys2Proof/Safety.lean ====
section
/-! DEFINITION. The terms claims about SPIBB are stated in: the reachable-state invariants (10_state.md R50), well
formed inputs, the premise `SlaveKeepsUp` and the deadline bound (70_reset_and_hazards.md R234, R236), the length of a
transfer (R243), and what it means that a block has received given bytes. -/

namespace Sys2Proof.Machine

/-! ## The invariants (R50, R30, R42) -/

/-- Every index below `n` has been written since the block's reset. -/
def Memory.writtenBelow (m : Memory) (n : Nat) : Prop := ∀ i, i < n → (m.read? i).isSome = true

/-- The levels of `cs_n` and `sclk` in each phase of an active master (30_encoding.md R89). -/
def MPhase.lines : MPhase → Level × Level
  | .pAssert => (true, false)
  | .pDrive => (false, false)
  | .pSample => (false, false)
  | .pHigh => (false, false)
  | .pLow => (false, true)
  | .pStore => (false, false)
  | .pDeassert => (false, false)
  | .pFinish => (true, false)

/-- The phases in which `mosi` carries bit `m_bit` of byte `m_byte` (R89). -/
def MPhase.mosiValid : MPhase → Bool
  | .pAssert => false
  | .pDrive => false
  | .pSample => true
  | .pHigh => true
  | .pLow => true
  | .pStore => true
  | .pDeassert => true
  | .pFinish => false

/-- What holds of SPIBB-M in every reachable state (R50, R141, R89). -/
structure Master.Inv (p : Params) (m : Master) : Prop where
  txWf : m.tx.wf = true
  txBelow : m.tx.below p.capM = true
  rxWf : m.rx.wf = true
  rxBelow : m.rx.below p.capM = true
  txLenLe : m.txLen ≤ p.capM
  rxLenLe : m.rxLen ≤ p.capM
  txWritten : m.tx.writtenBelow m.txLen
  readyWritten : m.res = .ready → m.rx.writtenBelow m.rxLen
  dlyLe : m.dly ≤ p.maxDwell
  idleLines : m.role = .idle → m.sclk = false ∧ m.csN = true ∧ m.dly = 0
  activeTx : m.role = .active → 1 ≤ m.txLen
  activeRes : m.role = .active → m.res = .none
  activeByte : m.role = .active → m.phase ≠ .pFinish → m.byte < m.txLen
  finishByte : m.role = .active → m.phase = .pFinish → m.byte = m.txLen
  activeRx : m.role = .active → m.rx.writtenBelow m.byte
  storedRx : m.role = .active → m.phase = .pDeassert → (m.rx.read? m.byte).isSome = true
  activeLines : m.role = .active → (m.csN, m.sclk) = m.phase.lines
  activeMosi : m.role = .active → m.phase.mosiValid = true → m.mosi = m.txBit
  lastBit : m.role = .active → m.phase = .pStore ∨ m.phase = .pDeassert → m.bit = 0

/-- What holds of SPIBB-S in every reachable state (R50, R42). -/
structure Slave.Inv (p : Params) (x : Slave) : Prop where
  txWf : x.tx.wf = true
  txBelow : x.tx.below p.capS = true
  rxWf : x.rx.wf = true
  rxBelow : x.rx.below p.capS = true
  txLenLe : x.txLen ≤ p.capS
  rxLenLe : x.rxLen ≤ p.capS
  txWritten : x.tx.writtenBelow x.txLen
  resWritten : x.res ≠ .none → x.rx.writtenBelow x.rxLen
  idleMiso : x.role = .idle → x.miso = false
  activeByte : x.role = .active → x.byte < p.capS
  activeRes : x.role = .active → x.res = .none
  activeTmr : x.role = .active → x.tmr < p.timeout
  activeRx : x.role = .active → x.rx.writtenBelow x.byte
  activeMiso : x.role = .active → x.miso = x.respBit x.byte (7 - x.bit.val)

/-- The invariant of the whole machine: legal parameters and both blocks' invariants. -/
structure State.Inv (s : State) : Prop where
  legal : s.params.Legal
  master : s.master.Inv s.params
  slave : s.slave.Inv s.params

/-! ## Inputs -/

/-- The command of a block's cycle, if one is presented, fits the port's pins (30_encoding.md R80). -/
def Tick.fits (p : Params) (t : Tick) : Prop :=
  (∀ a, t.m = some a → a.hValid = true → a.hcmd < 2 ^ hcmdWidth p.capM) ∧
  (∀ a, t.s = some a → a.hValid = true → a.hcmd < 2 ^ hcmdWidth p.capS)

/-- Every listed tick's commands fit their ports. -/
def State.inputsFit (s : State) : Prop := ∀ t ∈ s.inputs, t.fits s.params

/-- A tick that clocks SPIBB-M without resetting it. -/
def Tick.runsM (t : Tick) : Prop := ∃ a, t.m = some a ∧ a.rst = false

/-- A tick that clocks SPIBB-S without resetting it. -/
def Tick.runsS (t : Tick) : Prop := ∃ a, t.s = some a ∧ a.rst = false

/-- A lockstep tick (R241 L): both clocks have an edge, neither block is reset. -/
def Tick.lockstep (t : Tick) : Prop := t.runsM ∧ t.runsS

/-- A master and a slave wired line to line (20_memory.md R74). -/
def Wiring.pair : Wiring := { miso := .slave, slave := .master }

/-! ## `SlaveKeepsUp` (R234) and the deadline bound (R236) -/

/-- The slave is quiescent: one more slave step at the present line levels would change nothing in the slave's state
except `s_tmr` (R234, 90_conflicts.md C7). -/
def State.slaveQuiescent (s : State) : Prop :=
  ∃ u, seqS { s with sPins := s.readSPins s.sPins } = .next u ∧ { u.slave with tmr := s.slave.tmr } = s.slave

/-- The premise `SlaveKeepsUp` for one step (R234): a master action that changes a line, and a `P_SAMPLE`, happens
only when the slave is quiescent. R234 names actions and says nothing of a reset of SPIBB-M; DESIGN CHOICE (log 18): the
levels before and after the step are compared, so a reset that moves a line demands a quiescent slave too. -/
def State.slaveKeepsUp (s : State) : Prop :=
  ∀ u, step s = .next u →
    (u.master.sclk ≠ s.master.sclk ∨ u.master.csN ≠ s.master.csN ∨ u.master.mosi ≠ s.master.mosi ∨
      (s.nextTick.runsM ∧ s.master.role = .active ∧ s.master.dly = 0 ∧ s.master.phase = .pSample)) →
    s.slaveQuiescent

/-! ## The length of a transfer (R243) -/

/-- Cycles from a byte's `P_ASSERT` to the action a phase names, for bit position `b` (R243). -/
def MPhase.offset (p : Params) (b : Nat) : MPhase → Nat
  | .pAssert => 0
  | .pDrive => p.dSettle + 1 + (7 - b) * p.tBit
  | .pSample => p.dSettle + 1 + (7 - b) * p.tBit + (p.dDrive + 1)
  | .pHigh => p.dSettle + 1 + (7 - b) * p.tBit + (p.dDrive + 2)
  | .pLow => p.dSettle + 1 + (7 - b) * p.tBit + (p.dDrive + 2) + (p.dHalf + 1)
  | .pStore => p.dSettle + 1 + 8 * p.tBit
  | .pDeassert => p.dSettle + 1 + 8 * p.tBit + 1
  | .pFinish => 0

/-- Cycles an active master still needs, the present one and that of `P_FINISH` included; 0 when idle (R243). -/
def Master.cyclesToFinish (p : Params) (m : Master) : Nat :=
  match m.role with
  | .idle => 0
  | .active => (m.txLen - m.byte) * p.tByte + 1 + m.dly - m.phase.offset p m.bit.val

/-! ## Received bytes -/

/-- The `n` least significant bits of an accumulator are the `n` most significant bits of a byte, first bit highest
(00_scope.md R12). -/
def holdsTop (n : Nat) (acc q : Byte) : Prop := ∀ j, j < n → acc.getLsbD j = q.getLsbD (8 - n + j)

/-- How many bits of the present byte an active master has sampled. -/
def Master.sampledBits (m : Master) : Nat :=
  match m.phase with
  | .pAssert => 0
  | .pDrive => 7 - m.bit.val
  | .pSample => 7 - m.bit.val
  | .pHigh => 8 - m.bit.val
  | .pLow => 8 - m.bit.val
  | .pStore => 8
  | .pDeassert => 8
  | .pFinish => 0

/-- An active master has so far received the bytes `q 0`, `q 1`, … (R157): the stored ones are in `RX`, the bits of the
present one in the accumulator, and the byte just stored is in its place. -/
structure Master.Received (q : Nat → Byte) (m : Master) : Prop where
  stored : ∀ i, i < m.byte → m.rx.read? i = some (q i)
  current : holdsTop m.sampledBits m.acc (q m.byte)
  justStored : m.phase = .pDeassert → m.rx.read? m.byte = some (q m.byte)

/-- How many bits of the present byte an active slave has sampled. -/
def Slave.sampledBits (x : Slave) : Nat :=
  match x.phase with
  | .wHigh => x.bit.val
  | .wLow => x.bit.val + 1

/-- A slave has so far received the bytes `q 0`, `q 1`, … in its present session (R186): the committed ones are in
`RX`, the bits of the present one in the accumulator. -/
structure Slave.Received (q : Nat → Byte) (x : Slave) : Prop where
  committed : ∀ i, i < x.byte → x.rx.read? i = some (q i)
  current : holdsTop x.sampledBits x.acc (q x.byte)

/-! ## A pair in lockstep (R187, R241) -/

/-- Misses the slave has counted, in its wait for a rising edge, by the time a phase has `dly` cycles to go; `base` is
the dwell before `P_DRIVE`: the settle time for bit 7, the half period otherwise (R236). -/
def highWaitMisses (p : Params) (base : Nat) (m : Master) : Nat :=
  match m.phase with
  | .pAssert => 0
  | .pDrive => base - 1 - m.dly
  | .pSample => base + (p.dDrive - m.dly)
  | .pHigh => base + p.dDrive + 1
  | .pLow => base + p.dDrive + 2
  | .pStore => 0
  | .pDeassert => 0
  | .pFinish => 0

/-- The dwell that precedes the present bit's `P_DRIVE`. -/
def Master.bitBase (p : Params) (m : Master) : Nat := if m.bit = 7 then p.dSettle else p.dHalf

/-- The slave is in byte 0 of a session, waiting for the rising edge of the bit the master is at. -/
structure Slave.WaitsHigh (x : Slave) (k tmr : Nat) : Prop where
  active : x.role = .active
  phase : x.phase = .wHigh
  byte : x.byte = 0
  bit : x.bit.val = k
  tmr : x.tmr = tmr

/-- The slave is in byte 0 of a session, waiting for the falling edge that ends bit count `k`. -/
structure Slave.WaitsLow (x : Slave) (k tmr : Nat) : Prop where
  active : x.role = .active
  phase : x.phase = .wLow
  byte : x.byte = 0
  bit : x.bit.val = k
  tmr : x.tmr = tmr

/-- The slave has committed its one byte, chip-select still LOW: it waits for more, or, with a one-byte buffer, has
ended its session and remembers chip-select LOW. -/
structure Slave.HasCommitted (cap : Nat) (x : Slave) (tmr : Nat) : Prop where
  full : cap = 1 → x.role = .idle ∧ x.csPrev = false
  waits : cap ≠ 1 → x.role = .active ∧ x.phase = .wHigh ∧ x.byte = 1 ∧ x.bit.val = 0 ∧ x.tmr = tmr

/-- Where the slave of a pair in lockstep stands, for every position of the master (R187, R236, R241). In the cycle
after a line change the slave has not seen it yet (`dly` at its full dwell). -/
def State.InStep (s : State) : Prop :=
  let p := s.params
  let m := s.master
  let x := s.slave
  match m.role with
  | .idle => x.role = .idle ∨ (x.byte = 1 ∧ x.bit.val = 0)
  | .active =>
    match m.phase with
    | .pAssert => x.role = .idle ∨ (x.byte = 1 ∧ x.bit.val = 0)
    | .pFinish => x.role = .idle ∨ (x.byte = 1 ∧ x.bit.val = 0)
    | .pDrive =>
      if m.dly = m.bitBase p then
        if m.bit = 7 then x.role = .idle ∧ x.csPrev = true else x.WaitsLow (6 - m.bit.val) p.dHalf
      else m.dly < m.bitBase p ∧ x.WaitsHigh (7 - m.bit.val) (highWaitMisses p (m.bitBase p) m)
    | .pSample => m.dly ≤ p.dDrive ∧ x.WaitsHigh (7 - m.bit.val) (highWaitMisses p (m.bitBase p) m)
    | .pHigh => m.dly = 0 ∧ x.WaitsHigh (7 - m.bit.val) (highWaitMisses p (m.bitBase p) m)
    | .pLow =>
      if m.dly = p.dHalf then x.WaitsHigh (7 - m.bit.val) (highWaitMisses p (m.bitBase p) m)
      else m.dly < p.dHalf ∧ x.WaitsLow (7 - m.bit.val) (p.dHalf - 1 - m.dly)
    | .pStore =>
      if m.dly = p.dHalf then x.WaitsLow 7 p.dHalf
      else m.dly < p.dHalf ∧ x.HasCommitted p.capS (p.dHalf - 1 - m.dly)
    | .pDeassert => m.dly = 0 ∧ x.HasCommitted p.capS p.dHalf

/-! ## A pair under `SlaveKeepsUp` (R234, R241 I) -/

/-- The slave waits for the rising edge of bit count `k` of byte 0, however long it has waited. -/
def Slave.atHigh (x : Slave) (k : Nat) : Prop := x.WaitsHigh k x.tmr

/-- The slave waits for the falling edge of bit count `k` of byte 0, however long it has waited. -/
def Slave.atLow (x : Slave) (k : Nat) : Prop := x.WaitsLow k x.tmr

/-- Where the slave of a pair stands when every line change of the master finds it quiescent: at the master's position,
or one line change behind (R234, R241 I). -/
def State.KeepsInStep (s : State) : Prop :=
  let m := s.master
  let x := s.slave
  match m.role with
  | .idle => x.role = .idle ∨ (x.byte = 1 ∧ x.bit.val = 0)
  | .active =>
    match m.phase with
    | .pAssert => x.role = .idle ∨ (x.byte = 1 ∧ x.bit.val = 0)
    | .pFinish => x.role = .idle ∨ (x.byte = 1 ∧ x.bit.val = 0)
    | .pDrive =>
      x.atHigh (7 - m.bit.val) ∨
        (if m.bit = 7 then x.role = .idle ∧ x.csPrev = true else x.atLow (6 - m.bit.val))
    | .pSample =>
      x.atHigh (7 - m.bit.val) ∨
        (if m.bit = 7 then x.role = .idle ∧ x.csPrev = true else x.atLow (6 - m.bit.val))
    | .pHigh => x.atHigh (7 - m.bit.val)
    | .pLow => x.atHigh (7 - m.bit.val) ∨ x.atLow (7 - m.bit.val)
    | .pStore => x.atLow 7 ∨ x.HasCommitted s.params.capS x.tmr
    | .pDeassert => x.atLow 7 ∨ x.HasCommitted s.params.capS x.tmr

end Sys2Proof.Machine
end

