-- ==== Sys2Proof/Certificates/Slice0/Obligations.lean ====
section
/-! DEFINITION. The statements for the provers. Each docstring names the rule of spec/ it formalises. -/

open Sys2Proof Sys2Proof.Machine

/-! ## Encoding -/

/-- Decoding the word of a well-formed instruction gives it back, every operand at every value its field admits
(R80, R81, R83, R22, R34). -/
def Obligations.DecodeOfEncode : Prop :=
  ∀ (p : Params) (i : Instr), i.wf p = true → decode p i.port (encode p i) = .ok i

/-- Every word a port decodes is the word of the instruction it decodes to, which is well formed: no bit is dropped and
no two words of a port mean the same instruction. -/
def Obligations.EncodeOfDecode : Prop :=
  ∀ (p : Params) (port : Port) (w : Nat) (i : Instr),
    decode p port w = .ok i → i.port = port ∧ i.wf p = true ∧ encode p i = w

/-- Which bits of a command word are which field, and which operation each `h_op` is, on both host ports; a number
wider than the port is rejected (log 11); `LW` is the least width the value `CAP` fits (R6, R80, R81, R83, R87). -/
def Obligations.CommandWordFields : Prop :=
  ∀ (p : Params) (w : Nat),
    (w < 2 ^ (3 + lenBits p.capM + 8 * p.capM) →
      ∃ wdata : List Byte, wdata.length = p.capM ∧
        (∀ i, i < p.capM → wdata[i]? = some (BitVec.ofNat 8 (w / 2 ^ (8 * i)))) ∧
        decode p .mHost w = .ok
          (let len := w / 2 ^ (8 * p.capM) % 2 ^ lenBits p.capM
           let op := w / 2 ^ (8 * p.capM + lenBits p.capM)
           if op = 0 then .mNop len wdata else if op = 1 then .mLoad len wdata
           else if op = 2 then .mStart len wdata else if op = 3 then .mRead len wdata
           else .mReserved (BitVec.ofNat 2 op) len wdata)) ∧
    (w < 2 ^ (3 + lenBits p.capS + 8 * p.capS) →
      ∃ wdata : List Byte, wdata.length = p.capS ∧
        (∀ i, i < p.capS → wdata[i]? = some (BitVec.ofNat 8 (w / 2 ^ (8 * i)))) ∧
        decode p .sHost w = .ok
          (let len := w / 2 ^ (8 * p.capS) % 2 ^ lenBits p.capS
           let op := w / 2 ^ (8 * p.capS + lenBits p.capS)
           if op = 0 then .sNop len wdata else if op = 1 then .sLoad len wdata
           else if op = 2 then .sStart len wdata else if op = 3 then .sRead len wdata
           else .sReserved (BitVec.ofNat 2 op) len wdata)) ∧
    (2 ^ (3 + lenBits p.capM + 8 * p.capM) ≤ w → decode p .mHost w = .error .wordTooWide) ∧
    (2 ^ (3 + lenBits p.capS + 8 * p.capS) ≤ w → decode p .sHost w = .error .wordTooWide) ∧
    (∀ cap, 1 ≤ cap → cap < 2 ^ lenBits cap ∧ ∀ n, cap < 2 ^ n → lenBits cap ≤ n)

/-- Words of 30_encoding.md R90 and 95_test_vectors.md, for CAP = 4, and the phase numbers of R22 and R34. -/
def Obligations.SpecWordsDecode : Prop :=
  decode Params.vectors .mHost 0x0900000041 = .ok (.mLoad 1 [0x41, 0, 0, 0]) ∧
  decode Params.vectors .mHost 0x0A000055AA = .ok (.mLoad 2 [0xAA, 0x55, 0, 0]) ∧
  decode Params.vectors .mHost 0x1000000000 = .ok (.mStart 0 [0, 0, 0, 0]) ∧
  decode Params.vectors .mHost 0x3FFFFFFFFF = .ok (.mReserved 3 7 [0xFF, 0xFF, 0xFF, 0xFF]) ∧
  decode Params.vectors .sHost 0x1800000000 = .ok (.sRead 0 [0, 0, 0, 0]) ∧
  decode Params.vectors .sHost 0x1000000000 = .ok (.sStart 0 [0, 0, 0, 0]) ∧
  decode Params.vectors .mSeq 0 = .ok .mSeqPAssert ∧
  decode Params.vectors .mSeq 7 = .ok .mSeqPFinish ∧
  decode Params.vectors .sSeq 1 = .ok .sSeqWLow

/-! ## Bits, status and responses -/

/-- `shift_in(acc, b) = {acc[6:0], b}`, and eight of them leave exactly the eight bits, the first in bit 7 (R12). -/
def Obligations.ShiftInEightTimes : Prop :=
  ∀ acc : Byte,
    (∀ b : Level, (shiftIn acc b).getLsbD 0 = b ∧
      ∀ j, j < 7 → (shiftIn acc b).getLsbD (j + 1) = acc.getLsbD j) ∧
    (∀ bits : List Level, bits.length = 8 →
      ∀ j, j < 8 → (bits.foldl shiftIn acc).getLsbD j = bits.getD (7 - j) false)

/-- The status words, bit by bit (R31, R43, R86); in every state of the invariant `ACTIVE` excludes `READY` and
`INCOMPLETE`, and `READY` and `INCOMPLETE` are never both 1. -/
def Obligations.StatusWordBits : Prop :=
  ∀ s : State,
    (s.master.status.getLsbD 0 = decide (s.master.role = .active)) ∧
    (s.master.status.getLsbD 1 = decide (s.master.res = .ready)) ∧
    (s.master.status.getLsbD 2 = false) ∧
    (s.slave.status.getLsbD 0 = decide (s.slave.role = .active)) ∧
    (s.slave.status.getLsbD 1 = decide (s.slave.res = .ready)) ∧
    (s.slave.status.getLsbD 2 = decide (s.slave.res = .incomplete)) ∧
    (s.Inv →
      (s.master.status.getLsbD 0 = true → s.master.status.getLsbD 1 = false) ∧
      (s.slave.status.getLsbD 0 = true →
        s.slave.status.getLsbD 1 = false ∧ s.slave.status.getLsbD 2 = false) ∧
      ¬ (s.slave.status.getLsbD 1 = true ∧ s.slave.status.getLsbD 2 = true))

/-- Which bits of a response word are which field: `h_res` above `h_rlen` above `h_rdata`, byte `i` in bits
`[8*i+7 : 8*i]`, and the numbers of the six result codes (R82, R85, R65). -/
def Obligations.ResponseWordFields : Prop :=
  (∀ (cap : Nat) (r : Rsp), r.rlen < 2 ^ lenBits cap → r.rdata.length = cap →
    r.word cap < 2 ^ (3 + lenBits cap + 8 * cap) ∧
    r.word cap / 2 ^ (8 * cap + lenBits cap) = r.res.code.toNat ∧
    r.word cap / 2 ^ (8 * cap) % 2 ^ lenBits cap = r.rlen ∧
    ∀ i b, r.rdata[i]? = some b → b = BitVec.ofNat 8 (r.word cap / 2 ^ (8 * i))) ∧
  ResultCode.ok.code = 0 ∧ ResultCode.notReady.code = 1 ∧ ResultCode.busy.code = 2 ∧
  ResultCode.incomplete.code = 3 ∧ ResultCode.badLen.code = 4 ∧ ResultCode.badOp.code = 5

/-! ## Reset -/

/-- The state after reset (R48, R231), for any parameters and wiring: both blocks idle with nothing pending, lengths,
counters and accumulators 0, lines at their idle levels, no buffer byte with a value; the first READ answers NOT_READY
and a START before any LOAD completes at once. -/
def Obligations.ResetState : Prop :=
  ∀ (p : Params) (w : Wiring) (s : State), s = State.resetWith p w →
    s.params = p ∧ s.wiring = w ∧
    s.master.role = .idle ∧ s.master.phase = .pAssert ∧ s.master.byte = 0 ∧ s.master.bit = 0 ∧
    s.master.acc = 0 ∧ s.master.dly = 0 ∧ s.master.txLen = 0 ∧ s.master.rxLen = 0 ∧ s.master.res = .none ∧
    s.line .sclk = false ∧ s.line .csN = true ∧ s.line .mosi = false ∧ s.master.status = 0 ∧
    s.slave.role = .idle ∧ s.slave.phase = .wHigh ∧ s.slave.byte = 0 ∧ s.slave.bit = 0 ∧
    s.slave.acc = 0 ∧ s.slave.tmr = 0 ∧ s.slave.csPrev = false ∧ s.slave.txLen = 0 ∧ s.slave.rxLen = 0 ∧
    s.slave.res = .none ∧ s.line .miso = false ∧ s.slave.status = 0 ∧
    (∀ (b : Buffer) (i : Nat), s.readByte b i = none) ∧
    (∀ len wdata, exec (.mRead len wdata) s = .next (s.answerM .notReady)) ∧
    (∀ len wdata, exec (.sRead len wdata) s = .next (s.answerS .notReady)) ∧
    (∀ len wdata, exec (.mStart len wdata) s =
      .next { s with master := { s.master with res := .ready, rxLen := 0 }, mRsp := Rsp.plain p.capM .ok })

/-- The invariant holds right after reset, for every legal parameter set and every wiring. -/
def Obligations.ResetMeetsInvariant : Prop :=
  (∀ (p : Params) (w : Wiring), p.Legal → (State.resetWith p w).Inv) ∧ State.reset.Inv

/-- A cycle with `rst = 1` performs no host operation and no sequencer step, whatever command is presented and whatever
the other block does in the same tick: every element of that block takes its reset value, no buffer byte keeps a value, the
response reads zero; a block reset in a tick of its own leaves the other block's state untouched (R230). That the response
pins of that other block, whose clock has no edge in the step, hold is the model's choice (log 7, DEDUCED), no rule of the
spec; `epoch` is the model's own counter of resets (log 9). -/
def Obligations.ResetPin : Prop :=
  ∀ (s : State) (a : MPins) (b : SPins) (ts : List Tick),
    (∀ u, step s = .next u → s.nextTick.m = some a → a.rst = true →
      u.master = Master.afterReset (s.master.epoch + 1) ∧
      u.mRsp = { res := .ok, rlen := 0, rdata := List.replicate s.params.capM 0 } ∧
      (∀ i, u.readByte .mTx i = none ∧ u.readByte .mRx i = none)) ∧
    (∀ u, step s = .next u → s.nextTick.s = some b → b.rst = true →
      u.slave = Slave.afterReset (s.slave.epoch + 1) ∧
      u.sRsp = { res := .ok, rlen := 0, rdata := List.replicate s.params.capS 0 } ∧
      (∀ i, u.readByte .sTx i = none ∧ u.readByte .sRx i = none)) ∧
    (s.inputs = { m := some a, s := none } :: ts → a.rst = true →
      ∃ u, step s = .next u ∧ u.slave = s.slave ∧ u.sRsp = s.sRsp ∧ u.inputs = ts) ∧
    (s.inputs = { m := none, s := some b } :: ts → b.rst = true →
      ∃ u, step s = .next u ∧ u.master = s.master ∧ u.mRsp = s.mRsp ∧ u.inputs = ts)

/-! ## A step runs the decoded instructions -/

/-- A tick of SPIBB-M alone, not reset: `miso` is read as the line stands, the command on the port is decoded and run
by `exec`, and one sequencer step follows; with no command only the sequencer step changes anything and the response
reads zero; a number that is no command word is refused by name, the model's choice (log 11) (R13, R80, R110). `miso` reads
as SPIBB-S's output in a pair, as the master's own `mosi` in loopback, and as the environment offers it otherwise (R74). -/
def Obligations.MasterStepRunsDecodedCommand : Prop :=
  ∀ (s : State) (a : MPins) (ts : List Tick), s.inputs = { m := some a, s := none } :: ts → a.rst = false →
    let s' := { s with inputs := ts, ticks := s.ticks + 1, mPins := { a with miso := s.misoRead a.miso } }
    (a.hValid = true → ∀ i, decode s.params .mHost a.hcmd = .ok i → step s = andThen (exec i s') seqM) ∧
    (a.hValid = true → ∀ e, decode s.params .mHost a.hcmd = .error e → step s = .refused (.undecodable e)) ∧
    (a.hValid = false → step s =
      seqM { s' with mRsp := { res := .ok, rlen := 0, rdata := List.replicate s.params.capM 0 } }) ∧
    (s.wiring.miso = .slave → s'.mPins.miso = s.slave.miso) ∧
    (s.wiring.miso = .mosi → s'.mPins.miso = s.master.mosi) ∧
    (s.wiring.miso = .env → s'.mPins = a)

/-- A tick of SPIBB-S alone, not reset: as `MasterStepRunsDecodedCommand`, with its three line inputs (R13, R80,
R110). -/
def Obligations.SlaveStepRunsDecodedCommand : Prop :=
  ∀ (s : State) (b : SPins) (ts : List Tick), s.inputs = { m := none, s := some b } :: ts → b.rst = false →
    let s' := { s with inputs := ts, ticks := s.ticks + 1, sPins := s.readSPins b }
    (b.hValid = true → ∀ i, decode s.params .sHost b.hcmd = .ok i → step s = andThen (exec i s') seqS) ∧
    (b.hValid = true → ∀ e, decode s.params .sHost b.hcmd = .error e → step s = .refused (.undecodable e)) ∧
    (b.hValid = false → step s =
      seqS { s' with sRsp := { res := .ok, rlen := 0, rdata := List.replicate s.params.capS 0 } }) ∧
    (s.wiring.slave = .master → s'.sPins.sclk = s.master.sclk ∧ s'.sPins.csN = s.master.csN ∧
      s'.sPins.mosi = s.master.mosi) ∧
    (s.wiring.slave = .env → s'.sPins = b)

/-- The sequencers' steps. Master: idle, a dwell cycle, or `exec` of the action the phase register's number decodes to.
Slave: when idle the edge detector, which starts a session on a falling chip-select and else only records the level, and
when active `exec` of the wait the phase register's number decodes to (R140, R141, R170, R171, R179; what a sequencer row
stands for is log 17). -/
def Obligations.SequencerStepsRunDecodedActions : Prop :=
  ∀ s : State,
    (s.master.role = .idle → seqM s = .next s) ∧
    (s.master.role = .active → s.master.dly ≠ 0 →
      seqM s = .next { s with master := { s.master with dly := s.master.dly - 1 } }) ∧
    (s.master.role = .active → s.master.dly = 0 →
      ∀ i, decode s.params .mSeq s.master.phase.code = .ok i → seqM s = exec i s) ∧
    (∃ i, decode s.params .mSeq s.master.phase.code = .ok i) ∧
    (s.slave.role = .idle → s.slave.csPrev = true → s.sPins.csN = false →
      seqS s = .next { s with slave := { s.slave with
        role := .active, phase := .wHigh, byte := 0, bit := 0, acc := 0, tmr := 0, res := .none
        miso := s.slave.respBit 0 7, csPrev := false } }) ∧
    (s.slave.role = .idle → s.slave.csPrev = false ∨ s.sPins.csN = true →
      seqS s = .next { s with slave := { s.slave with csPrev := s.sPins.csN } }) ∧
    (s.slave.role = .active →
      ∀ i, decode s.params .sSeq s.slave.phase.code = .ok i → seqS s = exec i s) ∧
    (∃ i, decode s.params .sSeq s.slave.phase.code = .ok i)

/-- A lockstep tick: both blocks read the line levels left by the previous cycle, and each runs its cycle; the lines
they write show together afterwards (R241 L, R70). -/
def Obligations.LockstepReadsThePreviousLevels : Prop :=
  ∀ (s : State) (a : MPins) (b : SPins) (ts : List Tick),
    s.inputs = { m := some a, s := some b } :: ts → s.wiring = Wiring.pair →
    let s' := { s with inputs := ts, ticks := s.ticks + 1
                       mPins := { a with miso := s.slave.miso }
                       sPins := { b with sclk := s.master.sclk, csN := s.master.csN, mosi := s.master.mosi } }
    step s = andThen (cycleM s') cycleS

/-- The two blocks share no state and are coupled only by the lines, which each reads before either writes: a master
cycle and a slave cycle in one tick give the same state in either order, each block as if it had run alone (R2, R217,
R241). -/
def Obligations.BlocksShareOnlyTheLines : Prop :=
  ∀ (s a b : State), cycleM s = .next a → cycleS s = .next b →
    a = { s with master := a.master, mRsp := a.mRsp } ∧
    b = { s with slave := b.slave, sRsp := b.sRsp } ∧
    andThen (cycleM s) cycleS = .next { s with master := a.master, mRsp := a.mRsp, slave := b.slave, sRsp := b.sRsp } ∧
    andThen (cycleS s) cycleM = .next { s with master := a.master, mRsp := a.mRsp, slave := b.slave, sRsp := b.sRsp }

/-! ## Host operations -/

/-- NOP on either block answers OK and changes nothing, in every state, whatever `h_len` and `h_wdata` carry; every word
with `h_op = 000` is NOP (R111, R116). -/
def Obligations.NopAnswersOk : Prop :=
  ∀ (s : State) (len : Nat) (wdata : List Byte),
    exec (.mNop len wdata) s =
      .next { s with mRsp := { res := .ok, rlen := 0, rdata := List.replicate s.params.capM 0 } } ∧
    exec (.sNop len wdata) s =
      .next { s with sRsp := { res := .ok, rlen := 0, rdata := List.replicate s.params.capS 0 } } ∧
    (∀ w, w / 2 ^ (8 * s.params.capM + lenBits s.params.capM) = 0 →
      runDecoded (decode s.params .mHost w) s = .next (s.answerM .ok)) ∧
    (∀ w, w / 2 ^ (8 * s.params.capS + lenBits s.params.capS) = 0 →
      runDecoded (decode s.params .sHost w) s = .next (s.answerS .ok))

/-- A reserved opcode answers BAD_OP and changes no state, in any state of the block: `h_op = 100..111` on SPIBB-M,
`h_op = 010, 100..111` on SPIBB-S (R115, R119, R204). -/
def Obligations.ReservedOpcodesAnswerBadOp : Prop :=
  ∀ (s : State) (op : BitVec 2) (len : Nat) (wdata : List Byte),
    exec (.mReserved op len wdata) s =
      .next { s with mRsp := { res := .badOp, rlen := 0, rdata := List.replicate s.params.capM 0 } } ∧
    exec (.sReserved op len wdata) s =
      .next { s with sRsp := { res := .badOp, rlen := 0, rdata := List.replicate s.params.capS 0 } } ∧
    exec (.sStart len wdata) s =
      .next { s with sRsp := { res := .badOp, rlen := 0, rdata := List.replicate s.params.capS 0 } } ∧
    (∀ w, w < 2 ^ hcmdWidth s.params.capM → 4 ≤ w / 2 ^ (8 * s.params.capM + lenBits s.params.capM) →
      runDecoded (decode s.params .mHost w) s = .next (s.answerM .badOp)) ∧
    (∀ w, w < 2 ^ hcmdWidth s.params.capS →
      (w / 2 ^ (8 * s.params.capS + lenBits s.params.capS) = 2 ∨
        4 ≤ w / 2 ^ (8 * s.params.capS + lenBits s.params.capS)) →
      runDecoded (decode s.params .sHost w) s = .next (s.answerS .badOp))

/-- LOAD (R112, R117). On an idle block with `h_len <= CAP`: `TX[0..h_len-1]` take the bytes of `h_wdata`, `tx_len`
becomes `h_len`, the bytes from `h_len` on and everything else stay as they were, the answer is OK. Refused, it changes
nothing: BUSY on an active block, tested first; BAD_LEN when `h_len > CAP`. -/
def Obligations.LoadWritesTx : Prop :=
  ∀ (s : State) (len : Nat) (wdata : List Byte),
    (s.master.role = .idle → len ≤ s.params.capM →
      ∃ t, exec (.mLoad len wdata) s = .next t ∧
        (∀ i v, i < len → wdata[i]? = some v → t.readByte .mTx i = some v) ∧
        (∀ i, len ≤ i → t.readByte .mTx i = s.readByte .mTx i) ∧
        t = { s with master := { s.master with tx := t.master.tx, txLen := len }
                     mRsp := { res := .ok, rlen := 0, rdata := List.replicate s.params.capM 0 } }) ∧
    (s.master.role = .idle → s.params.capM < len → exec (.mLoad len wdata) s =
      .next { s with mRsp := { res := .badLen, rlen := 0, rdata := List.replicate s.params.capM 0 } }) ∧
    (s.master.role = .active → exec (.mLoad len wdata) s =
      .next { s with mRsp := { res := .busy, rlen := 0, rdata := List.replicate s.params.capM 0 } }) ∧
    (s.slave.role = .idle → len ≤ s.params.capS →
      ∃ t, exec (.sLoad len wdata) s = .next t ∧
        (∀ i v, i < len → wdata[i]? = some v → t.readByte .sTx i = some v) ∧
        (∀ i, len ≤ i → t.readByte .sTx i = s.readByte .sTx i) ∧
        t = { s with slave := { s.slave with tx := t.slave.tx, txLen := len }
                     sRsp := { res := .ok, rlen := 0, rdata := List.replicate s.params.capS 0 } }) ∧
    (s.slave.role = .idle → s.params.capS < len → exec (.sLoad len wdata) s =
      .next { s with sRsp := { res := .badLen, rlen := 0, rdata := List.replicate s.params.capS 0 } }) ∧
    (s.slave.role = .active → exec (.sLoad len wdata) s =
      .next { s with sRsp := { res := .busy, rlen := 0, rdata := List.replicate s.params.capS 0 } })

/-- The refusals of LOAD and START change nothing. BUSY: LOAD and START while the block is ACTIVE, LOAD whatever its
`h_len`; no READ and no NOP answers BUSY. BAD_LEN: LOAD on an idle block with `h_len > CAP` (R202, R203). -/
def Obligations.BusyAndBadLenRefusals : Prop :=
  ∀ (s : State) (len : Nat) (wdata : List Byte),
    (s.master.role = .active →
      exec (.mLoad len wdata) s =
        .next { s with mRsp := { res := .busy, rlen := 0, rdata := List.replicate s.params.capM 0 } } ∧
      exec (.mStart len wdata) s =
        .next { s with mRsp := { res := .busy, rlen := 0, rdata := List.replicate s.params.capM 0 } }) ∧
    (s.slave.role = .active → exec (.sLoad len wdata) s =
        .next { s with sRsp := { res := .busy, rlen := 0, rdata := List.replicate s.params.capS 0 } }) ∧
    (∀ t, exec (.mRead len wdata) s = .next t ∨ exec (.mNop len wdata) s = .next t → t.mRsp.res ≠ .busy) ∧
    (∀ t, exec (.sRead len wdata) s = .next t ∨ exec (.sNop len wdata) s = .next t → t.sRsp.res ≠ .busy) ∧
    (s.master.role = .idle → s.params.capM < len →
      exec (.mLoad len wdata) s =
        .next { s with mRsp := { res := .badLen, rlen := 0, rdata := List.replicate s.params.capM 0 } }) ∧
    (s.slave.role = .idle → s.params.capS < len →
      exec (.sLoad len wdata) s =
        .next { s with sRsp := { res := .badLen, rlen := 0, rdata := List.replicate s.params.capS 0 } })

/-- START on an idle master: with something to send it sets ACTIVE, `P_ASSERT`, byte 0, no dwell, and drops a pending
result; with `tx_len = 0` it sets READY with `rx_len = 0`; OK in both cases (R113). -/
def Obligations.StartBeginsTransfer : Prop :=
  ∀ (s : State) (len : Nat) (wdata : List Byte), s.master.role = .idle →
    (0 < s.master.txLen → exec (.mStart len wdata) s =
      .next { s with
        master := { s.master with role := .active, phase := .pAssert, byte := 0, dly := 0, res := .none }
        mRsp := { res := .ok, rlen := 0, rdata := List.replicate s.params.capM 0 } }) ∧
    (s.master.txLen = 0 → exec (.mStart len wdata) s =
      .next { s with
        master := { s.master with res := .ready, rxLen := 0 }
        mRsp := { res := .ok, rlen := 0, rdata := List.replicate s.params.capM 0 } })

/-- A zero-length transfer performs no sequencer action at all: the cycle of a START with `tx_len = 0`, whatever the
other block does in the same tick, leaves the block idle, its lines and both buffers as they were, `res = READY` with
`rx_len = 0`; SPIBB-M alone, the step answers a next state (R154). -/
def Obligations.ZeroLengthTransferDrivesNothing : Prop :=
  ∀ (s : State) (a : MPins) (len : Nat) (wdata : List Byte),
    s.nextTick.m = some a → a.rst = false → a.hValid = true →
    decode s.params .mHost a.hcmd = .ok (.mStart len wdata) → s.master.role = .idle → s.master.txLen = 0 →
    (∀ u, step s = .next u → u.master = { s.master with res := .ready, rxLen := 0 } ∧
      u.mRsp = { res := .ok, rlen := 0, rdata := List.replicate s.params.capM 0 }) ∧
    (s.nextTick.s = none → ∃ u, step s = .next u ∧ u.slave = s.slave)

/-- M.READ: a pending result is delivered with OK, its `rx_len` bytes and 0x00 above them, and `res` becomes NONE;
otherwise NOT_READY with no bytes and nothing changed (R114, R82). -/
def Obligations.MasterReadDelivers : Prop :=
  ∀ (s : State) (len : Nat) (wdata : List Byte),
    (s.master.res = .ready → ∃ t, exec (.mRead len wdata) s = .next t ∧
      t.mRsp.res = .ok ∧ t.mRsp.rlen = s.master.rxLen ∧ t.mRsp.rdata.length = s.params.capM ∧
      (∀ i v, i < s.params.capM → i < s.master.rxLen → s.readByte .mRx i = some v → t.mRsp.rdata[i]? = some v) ∧
      (∀ i, i < s.params.capM → s.master.rxLen ≤ i → t.mRsp.rdata[i]? = some 0) ∧
      t = { s with master := { s.master with res := .none }, mRsp := t.mRsp }) ∧
    (s.master.res = .none → exec (.mRead len wdata) s =
      .next { s with mRsp := { res := .notReady, rlen := 0, rdata := List.replicate s.params.capM 0 } })

/-- S.READ: a completed session is delivered with OK, an abandoned one with INCOMPLETE, both with their `rx_len` bytes,
and `res` becomes NONE; otherwise NOT_READY and nothing changed (R118, R213). -/
def Obligations.SlaveReadDelivers : Prop :=
  ∀ (s : State) (len : Nat) (wdata : List Byte),
    (s.slave.res ≠ .none → ∃ t, exec (.sRead len wdata) s = .next t ∧
      t.sRsp.res = (if s.slave.res = .ready then .ok else .incomplete) ∧
      t.sRsp.rlen = s.slave.rxLen ∧ t.sRsp.rdata.length = s.params.capS ∧
      (∀ i v, i < s.params.capS → i < s.slave.rxLen → s.readByte .sRx i = some v → t.sRsp.rdata[i]? = some v) ∧
      (∀ i, i < s.params.capS → s.slave.rxLen ≤ i → t.sRsp.rdata[i]? = some 0) ∧
      t = { s with slave := { s.slave with res := .none }, sRsp := t.sRsp }) ∧
    (s.slave.res = .none → exec (.sRead len wdata) s =
      .next { s with sRsp := { res := .notReady, rlen := 0, rdata := List.replicate s.params.capS 0 } })

/-- Idempotence of read-when-not-ready: when `res = NONE`, any number of READs in a row each answer NOT_READY with zero
bytes and leave the block as it was (R120). -/
def Obligations.ReadWhenNotReadyIsIdempotent : Prop :=
  ∀ (n : Nat) (s : State) (len : Nat) (wdata : List Byte),
    (s.master.res = .none → (fun o => andThen o (exec (.mRead len wdata)))^[n + 1] (.next s) =
      .next { s with mRsp := { res := .notReady, rlen := 0, rdata := List.replicate s.params.capM 0 } }) ∧
    (s.slave.res = .none → (fun o => andThen o (exec (.sRead len wdata)))^[n + 1] (.next s) =
      .next { s with sRsp := { res := .notReady, rlen := 0, rdata := List.replicate s.params.capS 0 } })

/-- At-most-once delivery: a READ that delivers is followed by a READ that answers NOT_READY, and an accepted START
with something to send (master) or a session start (slave) discards a result not yet read (R121). -/
def Obligations.ResultDeliveredAtMostOnce : Prop :=
  ∀ (s t : State) (len : Nat) (wdata : List Byte),
    (exec (.mRead len wdata) s = .next t →
      t.master.res = .none ∧ exec (.mRead len wdata) t = .next (t.answerM .notReady)) ∧
    (exec (.sRead len wdata) s = .next t →
      t.slave.res = .none ∧ exec (.sRead len wdata) t = .next (t.answerS .notReady)) ∧
    (s.master.role = .idle → 0 < s.master.txLen → exec (.mStart len wdata) s = .next t →
      t.master.res = .none ∧ exec (.mRead len wdata) t = .next (t.answerM .notReady)) ∧
    (s.slave.role = .idle → seqS s = .next t → t.slave.role = .active →
      t.slave.res = .none ∧ exec (.sRead len wdata) t = .next (t.answerS .notReady))

/-- NOP, START, READ and the reserved opcodes ignore `h_len` and `h_wdata`: any value may be presented, with the same
effect on the state and the response (R84). -/
def Obligations.IgnoredFieldsHaveNoEffect : Prop :=
  ∀ (s : State) (op : BitVec 2) (l l' : Nat) (d d' : List Byte),
    exec (.mNop l d) s = exec (.mNop l' d') s ∧ exec (.mStart l d) s = exec (.mStart l' d') s ∧
    exec (.mRead l d) s = exec (.mRead l' d') s ∧ exec (.mReserved op l d) s = exec (.mReserved op l' d') s ∧
    exec (.sNop l d) s = exec (.sNop l' d') s ∧ exec (.sStart l d) s = exec (.sStart l' d') s ∧
    exec (.sRead l d) s = exec (.sRead l' d') s ∧ exec (.sReserved op l d) s = exec (.sReserved op l' d') s

/-- What no host operation of SPIBB-M changes: the slave and its ports, the lines, the accumulator, the bit position,
every byte of `RX`; every byte of `TX` outside the `h_len` bytes of a LOAD; and the sequencer's position, but for a
START (R60, R122). -/
def Obligations.MasterHostOperationFrame : Prop :=
  ∀ (i : Instr) (s t : State), i.port = .mHost → exec i s = .next t →
    t = { s with master := t.master, mRsp := t.mRsp } ∧
    t.master.sclk = s.master.sclk ∧ t.master.csN = s.master.csN ∧ t.master.mosi = s.master.mosi ∧
    t.master.acc = s.master.acc ∧ t.master.bit = s.master.bit ∧ t.master.epoch = s.master.epoch ∧
    (∀ a, t.readByte .mRx a = s.readByte .mRx a) ∧
    (∀ len wdata, i = .mLoad len wdata → ∀ a, len ≤ a → t.readByte .mTx a = s.readByte .mTx a) ∧
    ((∀ len wdata, i ≠ .mLoad len wdata) →
      t.master.txLen = s.master.txLen ∧ ∀ a, t.readByte .mTx a = s.readByte .mTx a) ∧
    ((∀ len wdata, i ≠ .mStart len wdata) →
      t.master.role = s.master.role ∧ t.master.phase = s.master.phase ∧ t.master.byte = s.master.byte ∧
      t.master.dly = s.master.dly ∧ t.master.rxLen = s.master.rxLen) ∧
    ((∀ len wdata, i ≠ .mStart len wdata ∧ i ≠ .mRead len wdata) → t.master.res = s.master.res)

/-- What no host operation of SPIBB-S changes: the master and its ports, the slave's sequencer and its line, every byte
of `RX`, `rx_len`; every byte of `TX` outside the `h_len` bytes of a LOAD (R60, R122). -/
def Obligations.SlaveHostOperationFrame : Prop :=
  ∀ (i : Instr) (s t : State), i.port = .sHost → exec i s = .next t →
    t = { s with slave := { s.slave with tx := t.slave.tx, txLen := t.slave.txLen, res := t.slave.res }
                 sRsp := t.sRsp } ∧
    (∀ a, t.readByte .sRx a = s.readByte .sRx a) ∧
    (∀ len wdata, i = .sLoad len wdata → ∀ a, len ≤ a → t.readByte .sTx a = s.readByte .sTx a) ∧
    ((∀ len wdata, i ≠ .sLoad len wdata) →
      t.slave.txLen = s.slave.txLen ∧ ∀ a, t.readByte .sTx a = s.readByte .sTx a) ∧
    ((∀ len wdata, i ≠ .sRead len wdata) → t.slave.res = s.slave.res)

/-! ## The master's actions -/

/-- `P_DRIVE` (R143): `mosi` takes bit `m_bit` of the byte `TX` holds at `m_byte`; of a byte nothing has written since
reset the level is free (log 8), and everything else happens; an index the buffer does not have is a fault (log 10). -/
def Obligations.DrivePutsTheBitOnMosi : Prop :=
  ∀ s : State,
    (s.master.byte < s.params.capM →
      (∀ v, s.readByte .mTx s.master.byte = some v → exec .mSeqPDrive s = .next { s with master := { s.master with
        mosi := v.getLsbD s.master.bit.val, phase := .pSample, dly := s.params.dDrive } }) ∧
      (∃ l : Level, exec .mSeqPDrive s = .next { s with master := { s.master with
        mosi := l, phase := .pSample, dly := s.params.dDrive } })) ∧
    (s.params.capM ≤ s.master.byte → exec .mSeqPDrive s = .fault .noSuchByte)

/-- `P_SAMPLE` (R144): the accumulator shifts in the level `miso` had at the start of the cycle. -/
def Obligations.SampleShiftsMisoIn : Prop :=
  ∀ s : State, ∃ acc : Byte,
    exec .mSeqPSample s = .next { s with master := { s.master with acc := acc, phase := .pHigh, dly := 0 } } ∧
    acc.getLsbD 0 = s.mPins.miso ∧ ∀ j, j < 7 → acc.getLsbD (j + 1) = s.master.acc.getLsbD j

/-- `P_HIGH` and `P_LOW` (R145, R146): one clock pulse; after bit 0 the byte is stored, else the next lower bit is
driven. -/
def Obligations.ClockPulse : Prop :=
  ∀ s : State,
    exec .mSeqPHigh s = .next { s with master := { s.master with
      sclk := true, phase := .pLow, dly := s.params.dHalf } } ∧
    (s.master.bit = 0 → exec .mSeqPLow s = .next { s with master := { s.master with
      sclk := false, phase := .pStore, dly := s.params.dHalf } }) ∧
    (∀ b : Fin 8, b.val + 1 = s.master.bit.val → exec .mSeqPLow s = .next { s with master := { s.master with
      sclk := false, bit := b, phase := .pDrive, dly := s.params.dHalf } })

/-- `P_STORE` (R147): `RX[m_byte]` takes the accumulator, every other byte stays; an index the buffer does not have is
a fault (log 10). -/
def Obligations.StoreWritesOneByte : Prop :=
  ∀ s : State,
    (s.master.byte < s.params.capM → ∃ t, exec .mSeqPStore s = .next t ∧
      t.readByte .mRx s.master.byte = some s.master.acc ∧
      (∀ i, i ≠ s.master.byte → t.readByte .mRx i = s.readByte .mRx i) ∧
      t = { s with master := { s.master with rx := t.master.rx, phase := .pDeassert, dly := 0 } }) ∧
    (s.params.capM ≤ s.master.byte → exec .mSeqPStore s = .fault .noSuchByte)

/-- `P_ASSERT` (R142) lowers chip-select and starts the byte at bit 7 with the accumulator cleared; `P_DEASSERT` (R148)
raises it, advances the byte index, and after the last byte selects `P_FINISH`. -/
def Obligations.ChipSelectBracketsTheByte : Prop :=
  ∀ s : State,
    exec .mSeqPAssert s = .next { s with master := { s.master with
      csN := false, bit := 7, acc := 0, phase := .pDrive, dly := s.params.dSettle } } ∧
    (s.master.byte + 1 = s.master.txLen → exec .mSeqPDeassert s = .next { s with master := { s.master with
      csN := true, byte := s.master.byte + 1, dly := s.params.dGap, phase := .pFinish } }) ∧
    (s.master.byte + 1 ≠ s.master.txLen → exec .mSeqPDeassert s = .next { s with master := { s.master with
      csN := true, byte := s.master.byte + 1, dly := s.params.dGap, phase := .pAssert } })

/-- `P_FINISH` (R149). -/
def Obligations.FinishFlagsReady : Prop :=
  ∀ s : State, exec .mSeqPFinish s = .next { s with master := { s.master with
    role := .idle, res := .ready, rxLen := s.master.txLen, phase := .pAssert } }

/-- What no master action changes: the slave, the ports, `TX`, `tx_len`; every byte of `RX` but the one `P_STORE`
writes; and at most one line (R60, R67, R147). -/
def Obligations.MasterActionFrame : Prop :=
  ∀ (i : Instr) (s t : State), i.port = .mSeq → exec i s = .next t →
    t = { s with master := t.master } ∧ t.master.tx = s.master.tx ∧ t.master.txLen = s.master.txLen ∧
    t.master.epoch = s.master.epoch ∧
    (∀ a, i ≠ .mSeqPStore ∨ a ≠ s.master.byte → t.readByte .mRx a = s.readByte .mRx a) ∧
    (i ≠ .mSeqPFinish → t.master.role = s.master.role ∧ t.master.res = s.master.res ∧
      t.master.rxLen = s.master.rxLen) ∧
    (i ≠ .mSeqPDeassert → t.master.byte = s.master.byte) ∧
    (i ≠ .mSeqPAssert ∧ i ≠ .mSeqPDeassert → t.master.csN = s.master.csN) ∧
    (i ≠ .mSeqPHigh ∧ i ≠ .mSeqPLow → t.master.sclk = s.master.sclk) ∧
    (i ≠ .mSeqPDrive → t.master.mosi = s.master.mosi)

/-! ## The slave's actions -/

/-- The step in IDLE: a falling edge of chip-select starts a session with byte and bit 0, the accumulator and the poll
counter cleared, any pending result dropped and response bit 7 of byte 0 on `miso`; anything else only records the
level (R171, R179, R184). -/
def Obligations.FallingChipSelectStartsSession : Prop :=
  ∀ s : State, s.slave.role = .idle →
    (s.slave.csPrev = true → s.sPins.csN = false → seqS s = .next { s with slave := { s.slave with
      role := .active, phase := .wHigh, byte := 0, bit := 0, acc := 0, tmr := 0, res := .none
      miso := s.slave.respBit 0 7, csPrev := false } }) ∧
    (s.slave.csPrev = false ∨ s.sPins.csN = true →
      seqS s = .next { s with slave := { s.slave with csPrev := s.sPins.csN } })

/-- The response bit: bit `b` of the byte the response buffer holds at `i` when `i < tx_len`, else 0; never a function
of the received data (R180). -/
def Obligations.ResponseBit : Prop :=
  ∀ (s : State) (i b : Nat),
    (∀ v, i < s.slave.txLen → s.readByte .sTx i = some v → s.slave.respBit i b = v.getLsbD b) ∧
    (s.slave.txLen ≤ i → s.slave.respBit i b = false) ∧
    (∀ (acc : Byte) (rx : Memory), ({ s.slave with acc := acc, rx := rx }).respBit i b = s.slave.respBit i b)

/-- The order of the tests in an ACTIVE step: chip-select HIGH ends the session READY in either wait, whatever the clock
shows and however long the wait has lasted; with chip-select LOW an awaited level that is seen is acted on and clears
the poll counter, even on the last allowed poll; only a poll that sees neither counts against the deadline (R172). -/
def Obligations.ChipSelectThenClockThenDeadline : Prop :=
  ∀ s : State,
    (s.sPins.csN = true → ∀ i, i = .sSeqWHigh ∨ i = .sSeqWLow → exec i s = .next { s with slave := { s.slave with
      role := .idle, res := .ready, rxLen := s.slave.byte, miso := false, csPrev := true } }) ∧
    (s.sPins.csN = false → s.sPins.sclk = true → ∃ t, exec .sSeqWHigh s = .next t ∧
      t.slave.role = s.slave.role ∧ t.slave.res = s.slave.res ∧ t.slave.phase = .wLow ∧ t.slave.tmr = 0) ∧
    (s.sPins.csN = false → s.sPins.sclk = false → s.slave.byte < s.params.capS → ∃ t, exec .sSeqWLow s = .next t ∧
      (s.slave.bit.val < 7 ∨ s.slave.byte + 1 < s.params.capS →
        t.slave.role = s.slave.role ∧ t.slave.res = s.slave.res ∧ t.slave.phase = .wHigh ∧ t.slave.tmr = 0) ∧
      (s.slave.bit = 7 → s.slave.byte + 1 = s.params.capS → t.slave.role = .idle ∧ t.slave.res = .ready)) ∧
    (∀ i t, i = .sSeqWHigh ∨ i = .sSeqWLow → exec i s = .next t →
      (t.slave.res = .incomplete ∧ s.slave.res ≠ .incomplete) ∨ t.slave.tmr = s.slave.tmr + 1 →
      s.sPins.csN = false ∧ s.sPins.sclk = decide (i = .sSeqWLow))

/-- `sample` (R174): the accumulator shifts `mosi` in, the slave waits for the clock to fall, and `miso` is not
touched. -/
def Obligations.RisingClockSamplesMosi : Prop :=
  ∀ s : State, s.sPins.csN = false → s.sPins.sclk = true → ∃ acc : Byte,
    exec .sSeqWHigh s = .next { s with slave := { s.slave with
      acc := acc, phase := .wLow, tmr := 0, csPrev := false } } ∧
    acc.getLsbD 0 = s.sPins.mosi ∧ ∀ j, j < 7 → acc.getLsbD (j + 1) = s.slave.acc.getLsbD j

/-- `bit_done` (R175, R176, R177): within a byte the next response bit is driven; the eighth falling edge commits the
byte to `RX[s_byte]` and drives the first bit of the next response byte, or, when the buffer is full, ends the session
READY with `rx_len = CAP`; an index the buffer does not have is a fault (log 10). -/
def Obligations.FallingClockEndsBitPeriod : Prop :=
  ∀ s : State, s.sPins.csN = false → s.sPins.sclk = false →
    (∀ b : Fin 8, b.val = s.slave.bit.val + 1 → exec .sSeqWLow s = .next { s with slave := { s.slave with
      bit := b, miso := s.slave.respBit s.slave.byte (7 - b.val), phase := .wHigh, tmr := 0, csPrev := false } }) ∧
    (s.slave.bit = 7 → s.slave.byte + 1 < s.params.capS → ∃ t, exec .sSeqWLow s = .next t ∧
      t.readByte .sRx s.slave.byte = some s.slave.acc ∧
      (∀ i, i ≠ s.slave.byte → t.readByte .sRx i = s.readByte .sRx i) ∧
      t = { s with slave := { s.slave with
        rx := t.slave.rx, byte := s.slave.byte + 1, bit := 0, miso := s.slave.respBit (s.slave.byte + 1) 7
        phase := .wHigh, tmr := 0, csPrev := false } }) ∧
    (s.slave.bit = 7 → s.slave.byte + 1 = s.params.capS → ∃ t, exec .sSeqWLow s = .next t ∧
      t.readByte .sRx s.slave.byte = some s.slave.acc ∧
      (∀ i, i ≠ s.slave.byte → t.readByte .sRx i = s.readByte .sRx i) ∧
      t = { s with slave := { s.slave with
        rx := t.slave.rx, byte := s.slave.byte + 1, bit := 0, role := .idle, res := .ready
        rxLen := s.params.capS, miso := false, csPrev := false } }) ∧
    (s.slave.bit = 7 → s.params.capS ≤ s.slave.byte → exec .sSeqWLow s = .fault .noSuchByte)

/-- `poll_miss` and the deadline (R178, R212): a poll that sees neither chip-select HIGH nor the awaited level counts,
and the `TIMEOUT`-th ends the session INCOMPLETE with the whole bytes committed so far. -/
def Obligations.MissedPollsMeetTheDeadline : Prop :=
  ∀ (s : State) (i : Instr), s.sPins.csN = false →
    (i = .sSeqWHigh ∧ s.sPins.sclk = false ∨ i = .sSeqWLow ∧ s.sPins.sclk = true) →
    (s.slave.tmr + 1 = s.params.timeout → exec i s = .next { s with slave := { s.slave with
      role := .idle, res := .incomplete, rxLen := s.slave.byte, miso := false, csPrev := false } }) ∧
    (s.slave.tmr + 1 ≠ s.params.timeout → exec i s = .next { s with slave := { s.slave with
      tmr := s.slave.tmr + 1, csPrev := false } })

/-- What no slave sequencer step changes: the master, the ports, `TX`, `tx_len`, and every byte of `RX` but the one a
commit writes; `cs_prev` takes the level read, in every state (R60, R176, R179). -/
def Obligations.SlaveActionFrame : Prop :=
  ∀ s t : State, seqS s = .next t →
    t = { s with slave := t.slave } ∧ t.slave.tx = s.slave.tx ∧ t.slave.txLen = s.slave.txLen ∧
    t.slave.epoch = s.slave.epoch ∧ t.slave.csPrev = s.sPins.csN ∧
    (∀ a, t.readByte .sRx a = s.readByte .sRx a ∨
      (a = s.slave.byte ∧ s.slave.role = .active ∧ s.slave.phase = .wLow ∧ s.slave.bit = 7 ∧
        s.sPins.csN = false ∧ s.sPins.sclk = false ∧ t.readByte .sRx a = some s.slave.acc))

/-! ## The whole machine -/

/-- Every step keeps the invariant: the reachable-state facts of R50, the canonical form of the four buffers, the line
levels of every phase (R89), and `miso` carrying the present response bit (R42). -/
def Obligations.StepKeepsInvariant : Prop :=
  ∀ s u : State, s.Inv → step s = .next u → u.Inv ∧ u.params = s.params ∧ u.wiring = s.wiring

/-- From every state of the invariant whose listed commands fit their ports, a step answers a next state, again of that
kind: no fault and no refusal is ever met (92_eei_decisions.md section 5: exactly one next state). -/
def Obligations.StepAlwaysAnswersNext : Prop :=
  ∀ s : State, s.Inv → s.inputsFit → ∃ u, step s = .next u ∧ u.Inv ∧ u.inputsFit

/-- SPIBB-M leaves IDLE only by an accepted START with `tx_len > 0`, and leaves ACTIVE only by `P_FINISH` or reset; an
idle sequencer changes nothing and its lines are `sclk = 0`, `cs_n = 1` (R141, R150). -/
def Obligations.MasterRoleChanges : Prop :=
  ∀ s u : State, step s = .next u →
    (s.master.role = .idle → u.master.role = .active →
      0 < s.master.txLen ∧ ∃ a, s.nextTick.m = some a ∧ a.rst = false ∧ a.hValid = true ∧
        ∃ len wdata, decode s.params .mHost a.hcmd = .ok (.mStart len wdata)) ∧
    (s.master.role = .active → u.master.role = .idle →
      ∃ a, s.nextTick.m = some a ∧ (a.rst = true ∨ (s.master.dly = 0 ∧ s.master.phase = .pFinish))) ∧
    (s.master.role = .idle → seqM s = .next s) ∧
    (s.Inv → s.master.role = .idle → s.line .sclk = false ∧ s.line .csN = true)

/-- A slave session starts only when an idle slave sees chip-select LOW after HIGH, and ends only by reset, by
chip-select HIGH, by the buffer filling, or by the deadline (R173, R177, R178, R184, R209). -/
def Obligations.SlaveRoleChanges : Prop :=
  ∀ s u : State, step s = .next u →
    (s.slave.role = .idle → u.slave.role = .active →
      ∃ b, s.nextTick.s = some b ∧ b.rst = false ∧ s.slave.csPrev = true ∧ (s.readSPins b).csN = false) ∧
    (s.slave.role = .active → u.slave.role = .idle →
      ∃ b, s.nextTick.s = some b ∧
        (b.rst = true ∨ (s.readSPins b).csN = true ∨
          (s.slave.phase = .wLow ∧ (s.readSPins b).sclk = false ∧ s.slave.bit = 7 ∧
            s.slave.byte + 1 = s.params.capS ∧ u.slave.res = .ready) ∨
          (s.slave.tmr + 1 = s.params.timeout ∧ u.slave.res = .incomplete ∧
            (s.readSPins b).sclk = decide (s.slave.phase = .wLow))))

/-- `TX` is immutable during a transfer or a session: while a block is ACTIVE and not reset, no step changes its `TX` or
`tx_len` (R27, R73, R202). -/
def Obligations.TxImmutableWhileActive : Prop :=
  ∀ s u : State, step s = .next u →
    (s.master.role = .active → (∀ a, s.nextTick.m = some a → a.rst = false) →
      u.master.tx = s.master.tx ∧ u.master.txLen = s.master.txLen) ∧
    (s.slave.role = .active → (∀ b, s.nextTick.s = some b → b.rst = false) →
      u.slave.tx = s.slave.tx ∧ u.slave.txLen = s.slave.txLen)

/-- The byte boundary: no step that is not a reset changes a byte of `RX`, except `P_STORE` (master, index `m_byte`)
and the commit after the eighth falling edge (slave, index `s_byte`), in a cycle that reads chip-select LOW and the clock
LOW, each with the whole accumulator (R46, R173, R176). -/
def Obligations.RxChangesOnlyAtByteBoundary : Prop :=
  ∀ s u : State, step s = .next u → ∀ i : Nat,
    ((∀ a, s.nextTick.m = some a → a.rst = false) → u.readByte .mRx i ≠ s.readByte .mRx i →
      s.master.role = .active ∧ s.master.dly = 0 ∧ s.master.phase = .pStore ∧ i = s.master.byte ∧
      u.readByte .mRx i = some s.master.acc) ∧
    ((∀ b, s.nextTick.s = some b → b.rst = false) → u.readByte .sRx i ≠ s.readByte .sRx i →
      s.slave.role = .active ∧ s.slave.phase = .wLow ∧ s.slave.bit = 7 ∧ i = s.slave.byte ∧
      u.readByte .sRx i = some s.slave.acc ∧
      ∃ b, s.nextTick.s = some b ∧ (s.readSPins b).csN = false ∧ (s.readSPins b).sclk = false)

/-- The edge convention at both ends: without a reset, a step changes at most one of the master's lines, `mosi` changes
only while chip-select and the clock are LOW, and the clock only while chip-select is LOW; `miso` does not change in
the step that samples `mosi` (R67, R89, R240). -/
def Obligations.EdgeConvention : Prop :=
  ∀ s u : State, s.Inv → step s = .next u →
    ((∀ a, s.nextTick.m = some a → a.rst = false) →
      (u.line .mosi ≠ s.line .mosi → s.line .sclk = false ∧ u.line .sclk = false ∧
        s.line .csN = false ∧ u.line .csN = false) ∧
      (u.line .sclk ≠ s.line .sclk → u.line .mosi = s.line .mosi ∧ s.line .csN = false ∧ u.line .csN = false) ∧
      (u.line .csN ≠ s.line .csN → s.line .sclk = false ∧ u.line .sclk = false ∧ u.line .mosi = s.line .mosi)) ∧
    (∀ b, s.nextTick.s = some b → b.rst = false → s.slave.role = .active → s.slave.phase = .wHigh →
      (s.readSPins b).csN = false → (s.readSPins b).sclk = true → u.line .miso = s.line .miso)

/-! ## Length of a transfer and of a wait -/

/-- Every cycle of an active master that is not reset brings it exactly one cycle nearer to the end of `P_FINISH`,
whatever `miso` does and whatever its host asks; a START accepted with `N = tx_len >= 1` leaves `N * T_BYTE` cycles
(R150, R243). -/
def Obligations.EveryMasterCycleCountsDown : Prop :=
  ∀ s u : State, s.Inv → s.nextTick.runsM → step s = .next u →
    (s.master.role = .active →
      u.master.cyclesToFinish s.params + 1 = s.master.cyclesToFinish s.params ∧
      (u.master.cyclesToFinish s.params = 0 ↔ u.master.role = .idle)) ∧
    (s.master.role = .idle → u.master.role = .active →
      u.master.cyclesToFinish s.params = s.master.txLen * s.params.tByte)

/-- Unconditional termination: from a START accepted with `N = tx_len >= 1`, if no reset comes, `P_FINISH` is performed
exactly `N * T_BYTE` cycles later, whatever `miso`, the slave and the two hosts do; until then the master is active,
and then it is idle with `res = READY` and `rx_len = N` (R150, R243). -/
def Obligations.TransferTakesExactlyNByteTimes : Prop :=
  ∀ (s : State) (len : Nat) (wdata : List Byte) (a : MPins), s.Inv → s.inputsFit →
    s.master.role = .idle → 1 ≤ s.master.txLen →
    s.nextTick.m = some a → a.hValid = true → decode s.params .mHost a.hcmd = .ok (.mStart len wdata) →
    s.master.txLen * s.params.tByte < s.inputs.length →
    (∀ t ∈ s.inputs.take (s.master.txLen * s.params.tByte + 1), t.runsM) →
    (∀ k, k < s.master.txLen * s.params.tByte →
      ∃ u, core.run (k + 1) s = .next u ∧ u.master.role = .active) ∧
    ∃ u, core.run (s.master.txLen * s.params.tByte + 1) s = .next u ∧
      u.master.role = .idle ∧ u.master.res = .ready ∧ u.master.rxLen = s.master.txLen

/-- The bounded poll: an active slave that sees chip-select LOW and never the awaited level ends its session INCOMPLETE
at the `TIMEOUT`-th consecutive poll of the wait and not before, with `rx_len` the whole bytes committed, whatever its
host asks meanwhile (R178, R205, R209). The lines stand still because the environment holds them, whatever the master
does, or because the master that drives them gets no clock edge (the source's hang scenario). -/
def Obligations.StuckClockEndsIncomplete : Prop :=
  ∀ s : State, s.Inv → s.slave.role = .active →
    s.params.timeout - s.slave.tmr ≤ s.inputs.length →
    (∀ t ∈ s.inputs.take (s.params.timeout - s.slave.tmr),
      t.fits s.params ∧ (s.wiring.slave = .env ∨ t.m = none) ∧
      ∃ b, t.s = some b ∧ b.rst = false ∧ (s.readSPins b).csN = false ∧
        (s.readSPins b).sclk = decide (s.slave.phase = .wLow)) →
    (∀ k, k < s.params.timeout - s.slave.tmr → ∃ u, core.run k s = .next u ∧ u.slave.role = .active) ∧
    ∃ u, core.run (s.params.timeout - s.slave.tmr) s = .next u ∧
      u.slave.role = .idle ∧ u.slave.res = .incomplete ∧ u.slave.rxLen = s.slave.byte ∧
      u.slave.rx = s.slave.rx ∧ u.slave.miso = false

/-! ## Received bytes -/

/-- The master contract (R157): if at every `P_SAMPLE` of byte `i`, bit `b`, the line `miso` carries bit `b` of `q i`,
then what the master has received is `q` so far, and it ends with `RX[i] = q i` for every `i < N`, `rx_len = N`, `res =
READY`; a transfer just started has received nothing. -/
def Obligations.MasterReceivesWhatMisoCarries : Prop :=
  ∀ (q : Nat → Byte) (s u : State), s.Inv → step s = .next u →
    (∀ a, s.nextTick.m = some a → a.rst = false) →
    (s.master.role = .idle → u.master.role = .active → u.master.Received q) ∧
    (s.master.role = .active → s.master.Received q →
      (∀ a, s.nextTick.m = some a → s.master.dly = 0 → s.master.phase = .pSample →
        s.misoRead a.miso = (q s.master.byte).getLsbD s.master.bit.val) →
      (u.master.role = .active → u.master.Received q) ∧
      (u.master.role = .idle → u.master.res = .ready ∧ u.master.rxLen = s.master.txLen ∧
        ∀ i, i < s.master.txLen → u.readByte .mRx i = some (q i)))

/-- Loopback (R156): with `miso` wired to `mosi`, what the master has received is its own `TX`, and the transfer ends
with `RX[i] = TX[i]` for every `i < N`. -/
def Obligations.LoopbackReturnsTx : Prop :=
  ∀ (s u : State), s.Inv → s.wiring.miso = .mosi → step s = .next u →
    (∀ a, s.nextTick.m = some a → a.rst = false) →
    s.master.role = .active → s.master.Received s.master.txByte →
    (u.master.role = .active → u.master.Received u.master.txByte) ∧
    (u.master.role = .idle → u.master.rxLen = s.master.txLen ∧
      ∀ i, i < u.master.rxLen → ∃ v, u.readByte .mRx i = some v ∧ u.readByte .mTx i = some v)

/-- The slave contract for one session (R186): if at every sample of byte `j`, bit count `k`, the line `mosi` carries
bit `7 - k` of `q j`, then what the slave has received is `q` so far, and however the session ends it leaves `RX[j] =
q j` for every `j < rx_len`; a session just started has received nothing. -/
def Obligations.SlaveReceivesWhatMosiCarries : Prop :=
  ∀ (q : Nat → Byte) (s u : State), s.Inv → step s = .next u →
    (∀ b, s.nextTick.s = some b → b.rst = false) →
    (s.slave.role = .idle → u.slave.role = .active → u.slave.Received q) ∧
    (s.slave.role = .active → s.slave.Received q →
      (∀ b, s.nextTick.s = some b → s.slave.phase = .wHigh → (s.readSPins b).csN = false →
        (s.readSPins b).sclk = true →
        (s.readSPins b).mosi = (q s.slave.byte).getLsbD (7 - s.slave.bit.val)) →
      (u.slave.role = .active → u.slave.Received q) ∧
      (u.slave.role = .idle → u.slave.res ≠ .none ∧ ∀ j, j < u.slave.rxLen → u.readByte .sRx j = some (q j)))

/-! ## A pair -/

/-- A pair in lockstep stays in step, for every legal parameter set whose deadline meets the bound: the slave follows
every phase of the master, misses exactly the polls of R236, never ends a session INCOMPLETE, and ends every session
READY with one byte (R187, R236, R241 L). -/
def Obligations.LockstepPairStaysInStep : Prop :=
  ∀ s u : State, s.Inv → s.params.deadlineBound → s.wiring = Wiring.pair → s.InStep → s.nextTick.lockstep →
    step s = .next u →
    u.InStep ∧ (s.slave.role = .active → u.slave.role = .idle → u.slave.res = .ready ∧ u.slave.rxLen = 1)

/-- In a pair that is in step, every `P_SAMPLE` finds on `miso` the response bit of its own position, and every sample
of the slave finds on `mosi` the bit of its own position of the byte being sent (R45, R157, R182, R187). -/
def Obligations.PairInStepExchangesTheSameBit : Prop :=
  ∀ s : State, s.Inv → s.InStep → s.master.role = .active →
    (s.master.phase = .pSample → s.master.dly = 0 →
      s.slave.role = .active ∧ s.slave.byte = 0 ∧ s.line .miso = s.slave.respBit 0 s.master.bit.val) ∧
    (s.slave.role = .active → s.slave.phase = .wHigh → s.line .csN = false → s.line .sclk = true →
      s.slave.byte = 0 ∧ ∃ v, s.readByte .mTx s.master.byte = some v ∧
        s.line .mosi = v.getLsbD (7 - s.slave.bit.val))

/-- A whole transfer of a pair in lockstep (R157, R187, the source's one-byte scenario for N = 1): from a START accepted
with `N = tx_len >= 1`, the slave's host asking nothing, the master ends `N * T_BYTE` cycles later with every `RX[i]`
the slave's response byte (0x00 if it has none), and the slave with one pending byte, the last one sent. -/
def Obligations.LockstepTransferExchangesBytes : Prop :=
  ∀ (s : State) (len : Nat) (wdata : List Byte) (a : MPins) (v : Byte), s.Inv → s.inputsFit →
    s.params.deadlineBound → s.wiring = Wiring.pair → s.InStep →
    s.master.role = .idle → 1 ≤ s.master.txLen → s.readByte .mTx (s.master.txLen - 1) = some v →
    s.nextTick.m = some a → a.hValid = true → decode s.params .mHost a.hcmd = .ok (.mStart len wdata) →
    s.master.txLen * s.params.tByte < s.inputs.length →
    (∀ t ∈ s.inputs.take (s.master.txLen * s.params.tByte + 1),
      t.lockstep ∧ ∀ b, t.s = some b → b.hValid = false) →
    ∃ u, core.run (s.master.txLen * s.params.tByte + 1) s = .next u ∧
      u.master.role = .idle ∧ u.master.res = .ready ∧ u.master.rxLen = s.master.txLen ∧
      (∀ i, i < s.master.txLen → ∃ r, u.readByte .mRx i = some r ∧
        ∀ b, b < 8 → r.getLsbD b = s.slave.respBit 0 b) ∧
      u.slave.role = .idle ∧ u.slave.res = .ready ∧ u.slave.rxLen = 1 ∧ u.readByte .sRx 0 = some v

/-- What quiescence of the slave means (R234): idle with chip-select recorded and no falling edge to act on, or waiting
for a level that is not there with the deadline not yet reached. -/
def Obligations.QuiescentSlave : Prop :=
  ∀ s : State,
    (s.slaveQuiescent ↔
      (s.slave.role = .idle ∧ s.slave.csPrev = (s.readSPins s.sPins).csN) ∨
      (s.slave.role = .active ∧ (s.readSPins s.sPins).csN = false ∧ s.slave.csPrev = false ∧
        (s.readSPins s.sPins).sclk = decide (s.slave.phase = .wLow) ∧
        s.slave.tmr + 1 ≠ s.params.timeout))

/-- A pair under any interleaving of cycles that respects `SlaveKeepsUp` and lets no wait exceed its deadline stays in
step: the slave is at the master's position or one line change behind, and every `P_SAMPLE` finds the response bit of
its own position (R234, R241 I). -/
def Obligations.InterleavedPairKeepsInStep : Prop :=
  ∀ s u : State, s.Inv → s.wiring = Wiring.pair → s.KeepsInStep → s.slaveKeepsUp →
    (∀ a, s.nextTick.m = some a → a.rst = false) → (∀ b, s.nextTick.s = some b → b.rst = false) →
    step s = .next u → (u.slave.res = .incomplete → s.slave.res = .incomplete) →
    u.KeepsInStep ∧
    (s.nextTick.runsM → s.master.role = .active → s.master.dly = 0 → s.master.phase = .pSample →
      s.slave.role = .active ∧ s.slave.byte = 0 ∧ s.line .miso = s.slave.respBit 0 s.master.bit.val)
end

