-- ==== Sys2Proof/Laws/Memory.lean ====
section
/-! SUPPORT. The laws of the buffers: a read after a write, and that every write keeps the canonical form and the
capacity. -/

namespace Sys2Proof.Machine

@[simp] theorem Memory.read?_nil (i : Nat) : Memory.read? [] i = none := rfl

theorem Memory.read?_cons (a : Nat) (b : Byte) (rest : Memory) (i : Nat) :
    Memory.read? ((a, b) :: rest) i = if i = a then some b else Memory.read? rest i := rfl

/-- A read after a write: the written byte at its index, the old byte everywhere else. -/
theorem Memory.read?_write (m : Memory) (i : Nat) (v : Byte) (j : Nat) :
    (m.write i v).read? j = if j = i then some v else m.read? j := by
  induction m with
  | nil => simp [Memory.write, Memory.read?]
  | cons c rest ih =>
    obtain ⟨a, b⟩ := c
    simp only [Memory.write]
    split
    · simp only [Memory.read?_cons]
    · split
      · subst i; simp only [Memory.read?_cons]; split <;> rfl
      · simp only [Memory.read?_cons, ih]
        by_cases hj : j = a
        · subst hj
          have : ¬ j = i := fun h => by omega
          simp [this]
        · simp [hj]

@[simp] theorem Memory.read?_write_same (m : Memory) (i : Nat) (v : Byte) : (m.write i v).read? i = some v := by
  simp [Memory.read?_write]

theorem Memory.read?_write_other (m : Memory) (i : Nat) (v : Byte) (j : Nat) (h : j ≠ i) :
    (m.write i v).read? j = m.read? j := by simp [Memory.read?_write, h]

/-- A write never unwrites an index. -/
theorem Memory.isSome_write (m : Memory) (i : Nat) (v : Byte) (j : Nat) (h : (m.read? j).isSome = true) :
    ((m.write i v).read? j).isSome = true := by
  rw [Memory.read?_write]; split <;> simp [h]

/-- Every index of `m` is at least `n`. -/
def Memory.startsAt (n : Nat) : Memory → Prop
  | [] => True
  | (a, _) :: _ => n ≤ a

theorem Memory.wf_cons (a : Nat) (b : Byte) (rest : Memory) :
    Memory.wf ((a, b) :: rest) = true ↔ Memory.startsAt (a + 1) rest ∧ Memory.wf rest = true := by
  cases rest with
  | nil => simp [Memory.wf, Memory.startsAt]
  | cons c cs => obtain ⟨a', b'⟩ := c; simp [Memory.wf, Memory.startsAt]

theorem Memory.startsAt_write (m : Memory) (n i : Nat) (v : Byte) (h : m.startsAt n) (hi : n ≤ i) :
    (m.write i v).startsAt n := by
  cases m with
  | nil => simpa [Memory.write, Memory.startsAt] using hi
  | cons c cs =>
    obtain ⟨a, b⟩ := c
    simp only [Memory.write]
    split
    · exact hi
    · split
      · exact hi
      · exact h

/-- A write keeps the canonical form. -/
theorem Memory.wf_write (m : Memory) (i : Nat) (v : Byte) (h : m.wf = true) : (m.write i v).wf = true := by
  induction m with
  | nil => rfl
  | cons c rest ih =>
    obtain ⟨a, b⟩ := c
    rw [Memory.wf_cons] at h
    simp only [Memory.write]
    split
    · rw [Memory.wf_cons]
      exact ⟨by simpa [Memory.startsAt] using ‹i < a›, (Memory.wf_cons a b rest).2 h⟩
    · split
      · subst i; exact (Memory.wf_cons a v rest).2 h
      · exact (Memory.wf_cons a b _).2 ⟨Memory.startsAt_write _ _ _ _ h.1 (by omega), ih h.2⟩

theorem Memory.below_cons (cap a : Nat) (b : Byte) (rest : Memory) :
    Memory.below cap ((a, b) :: rest) = true ↔ a < cap ∧ Memory.below cap rest = true := by
  simp [Memory.below]

/-- A write to an index the buffer has keeps every listed index below the capacity. -/
theorem Memory.below_write (cap : Nat) (m : Memory) (i : Nat) (v : Byte) (h : m.below cap = true) (hi : i < cap) :
    (m.write i v).below cap = true := by
  induction m with
  | nil => simpa [Memory.write, Memory.below] using hi
  | cons c rest ih =>
    obtain ⟨a, b⟩ := c
    rw [Memory.below_cons] at h
    simp only [Memory.write]
    split
    · exact (Memory.below_cons _ _ _ _).2 ⟨hi, (Memory.below_cons _ _ _ _).2 h⟩
    · split
      · exact (Memory.below_cons _ _ _ _).2 ⟨hi, h.2⟩
      · exact (Memory.below_cons _ _ _ _).2 ⟨h.1, ih h.2⟩

/-- Consecutive writes: the new bytes at their indices, the old ones everywhere else. -/
theorem Memory.read?_writeBytes (m : Memory) (i : Nat) (bs : List Byte) (j : Nat) :
    (m.writeBytes i bs).read? j =
      if i ≤ j ∧ j < i + bs.length then bs[j - i]? else m.read? j := by
  induction bs generalizing m i with
  | nil =>
    simp [Memory.writeBytes]
  | cons b bs ih =>
    simp only [Memory.writeBytes, ih, Memory.read?_write, List.length_cons]
    by_cases h : j = i
    · subst h
      have h2 : j ≤ j ∧ j < j + (bs.length + 1) := by omega
      simp [h2]
    · by_cases h2 : i + 1 ≤ j ∧ j < i + 1 + bs.length
      · have h3 : i ≤ j ∧ j < i + (bs.length + 1) := by omega
        have h4 : j - i = (j - (i + 1)) + 1 := by omega
        simp only [h2, h3, and_self, if_true, h4, List.getElem?_cons_succ]
      · have h3 : ¬ (i ≤ j ∧ j < i + (bs.length + 1)) := by omega
        simp only [h2, h3, if_false, h]

theorem Memory.wf_writeBytes (m : Memory) (i : Nat) (bs : List Byte) (h : m.wf = true) :
    (m.writeBytes i bs).wf = true := by
  induction bs generalizing m i with
  | nil => exact h
  | cons b bs ih => exact ih _ _ (Memory.wf_write m i b h)

theorem Memory.below_writeBytes (cap : Nat) (m : Memory) (i : Nat) (bs : List Byte) (h : m.below cap = true)
    (hi : i + bs.length ≤ cap) : (m.writeBytes i bs).below cap = true := by
  induction bs generalizing m i with
  | nil => exact h
  | cons b bs ih =>
    simp only [List.length_cons] at hi
    exact ih _ _ (Memory.below_write cap m i b h (by omega)) (by omega)

@[simp] theorem loadBytes_length (len : Nat) (wdata : List Byte) : (loadBytes len wdata).length = len := by
  simp [loadBytes]

/-- Byte `i` of a LOAD is byte `i` of `h_wdata` (R112). -/
theorem loadBytes_getElem? (len : Nat) (wdata : List Byte) (i : Nat) (h : i < len) :
    (loadBytes len wdata)[i]? = some (wdataByte wdata i) := by
  simp [loadBytes, h]

/-- After a LOAD: the loaded bytes below `h_len`, the old bytes from there on (R112, U5). -/
theorem Memory.read?_load (m : Memory) (len : Nat) (wdata : List Byte) (j : Nat) :
    (m.writeBytes 0 (loadBytes len wdata)).read? j =
      if j < len then some (wdataByte wdata j) else m.read? j := by
  rw [Memory.read?_writeBytes, loadBytes_length]
  by_cases h : j < len
  · simpa [h] using loadBytes_getElem? len wdata j h
  · simp [h]

theorem deliveredBytes_length (cap n : Nat) (rx : Nat → Byte) : (deliveredBytes cap n rx).length = cap := by
  simp [deliveredBytes]

/-- Byte `i` of a delivered `h_rdata` (R82, R114, R118). -/
theorem deliveredBytes_getElem? (cap n : Nat) (rx : Nat → Byte) (i : Nat) (h : i < cap) :
    (deliveredBytes cap n rx)[i]? = some (if i < n then rx i else 0) := by
  simp [deliveredBytes, h]

end Sys2Proof.Machine
end

