-- ==== Sys2Proof/Laws/State.lean ====
section
/-! SUPPORT. What each named update of the state leaves in each field: one lemma per field per update, all by rfl, so
that no later proof unfolds a record update. -/

namespace Sys2Proof.Machine

@[simp] theorem State.answerM_params (s : State) (c : ResultCode) :
    (s.answerM c).params = s.params := rfl
@[simp] theorem State.answerM_wiring (s : State) (c : ResultCode) :
    (s.answerM c).wiring = s.wiring := rfl
@[simp] theorem State.answerM_master (s : State) (c : ResultCode) :
    (s.answerM c).master = s.master := rfl
@[simp] theorem State.answerM_slave (s : State) (c : ResultCode) :
    (s.answerM c).slave = s.slave := rfl
@[simp] theorem State.answerM_mPins (s : State) (c : ResultCode) :
    (s.answerM c).mPins = s.mPins := rfl
@[simp] theorem State.answerM_sPins (s : State) (c : ResultCode) :
    (s.answerM c).sPins = s.sPins := rfl
@[simp] theorem State.answerM_mRsp (s : State) (c : ResultCode) :
    (s.answerM c).mRsp = Rsp.plain s.params.capM c := rfl
@[simp] theorem State.answerM_sRsp (s : State) (c : ResultCode) :
    (s.answerM c).sRsp = s.sRsp := rfl
@[simp] theorem State.answerM_inputs (s : State) (c : ResultCode) :
    (s.answerM c).inputs = s.inputs := rfl
@[simp] theorem State.answerM_ticks (s : State) (c : ResultCode) :
    (s.answerM c).ticks = s.ticks := rfl

@[simp] theorem State.answerS_params (s : State) (c : ResultCode) :
    (s.answerS c).params = s.params := rfl
@[simp] theorem State.answerS_wiring (s : State) (c : ResultCode) :
    (s.answerS c).wiring = s.wiring := rfl
@[simp] theorem State.answerS_master (s : State) (c : ResultCode) :
    (s.answerS c).master = s.master := rfl
@[simp] theorem State.answerS_slave (s : State) (c : ResultCode) :
    (s.answerS c).slave = s.slave := rfl
@[simp] theorem State.answerS_mPins (s : State) (c : ResultCode) :
    (s.answerS c).mPins = s.mPins := rfl
@[simp] theorem State.answerS_sPins (s : State) (c : ResultCode) :
    (s.answerS c).sPins = s.sPins := rfl
@[simp] theorem State.answerS_mRsp (s : State) (c : ResultCode) :
    (s.answerS c).mRsp = s.mRsp := rfl
@[simp] theorem State.answerS_sRsp (s : State) (c : ResultCode) :
    (s.answerS c).sRsp = Rsp.plain s.params.capS c := rfl
@[simp] theorem State.answerS_inputs (s : State) (c : ResultCode) :
    (s.answerS c).inputs = s.inputs := rfl
@[simp] theorem State.answerS_ticks (s : State) (c : ResultCode) :
    (s.answerS c).ticks = s.ticks := rfl

@[simp] theorem State.deliverM_params (s : State) (c : ResultCode) :
    (s.deliverM c).params = s.params := rfl
@[simp] theorem State.deliverM_wiring (s : State) (c : ResultCode) :
    (s.deliverM c).wiring = s.wiring := rfl
@[simp] theorem State.deliverM_master (s : State) (c : ResultCode) :
    (s.deliverM c).master = s.master := rfl
@[simp] theorem State.deliverM_slave (s : State) (c : ResultCode) :
    (s.deliverM c).slave = s.slave := rfl
@[simp] theorem State.deliverM_mPins (s : State) (c : ResultCode) :
    (s.deliverM c).mPins = s.mPins := rfl
@[simp] theorem State.deliverM_sPins (s : State) (c : ResultCode) :
    (s.deliverM c).sPins = s.sPins := rfl
@[simp] theorem State.deliverM_mRsp (s : State) (c : ResultCode) :
    (s.deliverM c).mRsp = { res := c, rlen := s.master.rxLen, rdata := deliveredBytes s.params.capM s.master.rxLen s.master.rxByte } := rfl
@[simp] theorem State.deliverM_sRsp (s : State) (c : ResultCode) :
    (s.deliverM c).sRsp = s.sRsp := rfl
@[simp] theorem State.deliverM_inputs (s : State) (c : ResultCode) :
    (s.deliverM c).inputs = s.inputs := rfl
@[simp] theorem State.deliverM_ticks (s : State) (c : ResultCode) :
    (s.deliverM c).ticks = s.ticks := rfl

@[simp] theorem State.deliverS_params (s : State) (c : ResultCode) :
    (s.deliverS c).params = s.params := rfl
@[simp] theorem State.deliverS_wiring (s : State) (c : ResultCode) :
    (s.deliverS c).wiring = s.wiring := rfl
@[simp] theorem State.deliverS_master (s : State) (c : ResultCode) :
    (s.deliverS c).master = s.master := rfl
@[simp] theorem State.deliverS_slave (s : State) (c : ResultCode) :
    (s.deliverS c).slave = s.slave := rfl
@[simp] theorem State.deliverS_mPins (s : State) (c : ResultCode) :
    (s.deliverS c).mPins = s.mPins := rfl
@[simp] theorem State.deliverS_sPins (s : State) (c : ResultCode) :
    (s.deliverS c).sPins = s.sPins := rfl
@[simp] theorem State.deliverS_mRsp (s : State) (c : ResultCode) :
    (s.deliverS c).mRsp = s.mRsp := rfl
@[simp] theorem State.deliverS_sRsp (s : State) (c : ResultCode) :
    (s.deliverS c).sRsp = { res := c, rlen := s.slave.rxLen, rdata := deliveredBytes s.params.capS s.slave.rxLen s.slave.rxByte } := rfl
@[simp] theorem State.deliverS_inputs (s : State) (c : ResultCode) :
    (s.deliverS c).inputs = s.inputs := rfl
@[simp] theorem State.deliverS_ticks (s : State) (c : ResultCode) :
    (s.deliverS c).ticks = s.ticks := rfl

@[simp] theorem State.resetM_params (s : State) :
    (s.resetM).params = s.params := rfl
@[simp] theorem State.resetM_wiring (s : State) :
    (s.resetM).wiring = s.wiring := rfl
@[simp] theorem State.resetM_master (s : State) :
    (s.resetM).master = Master.afterReset (s.master.epoch + 1) := rfl
@[simp] theorem State.resetM_slave (s : State) :
    (s.resetM).slave = s.slave := rfl
@[simp] theorem State.resetM_mPins (s : State) :
    (s.resetM).mPins = s.mPins := rfl
@[simp] theorem State.resetM_sPins (s : State) :
    (s.resetM).sPins = s.sPins := rfl
@[simp] theorem State.resetM_mRsp (s : State) :
    (s.resetM).mRsp = Rsp.plain s.params.capM .ok := rfl
@[simp] theorem State.resetM_sRsp (s : State) :
    (s.resetM).sRsp = s.sRsp := rfl
@[simp] theorem State.resetM_inputs (s : State) :
    (s.resetM).inputs = s.inputs := rfl
@[simp] theorem State.resetM_ticks (s : State) :
    (s.resetM).ticks = s.ticks := rfl

@[simp] theorem State.resetS_params (s : State) :
    (s.resetS).params = s.params := rfl
@[simp] theorem State.resetS_wiring (s : State) :
    (s.resetS).wiring = s.wiring := rfl
@[simp] theorem State.resetS_master (s : State) :
    (s.resetS).master = s.master := rfl
@[simp] theorem State.resetS_slave (s : State) :
    (s.resetS).slave = Slave.afterReset (s.slave.epoch + 1) := rfl
@[simp] theorem State.resetS_mPins (s : State) :
    (s.resetS).mPins = s.mPins := rfl
@[simp] theorem State.resetS_sPins (s : State) :
    (s.resetS).sPins = s.sPins := rfl
@[simp] theorem State.resetS_mRsp (s : State) :
    (s.resetS).mRsp = s.mRsp := rfl
@[simp] theorem State.resetS_sRsp (s : State) :
    (s.resetS).sRsp = Rsp.plain s.params.capS .ok := rfl
@[simp] theorem State.resetS_inputs (s : State) :
    (s.resetS).inputs = s.inputs := rfl
@[simp] theorem State.resetS_ticks (s : State) :
    (s.resetS).ticks = s.ticks := rfl

@[simp] theorem State.sampled_params (s : State) (t : Tick) :
    (s.sampled t).params = s.params := rfl
@[simp] theorem State.sampled_wiring (s : State) (t : Tick) :
    (s.sampled t).wiring = s.wiring := rfl
@[simp] theorem State.sampled_master (s : State) (t : Tick) :
    (s.sampled t).master = s.master := rfl
@[simp] theorem State.sampled_slave (s : State) (t : Tick) :
    (s.sampled t).slave = s.slave := rfl
@[simp] theorem State.sampled_mRsp (s : State) (t : Tick) :
    (s.sampled t).mRsp = s.mRsp := rfl
@[simp] theorem State.sampled_sRsp (s : State) (t : Tick) :
    (s.sampled t).sRsp = s.sRsp := rfl
@[simp] theorem State.sampled_inputs (s : State) (t : Tick) :
    (s.sampled t).inputs = s.inputs.tail := rfl
@[simp] theorem State.sampled_ticks (s : State) (t : Tick) :
    (s.sampled t).ticks = s.ticks + 1 := rfl

@[simp] theorem Master.load_role (m : Master) (n : Nat) (bs : List Byte) :
    (m.load n bs).role = m.role := rfl
@[simp] theorem Master.load_phase (m : Master) (n : Nat) (bs : List Byte) :
    (m.load n bs).phase = m.phase := rfl
@[simp] theorem Master.load_byte (m : Master) (n : Nat) (bs : List Byte) :
    (m.load n bs).byte = m.byte := rfl
@[simp] theorem Master.load_bit (m : Master) (n : Nat) (bs : List Byte) :
    (m.load n bs).bit = m.bit := rfl
@[simp] theorem Master.load_acc (m : Master) (n : Nat) (bs : List Byte) :
    (m.load n bs).acc = m.acc := rfl
@[simp] theorem Master.load_dly (m : Master) (n : Nat) (bs : List Byte) :
    (m.load n bs).dly = m.dly := rfl
@[simp] theorem Master.load_tx (m : Master) (n : Nat) (bs : List Byte) :
    (m.load n bs).tx = m.tx.writeBytes 0 bs := rfl
@[simp] theorem Master.load_txLen (m : Master) (n : Nat) (bs : List Byte) :
    (m.load n bs).txLen = n := rfl
@[simp] theorem Master.load_rx (m : Master) (n : Nat) (bs : List Byte) :
    (m.load n bs).rx = m.rx := rfl
@[simp] theorem Master.load_rxLen (m : Master) (n : Nat) (bs : List Byte) :
    (m.load n bs).rxLen = m.rxLen := rfl
@[simp] theorem Master.load_res (m : Master) (n : Nat) (bs : List Byte) :
    (m.load n bs).res = m.res := rfl
@[simp] theorem Master.load_sclk (m : Master) (n : Nat) (bs : List Byte) :
    (m.load n bs).sclk = m.sclk := rfl
@[simp] theorem Master.load_csN (m : Master) (n : Nat) (bs : List Byte) :
    (m.load n bs).csN = m.csN := rfl
@[simp] theorem Master.load_mosi (m : Master) (n : Nat) (bs : List Byte) :
    (m.load n bs).mosi = m.mosi := rfl
@[simp] theorem Master.load_epoch (m : Master) (n : Nat) (bs : List Byte) :
    (m.load n bs).epoch = m.epoch := rfl

@[simp] theorem Master.completeEmpty_role (m : Master) :
    (m.completeEmpty).role = m.role := rfl
@[simp] theorem Master.completeEmpty_phase (m : Master) :
    (m.completeEmpty).phase = m.phase := rfl
@[simp] theorem Master.completeEmpty_byte (m : Master) :
    (m.completeEmpty).byte = m.byte := rfl
@[simp] theorem Master.completeEmpty_bit (m : Master) :
    (m.completeEmpty).bit = m.bit := rfl
@[simp] theorem Master.completeEmpty_acc (m : Master) :
    (m.completeEmpty).acc = m.acc := rfl
@[simp] theorem Master.completeEmpty_dly (m : Master) :
    (m.completeEmpty).dly = m.dly := rfl
@[simp] theorem Master.completeEmpty_tx (m : Master) :
    (m.completeEmpty).tx = m.tx := rfl
@[simp] theorem Master.completeEmpty_txLen (m : Master) :
    (m.completeEmpty).txLen = m.txLen := rfl
@[simp] theorem Master.completeEmpty_rx (m : Master) :
    (m.completeEmpty).rx = m.rx := rfl
@[simp] theorem Master.completeEmpty_rxLen (m : Master) :
    (m.completeEmpty).rxLen = 0 := rfl
@[simp] theorem Master.completeEmpty_res (m : Master) :
    (m.completeEmpty).res = .ready := rfl
@[simp] theorem Master.completeEmpty_sclk (m : Master) :
    (m.completeEmpty).sclk = m.sclk := rfl
@[simp] theorem Master.completeEmpty_csN (m : Master) :
    (m.completeEmpty).csN = m.csN := rfl
@[simp] theorem Master.completeEmpty_mosi (m : Master) :
    (m.completeEmpty).mosi = m.mosi := rfl
@[simp] theorem Master.completeEmpty_epoch (m : Master) :
    (m.completeEmpty).epoch = m.epoch := rfl

@[simp] theorem Master.begin_role (m : Master) :
    (m.begin).role = .active := rfl
@[simp] theorem Master.begin_phase (m : Master) :
    (m.begin).phase = .pAssert := rfl
@[simp] theorem Master.begin_byte (m : Master) :
    (m.begin).byte = 0 := rfl
@[simp] theorem Master.begin_bit (m : Master) :
    (m.begin).bit = m.bit := rfl
@[simp] theorem Master.begin_acc (m : Master) :
    (m.begin).acc = m.acc := rfl
@[simp] theorem Master.begin_dly (m : Master) :
    (m.begin).dly = 0 := rfl
@[simp] theorem Master.begin_tx (m : Master) :
    (m.begin).tx = m.tx := rfl
@[simp] theorem Master.begin_txLen (m : Master) :
    (m.begin).txLen = m.txLen := rfl
@[simp] theorem Master.begin_rx (m : Master) :
    (m.begin).rx = m.rx := rfl
@[simp] theorem Master.begin_rxLen (m : Master) :
    (m.begin).rxLen = m.rxLen := rfl
@[simp] theorem Master.begin_res (m : Master) :
    (m.begin).res = .none := rfl
@[simp] theorem Master.begin_sclk (m : Master) :
    (m.begin).sclk = m.sclk := rfl
@[simp] theorem Master.begin_csN (m : Master) :
    (m.begin).csN = m.csN := rfl
@[simp] theorem Master.begin_mosi (m : Master) :
    (m.begin).mosi = m.mosi := rfl
@[simp] theorem Master.begin_epoch (m : Master) :
    (m.begin).epoch = m.epoch := rfl

@[simp] theorem Master.taken_role (m : Master) :
    (m.taken).role = m.role := rfl
@[simp] theorem Master.taken_phase (m : Master) :
    (m.taken).phase = m.phase := rfl
@[simp] theorem Master.taken_byte (m : Master) :
    (m.taken).byte = m.byte := rfl
@[simp] theorem Master.taken_bit (m : Master) :
    (m.taken).bit = m.bit := rfl
@[simp] theorem Master.taken_acc (m : Master) :
    (m.taken).acc = m.acc := rfl
@[simp] theorem Master.taken_dly (m : Master) :
    (m.taken).dly = m.dly := rfl
@[simp] theorem Master.taken_tx (m : Master) :
    (m.taken).tx = m.tx := rfl
@[simp] theorem Master.taken_txLen (m : Master) :
    (m.taken).txLen = m.txLen := rfl
@[simp] theorem Master.taken_rx (m : Master) :
    (m.taken).rx = m.rx := rfl
@[simp] theorem Master.taken_rxLen (m : Master) :
    (m.taken).rxLen = m.rxLen := rfl
@[simp] theorem Master.taken_res (m : Master) :
    (m.taken).res = .none := rfl
@[simp] theorem Master.taken_sclk (m : Master) :
    (m.taken).sclk = m.sclk := rfl
@[simp] theorem Master.taken_csN (m : Master) :
    (m.taken).csN = m.csN := rfl
@[simp] theorem Master.taken_mosi (m : Master) :
    (m.taken).mosi = m.mosi := rfl
@[simp] theorem Master.taken_epoch (m : Master) :
    (m.taken).epoch = m.epoch := rfl

@[simp] theorem Master.dwell_role (m : Master) :
    (m.dwell).role = m.role := rfl
@[simp] theorem Master.dwell_phase (m : Master) :
    (m.dwell).phase = m.phase := rfl
@[simp] theorem Master.dwell_byte (m : Master) :
    (m.dwell).byte = m.byte := rfl
@[simp] theorem Master.dwell_bit (m : Master) :
    (m.dwell).bit = m.bit := rfl
@[simp] theorem Master.dwell_acc (m : Master) :
    (m.dwell).acc = m.acc := rfl
@[simp] theorem Master.dwell_dly (m : Master) :
    (m.dwell).dly = m.dly - 1 := rfl
@[simp] theorem Master.dwell_tx (m : Master) :
    (m.dwell).tx = m.tx := rfl
@[simp] theorem Master.dwell_txLen (m : Master) :
    (m.dwell).txLen = m.txLen := rfl
@[simp] theorem Master.dwell_rx (m : Master) :
    (m.dwell).rx = m.rx := rfl
@[simp] theorem Master.dwell_rxLen (m : Master) :
    (m.dwell).rxLen = m.rxLen := rfl
@[simp] theorem Master.dwell_res (m : Master) :
    (m.dwell).res = m.res := rfl
@[simp] theorem Master.dwell_sclk (m : Master) :
    (m.dwell).sclk = m.sclk := rfl
@[simp] theorem Master.dwell_csN (m : Master) :
    (m.dwell).csN = m.csN := rfl
@[simp] theorem Master.dwell_mosi (m : Master) :
    (m.dwell).mosi = m.mosi := rfl
@[simp] theorem Master.dwell_epoch (m : Master) :
    (m.dwell).epoch = m.epoch := rfl

@[simp] theorem Slave.load_role (x : Slave) (n : Nat) (bs : List Byte) :
    (x.load n bs).role = x.role := rfl
@[simp] theorem Slave.load_phase (x : Slave) (n : Nat) (bs : List Byte) :
    (x.load n bs).phase = x.phase := rfl
@[simp] theorem Slave.load_byte (x : Slave) (n : Nat) (bs : List Byte) :
    (x.load n bs).byte = x.byte := rfl
@[simp] theorem Slave.load_bit (x : Slave) (n : Nat) (bs : List Byte) :
    (x.load n bs).bit = x.bit := rfl
@[simp] theorem Slave.load_acc (x : Slave) (n : Nat) (bs : List Byte) :
    (x.load n bs).acc = x.acc := rfl
@[simp] theorem Slave.load_tmr (x : Slave) (n : Nat) (bs : List Byte) :
    (x.load n bs).tmr = x.tmr := rfl
@[simp] theorem Slave.load_csPrev (x : Slave) (n : Nat) (bs : List Byte) :
    (x.load n bs).csPrev = x.csPrev := rfl
@[simp] theorem Slave.load_tx (x : Slave) (n : Nat) (bs : List Byte) :
    (x.load n bs).tx = x.tx.writeBytes 0 bs := rfl
@[simp] theorem Slave.load_txLen (x : Slave) (n : Nat) (bs : List Byte) :
    (x.load n bs).txLen = n := rfl
@[simp] theorem Slave.load_rx (x : Slave) (n : Nat) (bs : List Byte) :
    (x.load n bs).rx = x.rx := rfl
@[simp] theorem Slave.load_rxLen (x : Slave) (n : Nat) (bs : List Byte) :
    (x.load n bs).rxLen = x.rxLen := rfl
@[simp] theorem Slave.load_res (x : Slave) (n : Nat) (bs : List Byte) :
    (x.load n bs).res = x.res := rfl
@[simp] theorem Slave.load_miso (x : Slave) (n : Nat) (bs : List Byte) :
    (x.load n bs).miso = x.miso := rfl
@[simp] theorem Slave.load_epoch (x : Slave) (n : Nat) (bs : List Byte) :
    (x.load n bs).epoch = x.epoch := rfl

@[simp] theorem Slave.taken_role (x : Slave) :
    (x.taken).role = x.role := rfl
@[simp] theorem Slave.taken_phase (x : Slave) :
    (x.taken).phase = x.phase := rfl
@[simp] theorem Slave.taken_byte (x : Slave) :
    (x.taken).byte = x.byte := rfl
@[simp] theorem Slave.taken_bit (x : Slave) :
    (x.taken).bit = x.bit := rfl
@[simp] theorem Slave.taken_acc (x : Slave) :
    (x.taken).acc = x.acc := rfl
@[simp] theorem Slave.taken_tmr (x : Slave) :
    (x.taken).tmr = x.tmr := rfl
@[simp] theorem Slave.taken_csPrev (x : Slave) :
    (x.taken).csPrev = x.csPrev := rfl
@[simp] theorem Slave.taken_tx (x : Slave) :
    (x.taken).tx = x.tx := rfl
@[simp] theorem Slave.taken_txLen (x : Slave) :
    (x.taken).txLen = x.txLen := rfl
@[simp] theorem Slave.taken_rx (x : Slave) :
    (x.taken).rx = x.rx := rfl
@[simp] theorem Slave.taken_rxLen (x : Slave) :
    (x.taken).rxLen = x.rxLen := rfl
@[simp] theorem Slave.taken_res (x : Slave) :
    (x.taken).res = .none := rfl
@[simp] theorem Slave.taken_miso (x : Slave) :
    (x.taken).miso = x.miso := rfl
@[simp] theorem Slave.taken_epoch (x : Slave) :
    (x.taken).epoch = x.epoch := rfl

@[simp] theorem Slave.endSession_role (x : Slave) (r : SRes) (n : Nat) :
    (x.endSession r n).role = .idle := rfl
@[simp] theorem Slave.endSession_phase (x : Slave) (r : SRes) (n : Nat) :
    (x.endSession r n).phase = x.phase := rfl
@[simp] theorem Slave.endSession_byte (x : Slave) (r : SRes) (n : Nat) :
    (x.endSession r n).byte = x.byte := rfl
@[simp] theorem Slave.endSession_bit (x : Slave) (r : SRes) (n : Nat) :
    (x.endSession r n).bit = x.bit := rfl
@[simp] theorem Slave.endSession_acc (x : Slave) (r : SRes) (n : Nat) :
    (x.endSession r n).acc = x.acc := rfl
@[simp] theorem Slave.endSession_tmr (x : Slave) (r : SRes) (n : Nat) :
    (x.endSession r n).tmr = x.tmr := rfl
@[simp] theorem Slave.endSession_csPrev (x : Slave) (r : SRes) (n : Nat) :
    (x.endSession r n).csPrev = x.csPrev := rfl
@[simp] theorem Slave.endSession_tx (x : Slave) (r : SRes) (n : Nat) :
    (x.endSession r n).tx = x.tx := rfl
@[simp] theorem Slave.endSession_txLen (x : Slave) (r : SRes) (n : Nat) :
    (x.endSession r n).txLen = x.txLen := rfl
@[simp] theorem Slave.endSession_rx (x : Slave) (r : SRes) (n : Nat) :
    (x.endSession r n).rx = x.rx := rfl
@[simp] theorem Slave.endSession_rxLen (x : Slave) (r : SRes) (n : Nat) :
    (x.endSession r n).rxLen = n := rfl
@[simp] theorem Slave.endSession_res (x : Slave) (r : SRes) (n : Nat) :
    (x.endSession r n).res = r := rfl
@[simp] theorem Slave.endSession_miso (x : Slave) (r : SRes) (n : Nat) :
    (x.endSession r n).miso = false := rfl
@[simp] theorem Slave.endSession_epoch (x : Slave) (r : SRes) (n : Nat) :
    (x.endSession r n).epoch = x.epoch := rfl

@[simp] theorem Slave.sample_role (x : Slave) (l : Level) :
    (x.sample l).role = x.role := rfl
@[simp] theorem Slave.sample_phase (x : Slave) (l : Level) :
    (x.sample l).phase = .wLow := rfl
@[simp] theorem Slave.sample_byte (x : Slave) (l : Level) :
    (x.sample l).byte = x.byte := rfl
@[simp] theorem Slave.sample_bit (x : Slave) (l : Level) :
    (x.sample l).bit = x.bit := rfl
@[simp] theorem Slave.sample_acc (x : Slave) (l : Level) :
    (x.sample l).acc = shiftIn x.acc l := rfl
@[simp] theorem Slave.sample_tmr (x : Slave) (l : Level) :
    (x.sample l).tmr = 0 := rfl
@[simp] theorem Slave.sample_csPrev (x : Slave) (l : Level) :
    (x.sample l).csPrev = x.csPrev := rfl
@[simp] theorem Slave.sample_tx (x : Slave) (l : Level) :
    (x.sample l).tx = x.tx := rfl
@[simp] theorem Slave.sample_txLen (x : Slave) (l : Level) :
    (x.sample l).txLen = x.txLen := rfl
@[simp] theorem Slave.sample_rx (x : Slave) (l : Level) :
    (x.sample l).rx = x.rx := rfl
@[simp] theorem Slave.sample_rxLen (x : Slave) (l : Level) :
    (x.sample l).rxLen = x.rxLen := rfl
@[simp] theorem Slave.sample_res (x : Slave) (l : Level) :
    (x.sample l).res = x.res := rfl
@[simp] theorem Slave.sample_miso (x : Slave) (l : Level) :
    (x.sample l).miso = x.miso := rfl
@[simp] theorem Slave.sample_epoch (x : Slave) (l : Level) :
    (x.sample l).epoch = x.epoch := rfl

@[simp] theorem Slave.sawCs_role (x : Slave) (l : Level) :
    (x.sawCs l).role = x.role := rfl
@[simp] theorem Slave.sawCs_phase (x : Slave) (l : Level) :
    (x.sawCs l).phase = x.phase := rfl
@[simp] theorem Slave.sawCs_byte (x : Slave) (l : Level) :
    (x.sawCs l).byte = x.byte := rfl
@[simp] theorem Slave.sawCs_bit (x : Slave) (l : Level) :
    (x.sawCs l).bit = x.bit := rfl
@[simp] theorem Slave.sawCs_acc (x : Slave) (l : Level) :
    (x.sawCs l).acc = x.acc := rfl
@[simp] theorem Slave.sawCs_tmr (x : Slave) (l : Level) :
    (x.sawCs l).tmr = x.tmr := rfl
@[simp] theorem Slave.sawCs_csPrev (x : Slave) (l : Level) :
    (x.sawCs l).csPrev = l := rfl
@[simp] theorem Slave.sawCs_tx (x : Slave) (l : Level) :
    (x.sawCs l).tx = x.tx := rfl
@[simp] theorem Slave.sawCs_txLen (x : Slave) (l : Level) :
    (x.sawCs l).txLen = x.txLen := rfl
@[simp] theorem Slave.sawCs_rx (x : Slave) (l : Level) :
    (x.sawCs l).rx = x.rx := rfl
@[simp] theorem Slave.sawCs_rxLen (x : Slave) (l : Level) :
    (x.sawCs l).rxLen = x.rxLen := rfl
@[simp] theorem Slave.sawCs_res (x : Slave) (l : Level) :
    (x.sawCs l).res = x.res := rfl
@[simp] theorem Slave.sawCs_miso (x : Slave) (l : Level) :
    (x.sawCs l).miso = x.miso := rfl
@[simp] theorem Slave.sawCs_epoch (x : Slave) (l : Level) :
    (x.sawCs l).epoch = x.epoch := rfl

@[simp] theorem Slave.drive_role (x : Slave) (i : Nat) (b : Nat) :
    (x.drive i b).role = x.role := rfl
@[simp] theorem Slave.drive_phase (x : Slave) (i : Nat) (b : Nat) :
    (x.drive i b).phase = .wHigh := rfl
@[simp] theorem Slave.drive_byte (x : Slave) (i : Nat) (b : Nat) :
    (x.drive i b).byte = x.byte := rfl
@[simp] theorem Slave.drive_bit (x : Slave) (i : Nat) (b : Nat) :
    (x.drive i b).bit = x.bit := rfl
@[simp] theorem Slave.drive_acc (x : Slave) (i : Nat) (b : Nat) :
    (x.drive i b).acc = x.acc := rfl
@[simp] theorem Slave.drive_tmr (x : Slave) (i : Nat) (b : Nat) :
    (x.drive i b).tmr = 0 := rfl
@[simp] theorem Slave.drive_csPrev (x : Slave) (i : Nat) (b : Nat) :
    (x.drive i b).csPrev = x.csPrev := rfl
@[simp] theorem Slave.drive_tx (x : Slave) (i : Nat) (b : Nat) :
    (x.drive i b).tx = x.tx := rfl
@[simp] theorem Slave.drive_txLen (x : Slave) (i : Nat) (b : Nat) :
    (x.drive i b).txLen = x.txLen := rfl
@[simp] theorem Slave.drive_rx (x : Slave) (i : Nat) (b : Nat) :
    (x.drive i b).rx = x.rx := rfl
@[simp] theorem Slave.drive_rxLen (x : Slave) (i : Nat) (b : Nat) :
    (x.drive i b).rxLen = x.rxLen := rfl
@[simp] theorem Slave.drive_res (x : Slave) (i : Nat) (b : Nat) :
    (x.drive i b).res = x.res := rfl
@[simp] theorem Slave.drive_miso (x : Slave) (i : Nat) (b : Nat) :
    (x.drive i b).miso = x.respBit i b := rfl
@[simp] theorem Slave.drive_epoch (x : Slave) (i : Nat) (b : Nat) :
    (x.drive i b).epoch = x.epoch := rfl

@[simp] theorem Slave.startSession_role (x : Slave) :
    (x.startSession).role = .active := rfl
@[simp] theorem Slave.startSession_phase (x : Slave) :
    (x.startSession).phase = .wHigh := rfl
@[simp] theorem Slave.startSession_byte (x : Slave) :
    (x.startSession).byte = 0 := rfl
@[simp] theorem Slave.startSession_bit (x : Slave) :
    (x.startSession).bit = 0 := rfl
@[simp] theorem Slave.startSession_acc (x : Slave) :
    (x.startSession).acc = 0 := rfl
@[simp] theorem Slave.startSession_tmr (x : Slave) :
    (x.startSession).tmr = 0 := rfl
@[simp] theorem Slave.startSession_csPrev (x : Slave) :
    (x.startSession).csPrev = x.csPrev := rfl
@[simp] theorem Slave.startSession_tx (x : Slave) :
    (x.startSession).tx = x.tx := rfl
@[simp] theorem Slave.startSession_txLen (x : Slave) :
    (x.startSession).txLen = x.txLen := rfl
@[simp] theorem Slave.startSession_rx (x : Slave) :
    (x.startSession).rx = x.rx := rfl
@[simp] theorem Slave.startSession_rxLen (x : Slave) :
    (x.startSession).rxLen = x.rxLen := rfl
@[simp] theorem Slave.startSession_res (x : Slave) :
    (x.startSession).res = .none := rfl
@[simp] theorem Slave.startSession_miso (x : Slave) :
    (x.startSession).miso = x.respBit 0 7 := rfl
@[simp] theorem Slave.startSession_epoch (x : Slave) :
    (x.startSession).epoch = x.epoch := rfl

@[simp] theorem Slave.bitDone_role (x : Slave) :
    (x.bitDone).role = x.role := rfl
@[simp] theorem Slave.bitDone_phase (x : Slave) :
    (x.bitDone).phase = .wHigh := rfl
@[simp] theorem Slave.bitDone_byte (x : Slave) :
    (x.bitDone).byte = x.byte := rfl
@[simp] theorem Slave.bitDone_bit (x : Slave) :
    (x.bitDone).bit = x.bit + 1 := rfl
@[simp] theorem Slave.bitDone_acc (x : Slave) :
    (x.bitDone).acc = x.acc := rfl
@[simp] theorem Slave.bitDone_tmr (x : Slave) :
    (x.bitDone).tmr = 0 := rfl
@[simp] theorem Slave.bitDone_csPrev (x : Slave) :
    (x.bitDone).csPrev = x.csPrev := rfl
@[simp] theorem Slave.bitDone_tx (x : Slave) :
    (x.bitDone).tx = x.tx := rfl
@[simp] theorem Slave.bitDone_txLen (x : Slave) :
    (x.bitDone).txLen = x.txLen := rfl
@[simp] theorem Slave.bitDone_rx (x : Slave) :
    (x.bitDone).rx = x.rx := rfl
@[simp] theorem Slave.bitDone_rxLen (x : Slave) :
    (x.bitDone).rxLen = x.rxLen := rfl
@[simp] theorem Slave.bitDone_res (x : Slave) :
    (x.bitDone).res = x.res := rfl
@[simp] theorem Slave.bitDone_miso (x : Slave) :
    (x.bitDone).miso = x.respBit x.byte (6 - x.bit.val) := rfl
@[simp] theorem Slave.bitDone_epoch (x : Slave) :
    (x.bitDone).epoch = x.epoch := rfl

@[simp] theorem Slave.commit_role (x : Slave) :
    (x.commit).role = x.role := rfl
@[simp] theorem Slave.commit_phase (x : Slave) :
    (x.commit).phase = .wHigh := rfl
@[simp] theorem Slave.commit_byte (x : Slave) :
    (x.commit).byte = x.byte + 1 := rfl
@[simp] theorem Slave.commit_bit (x : Slave) :
    (x.commit).bit = 0 := rfl
@[simp] theorem Slave.commit_acc (x : Slave) :
    (x.commit).acc = x.acc := rfl
@[simp] theorem Slave.commit_tmr (x : Slave) :
    (x.commit).tmr = 0 := rfl
@[simp] theorem Slave.commit_csPrev (x : Slave) :
    (x.commit).csPrev = x.csPrev := rfl
@[simp] theorem Slave.commit_tx (x : Slave) :
    (x.commit).tx = x.tx := rfl
@[simp] theorem Slave.commit_txLen (x : Slave) :
    (x.commit).txLen = x.txLen := rfl
@[simp] theorem Slave.commit_rx (x : Slave) :
    (x.commit).rx = x.rx.write x.byte x.acc := rfl
@[simp] theorem Slave.commit_rxLen (x : Slave) :
    (x.commit).rxLen = x.rxLen := rfl
@[simp] theorem Slave.commit_res (x : Slave) :
    (x.commit).res = x.res := rfl
@[simp] theorem Slave.commit_miso (x : Slave) :
    (x.commit).miso = x.respBit (x.byte + 1) 7 := rfl
@[simp] theorem Slave.commit_epoch (x : Slave) :
    (x.commit).epoch = x.epoch := rfl

@[simp] theorem Slave.commitFull_role (x : Slave) (cap : Nat) :
    (x.commitFull cap).role = .idle := rfl
@[simp] theorem Slave.commitFull_phase (x : Slave) (cap : Nat) :
    (x.commitFull cap).phase = x.phase := rfl
@[simp] theorem Slave.commitFull_byte (x : Slave) (cap : Nat) :
    (x.commitFull cap).byte = x.byte + 1 := rfl
@[simp] theorem Slave.commitFull_bit (x : Slave) (cap : Nat) :
    (x.commitFull cap).bit = 0 := rfl
@[simp] theorem Slave.commitFull_acc (x : Slave) (cap : Nat) :
    (x.commitFull cap).acc = x.acc := rfl
@[simp] theorem Slave.commitFull_tmr (x : Slave) (cap : Nat) :
    (x.commitFull cap).tmr = x.tmr := rfl
@[simp] theorem Slave.commitFull_csPrev (x : Slave) (cap : Nat) :
    (x.commitFull cap).csPrev = x.csPrev := rfl
@[simp] theorem Slave.commitFull_tx (x : Slave) (cap : Nat) :
    (x.commitFull cap).tx = x.tx := rfl
@[simp] theorem Slave.commitFull_txLen (x : Slave) (cap : Nat) :
    (x.commitFull cap).txLen = x.txLen := rfl
@[simp] theorem Slave.commitFull_rx (x : Slave) (cap : Nat) :
    (x.commitFull cap).rx = x.rx.write x.byte x.acc := rfl
@[simp] theorem Slave.commitFull_rxLen (x : Slave) (cap : Nat) :
    (x.commitFull cap).rxLen = cap := rfl
@[simp] theorem Slave.commitFull_res (x : Slave) (cap : Nat) :
    (x.commitFull cap).res = .ready := rfl
@[simp] theorem Slave.commitFull_miso (x : Slave) (cap : Nat) :
    (x.commitFull cap).miso = false := rfl
@[simp] theorem Slave.commitFull_epoch (x : Slave) (cap : Nat) :
    (x.commitFull cap).epoch = x.epoch := rfl

end Sys2Proof.Machine
end

