-- ==== Sys2Proof/Laws/Ops.lean ====
section
/-! SUPPORT. Each shared operation said once: what it can do, for later proofs to cite instead of unfolding it. -/

namespace Sys2Proof.Machine

/-! ## Sequencing -/

@[simp] theorem andThen_next (s : State) (f : State → Host.Outcome State Fault Refusal) :
    andThen (.next s) f = f s := rfl

@[simp] theorem andThen_fault (r : Fault) (f : State → Host.Outcome State Fault Refusal) :
    andThen (.fault r) f = .fault r := rfl

@[simp] theorem andThen_refused (r : Refusal) (f : State → Host.Outcome State Fault Refusal) :
    andThen (.refused r) f = .refused r := rfl

/-- Two outcomes in a row answer a next state exactly when both do. -/
theorem andThen_eq_next {o : Host.Outcome State Fault Refusal} {f : State → Host.Outcome State Fault Refusal}
    {u : State} : andThen o f = .next u ↔ ∃ t, o = .next t ∧ f t = .next u := by
  cases o <;> simp [andThen]

/-! ## Bits -/

/-- Bit 0 of `shift_in(acc, b)` is `b`; bit `j + 1` is bit `j` of `acc` (00_scope.md R12). -/
theorem shiftIn_getLsbD (acc : Byte) (b : Level) (j : Nat) (h : j < 8) :
    (shiftIn acc b).getLsbD j = if j = 0 then b else acc.getLsbD (j - 1) := by
  unfold shiftIn
  rw [BitVec.getLsbD_concat]
  by_cases h0 : j = 0
  · simp [h0]
  · have : j - 1 < 7 := by omega
    simp [h0, this]

@[simp] theorem Slave.respBit_of_lt (x : Slave) (i b : Nat) (h : i < x.txLen) :
    x.respBit i b = (x.txByte i).getLsbD b := by simp [Slave.respBit, h]

@[simp] theorem Slave.respBit_of_le (x : Slave) (i b : Nat) (h : x.txLen ≤ i) : x.respBit i b = false := by
  simp [Slave.respBit, Nat.not_lt.2 h]

/-- The response bit depends on the response buffer alone. -/
theorem Slave.respBit_congr {x y : Slave} (htx : x.tx = y.tx) (hlen : x.txLen = y.txLen) (hep : x.epoch = y.epoch)
    (i b : Nat) : x.respBit i b = y.respBit i b := by
  simp only [Slave.respBit, Slave.txByte, htx, hlen, hep]

/-! ## The poll (42_slave_sequencer.md R178) -/

/-- A miss either ends the session `INCOMPLETE`, at the deadline, or counts one more. -/
theorem Slave.pollMiss_cases (x : Slave) (timeout : Nat) :
    (x.tmr + 1 = timeout ∧ x.pollMiss timeout = x.endSession .incomplete x.byte) ∨
    (x.tmr + 1 ≠ timeout ∧ x.pollMiss timeout = { x with tmr := x.tmr + 1 }) := by
  unfold Slave.pollMiss
  split
  · exact .inl ⟨‹_›, rfl⟩
  · exact .inr ⟨‹_›, rfl⟩

/-! ## Reading the pins -/

@[simp] theorem State.readMPins_rst (s : State) (a : MPins) : (s.readMPins a).rst = a.rst := rfl
@[simp] theorem State.readMPins_hValid (s : State) (a : MPins) : (s.readMPins a).hValid = a.hValid := rfl
@[simp] theorem State.readMPins_hcmd (s : State) (a : MPins) : (s.readMPins a).hcmd = a.hcmd := rfl
@[simp] theorem State.readMPins_miso (s : State) (a : MPins) : (s.readMPins a).miso = s.misoRead a.miso := rfl

/-- `miso` in a pair (R74). -/
theorem State.misoRead_slave (s : State) (l : Level) (h : s.wiring.miso = .slave) : s.misoRead l = s.slave.miso := by
  simp [State.misoRead, h, State.line]
/-- `miso` in loopback (R74). -/
theorem State.misoRead_mosi (s : State) (l : Level) (h : s.wiring.miso = .mosi) : s.misoRead l = s.master.mosi := by
  simp [State.misoRead, h, State.line]
/-- `miso` set by the environment (R14, U16). -/
theorem State.misoRead_env (s : State) (l : Level) (h : s.wiring.miso = .env) : s.misoRead l = l := by
  simp [State.misoRead, h]
/-- SPIBB-S's lines set by the environment (R14). -/
theorem State.readSPins_env (s : State) (a : SPins) (h : s.wiring.slave = .env) : s.readSPins a = a := by
  simp [State.readSPins, h]

@[simp] theorem State.readSPins_rst (s : State) (a : SPins) : (s.readSPins a).rst = a.rst := by
  unfold State.readSPins; split <;> rfl
@[simp] theorem State.readSPins_hValid (s : State) (a : SPins) : (s.readSPins a).hValid = a.hValid := by
  unfold State.readSPins; split <;> rfl
@[simp] theorem State.readSPins_hcmd (s : State) (a : SPins) : (s.readSPins a).hcmd = a.hcmd := by
  unfold State.readSPins; split <;> rfl

/-- In a pair the slave reads the master's output registers (20_memory.md R74). -/
theorem State.readSPins_pair (s : State) (a : SPins) (h : s.wiring.slave = .master) :
    (s.readSPins a).csN = s.master.csN ∧ (s.readSPins a).sclk = s.master.sclk ∧
      (s.readSPins a).mosi = s.master.mosi := by
  simp [State.readSPins, h, State.line]

theorem State.sampled_mPins_some (s : State) (t : Tick) (a : MPins) (h : t.m = some a) :
    (s.sampled t).mPins = s.readMPins a := by simp [State.sampled, h]

theorem State.sampled_sPins_some (s : State) (t : Tick) (a : SPins) (h : t.s = some a) :
    (s.sampled t).sPins = s.readSPins a := by simp [State.sampled, h]

theorem State.nextTick_cons (s : State) (t : Tick) (ts : List Tick) (h : s.inputs = t :: ts) : s.nextTick = t := by
  simp [State.nextTick, h]

/-! ## Fetching the sequencers' actions (10_state.md R22, R24, R34) -/

/-- The action a phase names. -/
def MPhase.instr : MPhase → Instr
  | .pAssert => .mSeqPAssert
  | .pDrive => .mSeqPDrive
  | .pSample => .mSeqPSample
  | .pHigh => .mSeqPHigh
  | .pLow => .mSeqPLow
  | .pStore => .mSeqPStore
  | .pDeassert => .mSeqPDeassert
  | .pFinish => .mSeqPFinish

/-- The wait a phase names. -/
def SPhase.instr : SPhase → Instr
  | .wHigh => .sSeqWHigh
  | .wLow => .sSeqWLow

@[simp] theorem decode_mPhase (p : Params) (ph : MPhase) : decode p .mSeq ph.code = .ok ph.instr := by
  cases ph <;> rfl

@[simp] theorem decode_sPhase (p : Params) (ph : SPhase) : decode p .sSeq ph.code = .ok ph.instr := by
  cases ph <;> rfl

@[simp] theorem runDecoded_ok (i : Instr) (s : State) : runDecoded (.ok i) s = exec i s := rfl

@[simp] theorem runDecoded_error (e : DecodeError) (s : State) :
    runDecoded (.error e) s = .refused (.undecodable e) := rfl

/-- The master's sequencer step: idle, one dwell cycle, or the action `m_phase` names (R140, R141). -/
theorem seqM_eq (s : State) :
    seqM s = if s.master.role = .idle then .next s
      else if s.master.dly ≠ 0 then .next { s with master := s.master.dwell }
      else exec s.master.phase.instr s := by
  simp only [seqM, decode_mPhase, runDecoded_ok]

/-- The slave's sequencer step: the edge detector, or the wait `s_phase` names (R170). -/
theorem seqS_eq (s : State) :
    seqS s = if s.slave.role = .idle then slaveIdleStep s else exec s.slave.phase.instr s := by
  simp only [seqS, decode_sPhase, runDecoded_ok]

/-- A tick is the cycles of the blocks it clocks. -/
theorem step_eq (s : State) :
    step s = andThen (if s.nextTick.m.isSome = true then cycleM (s.sampled s.nextTick) else .next (s.sampled s.nextTick))
      (fun s' => if s.nextTick.s.isSome = true then cycleS s' else .next s') := rfl

end Sys2Proof.Machine
end

