-- ==== Sys2Proof/Laws/Cycle.lean ====
section
/-! SUPPORT. Everything one cycle of a block can do, said once: the host step, the sequencer step, the cycle, the step.
Later proofs cite these and do not unfold the step function. -/

namespace Sys2Proof.Machine

/-- What the host step of a cycle does to SPIBB-M (40_host_operations.md section 2). -/
inductive Master.HostStep (p : Params) (a : MPins) (m : Master) : Master → Prop where
  | unchanged
      (start : a.hValid = true → ∀ len wdata, decode p .mHost a.hcmd = .ok (.mStart len wdata) → m.role = .active)
      (load : a.hValid = true → ∀ len wdata, decode p .mHost a.hcmd = .ok (.mLoad len wdata) →
        m.role = .active ∨ p.capM < len)
      (read : a.hValid = true → ∀ len wdata, decode p .mHost a.hcmd = .ok (.mRead len wdata) → m.res = .none) :
      HostStep p a m m
  | load (len : Nat) (wdata : List Byte) (valid : a.hValid = true)
      (word : decode p .mHost a.hcmd = .ok (.mLoad len wdata)) (idle : m.role = .idle) (fits : len ≤ p.capM) :
      HostStep p a m (m.load len (loadBytes len wdata))
  | startEmpty (len : Nat) (wdata : List Byte) (valid : a.hValid = true)
      (word : decode p .mHost a.hcmd = .ok (.mStart len wdata)) (idle : m.role = .idle) (empty : m.txLen = 0) :
      HostStep p a m m.completeEmpty
  | start (len : Nat) (wdata : List Byte) (valid : a.hValid = true)
      (word : decode p .mHost a.hcmd = .ok (.mStart len wdata)) (idle : m.role = .idle) (some : 1 ≤ m.txLen) :
      HostStep p a m m.begin
  | read (len : Nat) (wdata : List Byte) (valid : a.hValid = true)
      (word : decode p .mHost a.hcmd = .ok (.mRead len wdata)) (ready : m.res = .ready) :
      HostStep p a m m.taken

/-- What the sequencer step of a cycle does to SPIBB-M (41_master_sequencer.md R140 to R149). -/
inductive Master.SeqStep (p : Params) (miso : Level) (m : Master) : Master → Prop where
  | idle (idle : m.role = .idle) : SeqStep p miso m m
  | dwell (active : m.role = .active) (dly : m.dly ≠ 0) : SeqStep p miso m m.dwell
  | pAssert (active : m.role = .active) (dly : m.dly = 0) (phase : m.phase = .pAssert) :
      SeqStep p miso m { m with csN := false, bit := 7, acc := 0, phase := .pDrive, dly := p.dSettle }
  | pDrive (active : m.role = .active) (dly : m.dly = 0) (phase : m.phase = .pDrive) (exists_ : m.byte < p.capM) :
      SeqStep p miso m { m with mosi := m.txBit, phase := .pSample, dly := p.dDrive }
  | pSample (active : m.role = .active) (dly : m.dly = 0) (phase : m.phase = .pSample) :
      SeqStep p miso m { m with acc := shiftIn m.acc miso, phase := .pHigh, dly := 0 }
  | pHigh (active : m.role = .active) (dly : m.dly = 0) (phase : m.phase = .pHigh) :
      SeqStep p miso m { m with sclk := true, phase := .pLow, dly := p.dHalf }
  | pLowLast (active : m.role = .active) (dly : m.dly = 0) (phase : m.phase = .pLow) (bit : m.bit = 0) :
      SeqStep p miso m { m with sclk := false, phase := .pStore, dly := p.dHalf }
  | pLowNext (active : m.role = .active) (dly : m.dly = 0) (phase : m.phase = .pLow) (b : Fin 8)
      (bit : b.val + 1 = m.bit.val) :
      SeqStep p miso m { m with sclk := false, bit := b, phase := .pDrive, dly := p.dHalf }
  | pStore (active : m.role = .active) (dly : m.dly = 0) (phase : m.phase = .pStore) (exists_ : m.byte < p.capM) :
      SeqStep p miso m { m with rx := m.rx.write m.byte m.acc, phase := .pDeassert, dly := 0 }
  | pDeassertLast (active : m.role = .active) (dly : m.dly = 0) (phase : m.phase = .pDeassert)
      (last : m.byte + 1 = m.txLen) :
      SeqStep p miso m { m with csN := true, byte := m.byte + 1, dly := p.dGap, phase := .pFinish }
  | pDeassertNext (active : m.role = .active) (dly : m.dly = 0) (phase : m.phase = .pDeassert)
      (next : m.byte + 1 ≠ m.txLen) :
      SeqStep p miso m { m with csN := true, byte := m.byte + 1, dly := p.dGap, phase := .pAssert }
  | pFinish (active : m.role = .active) (dly : m.dly = 0) (phase : m.phase = .pFinish) :
      SeqStep p miso m { m with role := .idle, res := .ready, rxLen := m.txLen, phase := .pAssert }

/-- One cycle of SPIBB-M with the input pins `a`. -/
inductive Master.CycleStep (p : Params) (a : MPins) (m : Master) : Master → Prop where
  | reset (rst : a.rst = true) : CycleStep p a m (Master.afterReset (m.epoch + 1))
  | run (rst : a.rst = false) {h m' : Master} (host : m.HostStep p a h) (seq : h.SeqStep p a.miso m') :
      CycleStep p a m m'

/-- What the host step of a cycle does to SPIBB-S (40_host_operations.md section 3). -/
inductive Slave.HostStep (p : Params) (b : SPins) (x : Slave) : Slave → Prop where
  | unchanged
      (load : b.hValid = true → ∀ len wdata, decode p .sHost b.hcmd = .ok (.sLoad len wdata) →
        x.role = .active ∨ p.capS < len)
      (read : b.hValid = true → ∀ len wdata, decode p .sHost b.hcmd = .ok (.sRead len wdata) → x.res = .none) :
      HostStep p b x x
  | load (len : Nat) (wdata : List Byte) (valid : b.hValid = true)
      (word : decode p .sHost b.hcmd = .ok (.sLoad len wdata)) (idle : x.role = .idle) (fits : len ≤ p.capS) :
      HostStep p b x (x.load len (loadBytes len wdata))
  | read (len : Nat) (wdata : List Byte) (valid : b.hValid = true)
      (word : decode p .sHost b.hcmd = .ok (.sRead len wdata)) (result : x.res ≠ .none) :
      HostStep p b x x.taken

/-- What the sequencer step of a cycle does to SPIBB-S, `cs_prev` apart (42_slave_sequencer.md R170 to R179). -/
inductive Slave.SeqStep (p : Params) (b : SPins) (x : Slave) : Slave → Prop where
  | idle (idle : x.role = .idle) (noEdge : ¬ (x.csPrev = true ∧ b.csN = false)) : SeqStep p b x x
  | start (idle : x.role = .idle) (csPrev : x.csPrev = true) (cs : b.csN = false) : SeqStep p b x x.startSession
  | deselected (active : x.role = .active) (cs : b.csN = true) : SeqStep p b x (x.endSession .ready x.byte)
  | sample (active : x.role = .active) (phase : x.phase = .wHigh) (cs : b.csN = false) (clk : b.sclk = true) :
      SeqStep p b x (x.sample b.mosi)
  | bitDone (active : x.role = .active) (phase : x.phase = .wLow) (cs : b.csN = false) (clk : b.sclk = false)
      (bit : x.bit.val < 7) : SeqStep p b x x.bitDone
  | commit (active : x.role = .active) (phase : x.phase = .wLow) (cs : b.csN = false) (clk : b.sclk = false)
      (bit : x.bit = 7) (room : x.byte + 1 < p.capS) : SeqStep p b x x.commit
  | commitFull (active : x.role = .active) (phase : x.phase = .wLow) (cs : b.csN = false) (clk : b.sclk = false)
      (bit : x.bit = 7) (full : x.byte + 1 = p.capS) : SeqStep p b x (x.commitFull p.capS)
  | miss (active : x.role = .active) (cs : b.csN = false) (clk : b.sclk = decide (x.phase = .wLow))
      (early : x.tmr + 1 ≠ p.timeout) : SeqStep p b x { x with tmr := x.tmr + 1 }
  | deadline (active : x.role = .active) (cs : b.csN = false) (clk : b.sclk = decide (x.phase = .wLow))
      (last : x.tmr + 1 = p.timeout) : SeqStep p b x (x.endSession .incomplete x.byte)

/-- One cycle of SPIBB-S with the input pins `b`. -/
inductive Slave.CycleStep (p : Params) (b : SPins) (x : Slave) : Slave → Prop where
  | reset (rst : b.rst = true) : CycleStep p b x (Slave.afterReset (x.epoch + 1))
  | run (rst : b.rst = false) {h x' : Slave} (host : x.HostStep p b h) (seq : h.SeqStep p b x') :
      CycleStep p b x (x'.sawCs b.csN)

theorem Role.active_of_ne_idle {r : Role} (h : ¬ r = .idle) : r = .active := by cases r <;> simp_all

theorem hostM_cases {s t : State} (h : hostM s = .next t) :
    t = { s with master := t.master, mRsp := t.mRsp } ∧ s.master.HostStep s.params s.mPins t.master := by
  unfold hostM at h
  split at h
  case isFalse hv =>
    cases h
    exact ⟨rfl, .unchanged (fun e => absurd e hv) (fun e => absurd e hv) (fun e => absurd e hv)⟩
  case isTrue hv =>
    cases hd : decode s.params .mHost s.mPins.hcmd with
    | error e => simp [hd] at h
    | ok i =>
      rw [hd, runDecoded_ok] at h
      have port : i.port = .mHost := by
        simp only [decode] at hd
        split at hd
        · cases hd; unfold decodeMHcmd; split <;> rfl
        · cases hd
      cases i <;> simp only [Instr.port, reduceCtorEq] at port <;> simp only [exec] at h
      case mLoad len wdata =>
        unfold execMLoad at h
        split at h
        · cases h
          exact ⟨rfl, .unchanged (fun _ _ _ e => by simp [hd] at e) (fun _ _ _ _ => .inl ‹_›)
            (fun _ _ _ e => by simp [hd] at e)⟩
        · split at h <;> cases h
          · refine ⟨rfl, .unchanged (fun _ _ _ e => by simp [hd] at e) (fun _ _ _ e => .inr ?_)
              (fun _ _ _ e => by simp [hd] at e)⟩
            rw [hd] at e; cases e; assumption
          · refine ⟨rfl, .load len wdata hv hd ?_ (by omega)⟩
            cases hr : s.master.role <;> simp_all
      case mStart len wdata =>
        unfold execMStart at h
        split at h
        · cases h
          exact ⟨rfl, .unchanged (fun _ _ _ _ => ‹_›) (fun _ _ _ e => by simp [hd] at e)
            (fun _ _ _ e => by simp [hd] at e)⟩
        · have hi : s.master.role = .idle := by cases hr : s.master.role <;> simp_all
          split at h <;> cases h
          · exact ⟨rfl, .startEmpty len wdata hv hd hi ‹_›⟩
          · exact ⟨rfl, .start len wdata hv hd hi (by omega)⟩
      case mRead len wdata =>
        unfold execMRead at h
        split at h <;> cases h
        · exact ⟨rfl, .read len wdata hv hd ‹_›⟩
        · refine ⟨rfl, .unchanged (fun _ _ _ e => by simp [hd] at e) (fun _ _ _ e => by simp [hd] at e)
            (fun _ _ _ _ => ?_)⟩
          show s.master.res = .none
          cases hr : s.master.res <;> simp_all
      all_goals
        cases h
        exact ⟨rfl, .unchanged (fun _ _ _ e => by simp [hd] at e) (fun _ _ _ e => by simp [hd] at e)
          (fun _ _ _ e => by simp [hd] at e)⟩

theorem seqM_cases {s t : State} (h : seqM s = .next t) :
    t = { s with master := t.master } ∧ s.master.SeqStep s.params s.mPins.miso t.master := by
  rw [seqM_eq] at h
  split at h
  · cases h; exact ⟨rfl, .idle ‹_›⟩
  · have ha := Role.active_of_ne_idle ‹_›
    split at h
    · cases h; exact ⟨rfl, .dwell ha ‹_›⟩
    · have hd : s.master.dly = 0 := by simpa using ‹¬ s.master.dly ≠ 0›
      rcases hp : s.master.phase <;> simp only [hp, MPhase.instr, exec] at h
      case pAssert => cases h; exact ⟨rfl, .pAssert ha hd hp⟩
      case pDrive =>
        unfold execMSeqPDrive at h
        split at h <;> cases h
        exact ⟨rfl, .pDrive ha hd hp ‹_›⟩
      case pSample => cases h; exact ⟨rfl, .pSample ha hd hp⟩
      case pHigh => cases h; exact ⟨rfl, .pHigh ha hd hp⟩
      case pLow =>
        unfold execMSeqPLow at h
        split at h <;> cases h
        · exact ⟨rfl, .pLowLast ha hd hp ‹_›⟩
        · refine ⟨rfl, .pLowNext ha hd hp _ ?_⟩
          have h0 : s.master.bit ≠ 0 := ‹_›
          have h1 : s.master.bit.val ≠ 0 := fun e => h0 (Fin.ext e)
          rw [Fin.val_sub_one_of_ne_zero h0]
          omega
      case pStore =>
        unfold execMSeqPStore at h
        split at h <;> cases h
        exact ⟨rfl, .pStore ha hd hp ‹_›⟩
      case pDeassert =>
        unfold execMSeqPDeassert at h
        cases h
        by_cases hl : s.master.byte + 1 = s.master.txLen
        · simp only [hl, if_true]
          exact ⟨by simp, by simpa only [← hl] using Master.SeqStep.pDeassertLast ha hd hp hl⟩
        · simp only [hl, if_false]
          exact ⟨by simp, .pDeassertNext ha hd hp hl⟩
      case pFinish => cases h; exact ⟨rfl, .pFinish ha hd hp⟩

/-- Everything a cycle of SPIBB-M can do. -/
theorem cycleM_cases {s t : State} (h : cycleM s = .next t) :
    t = { s with master := t.master, mRsp := t.mRsp } ∧ s.master.CycleStep s.params s.mPins t.master := by
  unfold cycleM at h
  split at h
  · cases h; exact ⟨rfl, .reset ‹_›⟩
  · obtain ⟨r, hr, hs⟩ := andThen_eq_next.1 h
    obtain ⟨e1, h1⟩ := hostM_cases hr
    obtain ⟨e2, h2⟩ := seqM_cases hs
    rw [e1] at h2 e2
    exact ⟨by rw [e2], .run (by simpa using ‹¬ s.mPins.rst = true›) h1 h2⟩

theorem hostS_cases {s t : State} (h : hostS s = .next t) :
    t = { s with slave := t.slave, sRsp := t.sRsp } ∧ s.slave.HostStep s.params s.sPins t.slave := by
  unfold hostS at h
  split at h
  case isFalse hv =>
    cases h
    exact ⟨rfl, .unchanged (fun e => absurd e hv) (fun e => absurd e hv)⟩
  case isTrue hv =>
    cases hd : decode s.params .sHost s.sPins.hcmd with
    | error e => simp [hd] at h
    | ok i =>
      rw [hd, runDecoded_ok] at h
      have port : i.port = .sHost := by
        simp only [decode] at hd
        split at hd
        · cases hd; unfold decodeSHcmd; split <;> rfl
        · cases hd
      cases i <;> simp only [Instr.port, reduceCtorEq] at port <;> simp only [exec] at h
      case sLoad len wdata =>
        unfold execSLoad at h
        split at h
        · cases h
          exact ⟨rfl, .unchanged (fun _ _ _ _ => .inl ‹_›) (fun _ _ _ e => by simp [hd] at e)⟩
        · split at h <;> cases h
          · refine ⟨rfl, .unchanged (fun _ _ _ e => .inr ?_) (fun _ _ _ e => by simp [hd] at e)⟩
            rw [hd] at e; cases e; assumption
          · refine ⟨rfl, .load len wdata hv hd ?_ (by omega)⟩
            cases hr : s.slave.role <;> simp_all
      case sRead len wdata =>
        unfold execSRead at h
        cases hr : s.slave.res <;> simp only [hr, SRes.delivers] at h <;> cases h
        · exact ⟨rfl, .unchanged (fun _ _ _ e => by simp [hd] at e) (fun _ _ _ _ => hr)⟩
        · exact ⟨rfl, .read len wdata hv hd (by simp [hr])⟩
        · exact ⟨rfl, .read len wdata hv hd (by simp [hr])⟩
      all_goals
        cases h
        exact ⟨rfl, .unchanged (fun _ _ _ e => by simp [hd] at e) (fun _ _ _ e => by simp [hd] at e)⟩

/-- A poll that sees neither chip-select HIGH nor the awaited level. -/
theorem Slave.SeqStep.ofPollMiss {p : Params} {b : SPins} {x : Slave} (active : x.role = .active)
    (cs : b.csN = false) (clk : b.sclk = decide (x.phase = .wLow)) : x.SeqStep p b (x.pollMiss p.timeout) := by
  rcases x.pollMiss_cases p.timeout with ⟨h, e⟩ | ⟨h, e⟩ <;> rw [e]
  · exact .deadline active cs clk h
  · exact .miss active cs clk h

theorem seqS_cases {s t : State} (h : seqS s = .next t) :
    ∃ x, s.slave.SeqStep s.params s.sPins x ∧ t = { s with slave := x.sawCs s.sPins.csN } := by
  rw [seqS_eq] at h
  split at h
  · unfold slaveIdleStep at h
    split at h <;> cases h
    · rename_i hc; exact ⟨_, .start ‹_› hc.1 hc.2, rfl⟩
    · exact ⟨_, .idle ‹_› ‹_›, rfl⟩
  · have ha := Role.active_of_ne_idle ‹_›
    rcases hp : s.slave.phase <;> simp only [hp, SPhase.instr, exec] at h
    · unfold execSSeqWHigh at h
      split at h
      · cases h; exact ⟨_, .deselected ha ‹_›, rfl⟩
      · have hcs : s.sPins.csN = false := by simpa using ‹¬ s.sPins.csN = true›
        split at h <;> cases h
        · exact ⟨_, .sample ha hp hcs ‹_›, rfl⟩
        · exact ⟨_, .ofPollMiss ha hcs (by simpa [hp] using ‹¬ s.sPins.sclk = true›), rfl⟩
    · unfold execSSeqWLow at h
      split at h
      · cases h; exact ⟨_, .deselected ha ‹_›, rfl⟩
      · have hcs : s.sPins.csN = false := by simpa using ‹¬ s.sPins.csN = true›
        split at h
        · split at h
          · cases h; exact ⟨_, .bitDone ha hp hcs ‹_› ‹_›, rfl⟩
          · have hb : s.slave.bit = 7 := by
              apply Fin.ext
              have := s.slave.bit.isLt
              show s.slave.bit.val = 7
              omega
            split at h
            · cases h; exact ⟨_, .commit ha hp hcs ‹_› hb ‹_›, rfl⟩
            · split at h <;> cases h
              exact ⟨_, .commitFull ha hp hcs ‹_› hb ‹_›, rfl⟩
        · cases h
          exact ⟨_, .ofPollMiss ha hcs (by simpa [hp] using ‹¬ s.sPins.sclk = false›), rfl⟩

/-- Everything a cycle of SPIBB-S can do. -/
theorem cycleS_cases {s t : State} (h : cycleS s = .next t) :
    t = { s with slave := t.slave, sRsp := t.sRsp } ∧ s.slave.CycleStep s.params s.sPins t.slave := by
  unfold cycleS at h
  split at h
  · cases h; exact ⟨rfl, .reset ‹_›⟩
  · obtain ⟨r, hr, hs⟩ := andThen_eq_next.1 h
    obtain ⟨e1, h1⟩ := hostS_cases hr
    obtain ⟨x, h2, e2⟩ := seqS_cases hs
    subst e2
    rw [e1] at h2 ⊢
    exact ⟨rfl, .run (by simpa using ‹¬ s.sPins.rst = true›) h1 h2⟩

/-- What a step does to SPIBB-M: nothing without a clock edge, else one cycle with the pins as the lines stood. -/
def Master.Stepped (s : State) (m' : Master) : Prop :=
  (s.nextTick.m = none ∧ m' = s.master) ∨
  ∃ a, s.nextTick.m = some a ∧ s.master.CycleStep s.params (s.readMPins a) m'

/-- What a step does to SPIBB-S. -/
def Slave.Stepped (s : State) (x' : Slave) : Prop :=
  (s.nextTick.s = none ∧ x' = s.slave) ∨
  ∃ b, s.nextTick.s = some b ∧ s.slave.CycleStep s.params (s.readSPins b) x'

/-- Everything a step can do. -/
theorem step_cases {s u : State} (h : step s = .next u) :
    u = { s.sampled s.nextTick with master := u.master, mRsp := u.mRsp, slave := u.slave, sRsp := u.sRsp } ∧
    Master.Stepped s u.master ∧ Slave.Stepped s u.slave := by
  rw [step_eq] at h
  obtain ⟨r, hr, hs⟩ := andThen_eq_next.1 h
  have h1 : r = { s.sampled s.nextTick with master := r.master, mRsp := r.mRsp } ∧ Master.Stepped s r.master := by
    split at hr
    · obtain ⟨e, hc⟩ := cycleM_cases hr
      refine ⟨e, .inr ?_⟩
      obtain ⟨a, ha⟩ := Option.isSome_iff_exists.1 ‹s.nextTick.m.isSome = true›
      exact ⟨a, ha, by simpa [State.sampled, ha] using hc⟩
    · cases hr
      exact ⟨rfl, .inl ⟨by simpa using ‹¬ s.nextTick.m.isSome = true›, rfl⟩⟩
  obtain ⟨e1, h1⟩ := h1
  split at hs
  · obtain ⟨e, hc⟩ := cycleS_cases hs
    rw [e1] at e hc
    obtain ⟨b, hb⟩ := Option.isSome_iff_exists.1 ‹s.nextTick.s.isSome = true›
    refine ⟨by rw [e], ?_, .inr ⟨b, hb, ?_⟩⟩
    · rw [e]; exact h1
    · simpa [State.sampled, hb] using hc
  · cases hs
    refine ⟨by rw [e1], h1, .inl ⟨by simpa using ‹¬ s.nextTick.s.isSome = true›, ?_⟩⟩
    rw [e1]; rfl

theorem step_params {s u : State} (h : step s = .next u) : u.params = s.params := by
  rw [(step_cases h).1]; rfl

theorem step_wiring {s u : State} (h : step s = .next u) : u.wiring = s.wiring := by
  rw [(step_cases h).1]; rfl

theorem step_inputs {s u : State} (h : step s = .next u) : u.inputs = s.inputs.tail := by
  rw [(step_cases h).1]; rfl

theorem step_ticks {s u : State} (h : step s = .next u) : u.ticks = s.ticks + 1 := by
  rw [(step_cases h).1]; rfl

/-- A run whose first step answers a next state goes on from it. -/
theorem run_succ {k : Nat} {s t : State} (h : step s = .next t) : core.run (k + 1) s = core.run k t := by
  have h' : core.step s = .next t := h
  simp only [Host.Core.run, h']

@[simp] theorem run_zero (s : State) : core.run 0 s = .next s := rfl

/-! ## The canonical form of the buffers -/

/-- After reset every buffer is in canonical form: nothing is listed. -/
theorem resetWith_buffer_wf (p : Params) (w : Wiring) (b : Buffer) : ((State.resetWith p w).buffer b).wf = true := by
  cases b <;> rfl

/-- The host step of SPIBB-M keeps both buffers in canonical form. -/
theorem Master.HostStep.wf {p : Params} {a : MPins} {m h : Master} (hs : m.HostStep p a h)
    (tx : m.tx.wf = true) (rx : m.rx.wf = true) : h.tx.wf = true ∧ h.rx.wf = true := by
  cases hs with
  | load => exact ⟨Memory.wf_writeBytes _ _ _ tx, rx⟩
  | _ => exact ⟨tx, rx⟩

/-- The sequencer step of SPIBB-M keeps both buffers in canonical form. -/
theorem Master.SeqStep.wf {p : Params} {l : Level} {m h : Master} (hs : m.SeqStep p l h)
    (tx : m.tx.wf = true) (rx : m.rx.wf = true) : h.tx.wf = true ∧ h.rx.wf = true := by
  cases hs with
  | pStore => exact ⟨tx, Memory.wf_write _ _ _ rx⟩
  | _ => exact ⟨tx, rx⟩

/-- The host step of SPIBB-S keeps both buffers in canonical form. -/
theorem Slave.HostStep.wf {p : Params} {b : SPins} {x h : Slave} (hs : x.HostStep p b h)
    (tx : x.tx.wf = true) (rx : x.rx.wf = true) : h.tx.wf = true ∧ h.rx.wf = true := by
  cases hs with
  | load => exact ⟨Memory.wf_writeBytes _ _ _ tx, rx⟩
  | _ => exact ⟨tx, rx⟩

/-- The sequencer step of SPIBB-S keeps both buffers in canonical form. -/
theorem Slave.SeqStep.wf {p : Params} {b : SPins} {x h : Slave} (hs : x.SeqStep p b h)
    (tx : x.tx.wf = true) (rx : x.rx.wf = true) : h.tx.wf = true ∧ h.rx.wf = true := by
  cases hs with
  | commit => exact ⟨tx, Memory.wf_write _ _ _ rx⟩
  | commitFull => exact ⟨tx, Memory.wf_write _ _ _ rx⟩
  | _ => exact ⟨tx, rx⟩

/-! ## When a cycle answers a next state -/

theorem decode_mHost_ok {p : Params} {w : Nat} (h : w < 2 ^ hcmdWidth p.capM) :
    decode p .mHost w = .ok (decodeMHcmd (Hcmd.ofWord p.capM w)) := by simp [decode, h]

theorem decode_sHost_ok {p : Params} {w : Nat} (h : w < 2 ^ hcmdWidth p.capS) :
    decode p .sHost w = .ok (decodeSHcmd (Hcmd.ofWord p.capS w)) := by simp [decode, h]

/-- No host operation of SPIBB-M stops the machine (60_exceptions.md R200). -/
theorem execMHost_next (i : Instr) (h : i.port = .mHost) (s : State) : ∃ t, exec i s = .next t := by
  cases i <;> simp only [Instr.port, reduceCtorEq] at h <;> simp only [exec]
  · exact ⟨_, rfl⟩
  · unfold execMLoad; split
    · exact ⟨_, rfl⟩
    · split <;> exact ⟨_, rfl⟩
  · unfold execMStart; split
    · exact ⟨_, rfl⟩
    · split <;> exact ⟨_, rfl⟩
  · unfold execMRead; split <;> exact ⟨_, rfl⟩
  · exact ⟨_, rfl⟩

/-- No host operation of SPIBB-S stops the machine (60_exceptions.md R200). -/
theorem execSHost_next (i : Instr) (h : i.port = .sHost) (s : State) : ∃ t, exec i s = .next t := by
  cases i <;> simp only [Instr.port, reduceCtorEq] at h <;> simp only [exec]
  · exact ⟨_, rfl⟩
  · unfold execSLoad; split
    · exact ⟨_, rfl⟩
    · split <;> exact ⟨_, rfl⟩
  · exact ⟨_, rfl⟩
  · unfold execSRead; split <;> exact ⟨_, rfl⟩
  · exact ⟨_, rfl⟩

theorem decodeMHcmd_port (h : Hcmd) : (decodeMHcmd h).port = .mHost := by unfold decodeMHcmd; split <;> rfl
theorem decodeSHcmd_port (h : Hcmd) : (decodeSHcmd h).port = .sHost := by unfold decodeSHcmd; split <;> rfl

theorem hostM_next (s : State) (h : s.mPins.hValid = true → s.mPins.hcmd < 2 ^ hcmdWidth s.params.capM) :
    ∃ t, hostM s = .next t := by
  unfold hostM
  split
  · rw [decode_mHost_ok (h ‹_›)]; exact execMHost_next _ (decodeMHcmd_port _) s
  · exact ⟨_, rfl⟩

theorem hostS_next (s : State) (h : s.sPins.hValid = true → s.sPins.hcmd < 2 ^ hcmdWidth s.params.capS) :
    ∃ t, hostS s = .next t := by
  unfold hostS
  split
  · rw [decode_sHost_ok (h ‹_›)]; exact execSHost_next _ (decodeSHcmd_port _) s
  · exact ⟨_, rfl⟩

/-- The master's sequencer step stops only on a byte index the buffer does not have (log 10). -/
theorem seqM_next (s : State) (h : s.master.role = .active → s.master.phase ≠ .pFinish → s.master.byte < s.params.capM) :
    ∃ t, seqM s = .next t := by
  rw [seqM_eq]
  split
  · exact ⟨_, rfl⟩
  · have ha := Role.active_of_ne_idle ‹_›
    split
    · exact ⟨_, rfl⟩
    · have hb := h ha
      rcases hp : s.master.phase <;> simp only [hp, MPhase.instr, exec, ne_eq, reduceCtorEq, not_false_eq_true,
        forall_const] at hb ⊢
      case pDrive => exact ⟨_, if_pos hb⟩
      case pStore => exact ⟨_, if_pos hb⟩
      case pLow => unfold execMSeqPLow; split <;> exact ⟨_, rfl⟩
      all_goals exact ⟨_, rfl⟩

/-- The slave's sequencer step stops only on a byte index the buffer does not have (log 10). -/
theorem seqS_next (s : State) (h : s.slave.role = .active → s.slave.byte < s.params.capS) : ∃ t, seqS s = .next t := by
  rw [seqS_eq]
  split
  · unfold slaveIdleStep; split <;> exact ⟨_, rfl⟩
  · have hb := h (Role.active_of_ne_idle ‹_›)
    rcases hp : s.slave.phase <;> simp only [SPhase.instr, exec]
    · unfold execSSeqWHigh
      split
      · exact ⟨_, rfl⟩
      · split <;> exact ⟨_, rfl⟩
    · unfold execSSeqWLow
      split
      · exact ⟨_, rfl⟩
      · split
        · split
          · exact ⟨_, rfl⟩
          · split
            · exact ⟨_, rfl⟩
            · exact ⟨_, if_pos (by omega)⟩
        · exact ⟨_, rfl⟩

end Sys2Proof.Machine
end

