-- ==== Sys2Proof/Laws/Decode.lean ====
section
/-! SUPPORT. The laws of the command word: its widths, and packing and unpacking its bytes. -/

namespace Sys2Proof

/-- `CAP` itself fits `LW` bits (00_scope.md R6). -/
theorem lt_two_pow_lenBits (cap : Nat) : cap < 2 ^ lenBits cap := Nat.lt_log2_self

@[simp] theorem unpackBytes_length (n w : Nat) : (unpackBytes n w).length = n := by
  induction n generalizing w with
  | zero => rfl
  | succ n ih => simp [unpackBytes, ih]

theorem packBytes_lt (bs : List Byte) : packBytes bs < 2 ^ (8 * bs.length) := by
  induction bs with
  | nil => simp [packBytes]
  | cons b bs ih =>
    have h : 2 ^ (8 * (b :: bs).length) = 256 * 2 ^ (8 * bs.length) := by
      rw [List.length_cons, Nat.mul_add, Nat.mul_one, Nat.pow_add, Nat.mul_comm]
    have := b.isLt
    simp only [packBytes, h]
    omega

/-- Packing then unpacking gives the bytes back. -/
theorem unpackBytes_packBytes (bs : List Byte) : unpackBytes bs.length (packBytes bs) = bs := by
  induction bs with
  | nil => rfl
  | cons b bs ih =>
    have hb := b.isLt
    have h1 : (b.toNat + 256 * packBytes bs) / 256 = packBytes bs := by omega
    simp only [List.length_cons, packBytes, unpackBytes, h1, ih]
    congr 1
    apply BitVec.eq_of_toNat_eq
    simp only [BitVec.toNat_ofNat]
    omega

/-- Unpacking then packing gives the field back. -/
theorem packBytes_unpackBytes (n w : Nat) : packBytes (unpackBytes n w) = w % 2 ^ (8 * n) := by
  induction n generalizing w with
  | zero => simp [unpackBytes, packBytes, Nat.mod_one]
  | succ n ih =>
    have h : 2 ^ (8 * (n + 1)) = 256 * 2 ^ (8 * n) := by
      rw [Nat.mul_add, Nat.mul_one, Nat.pow_add, Nat.mul_comm]
    simp only [unpackBytes, packBytes, ih, h, BitVec.toNat_ofNat]
    rw [Nat.mod_mul]

/-- Byte `i` of a field is its bits `[8*i+7 : 8*i]` (20_memory.md R65). -/
theorem unpackBytes_getElem? (n w i : Nat) (h : i < n) :
    (unpackBytes n w)[i]? = some (BitVec.ofNat 8 (w / 2 ^ (8 * i))) := by
  induction n generalizing w i with
  | zero => omega
  | succ n ih =>
    cases i with
    | zero => simp [unpackBytes]
    | succ i =>
      have h2 : 2 ^ (8 * (i + 1)) = 256 * 2 ^ (8 * i) := by
        rw [Nat.mul_add, Nat.mul_one, Nat.pow_add, Nat.mul_comm]
      simp only [unpackBytes, List.getElem?_cons_succ]
      rw [ih (w / 256) i (by omega), h2, Nat.div_div_eq_div_mul]

/-- A command word's fields fit its port, and so does the word (30_encoding.md R80). -/
theorem Hcmd.word_lt (cap : Nat) (h : Hcmd) (hl : h.len < 2 ^ lenBits cap) (hw : h.wdata.length = cap) :
    h.word cap < 2 ^ hcmdWidth cap := by
  have hop := h.op.isLt
  have hp := packBytes_lt h.wdata
  rw [hw] at hp
  have e : 2 ^ hcmdWidth cap = 8 * 2 ^ lenBits cap * 2 ^ (8 * cap) := by
    rw [hcmdWidth, Nat.pow_add, Nat.pow_add]
  rw [e, Hcmd.word]
  have h1 : h.op.toNat * 2 ^ lenBits cap + h.len + 1 ≤ 8 * 2 ^ lenBits cap := by
    have : (h.op.toNat + 1) * 2 ^ lenBits cap ≤ 8 * 2 ^ lenBits cap := Nat.mul_le_mul_right _ (by omega)
    rw [Nat.add_mul] at this
    omega
  calc (h.op.toNat * 2 ^ lenBits cap + h.len) * 2 ^ (8 * cap) + packBytes h.wdata
      < (h.op.toNat * 2 ^ lenBits cap + h.len) * 2 ^ (8 * cap) + 2 ^ (8 * cap) := by omega
    _ = (h.op.toNat * 2 ^ lenBits cap + h.len + 1) * 2 ^ (8 * cap) := by ring
    _ ≤ 8 * 2 ^ lenBits cap * 2 ^ (8 * cap) := Nat.mul_le_mul_right _ h1

/-- Reading back the fields of a word written from fields that fit. -/
theorem Hcmd.ofWord_word (cap : Nat) (h : Hcmd) (hl : h.len < 2 ^ lenBits cap) (hw : h.wdata.length = cap) :
    Hcmd.ofWord cap (h.word cap) = h := by
  obtain ⟨op, len, wdata⟩ := h
  simp only at hl hw
  have hp := packBytes_lt wdata
  rw [hw] at hp
  have hdiv : ((op.toNat * 2 ^ lenBits cap + len) * 2 ^ (8 * cap) + packBytes wdata) / 2 ^ (8 * cap) =
      op.toNat * 2 ^ lenBits cap + len := by
    rw [Nat.mul_comm, Nat.mul_add_div (by positivity), Nat.div_eq_of_lt hp, Nat.add_zero]
  have hmod : ((op.toNat * 2 ^ lenBits cap + len) * 2 ^ (8 * cap) + packBytes wdata) % 2 ^ (8 * cap) =
      packBytes wdata := by
    rw [Nat.mul_comm, Nat.mul_add_mod, Nat.mod_eq_of_lt hp]
  have hd2 : (op.toNat * 2 ^ lenBits cap + len) / 2 ^ lenBits cap = op.toNat := by
    rw [Nat.mul_comm, Nat.mul_add_div (by positivity), Nat.div_eq_of_lt hl, Nat.add_zero]
  have hm2 : (op.toNat * 2 ^ lenBits cap + len) % 2 ^ lenBits cap = len := by
    rw [Nat.mul_comm, Nat.mul_add_mod, Nat.mod_eq_of_lt hl]
  simp only [Hcmd.ofWord, Hcmd.word, hdiv, hmod, hd2, hm2]
  have hu := unpackBytes_packBytes wdata
  rw [hw] at hu
  simp [hu]

/-- Writing back the fields read from a word of the port's width. -/
theorem Hcmd.word_ofWord (cap w : Nat) (h : w < 2 ^ hcmdWidth cap) : (Hcmd.ofWord cap w).word cap = w := by
  have e : 2 ^ hcmdWidth cap = 8 * 2 ^ lenBits cap * 2 ^ (8 * cap) := by
    rw [hcmdWidth, Nat.pow_add, Nat.pow_add]
  have h3 : w / 2 ^ (8 * cap) / 2 ^ lenBits cap < 8 := by
    rw [Nat.div_lt_iff_lt_mul (by positivity), Nat.div_lt_iff_lt_mul (by positivity), ← e]; exact h
  simp only [Hcmd.ofWord, Hcmd.word, packBytes_unpackBytes, BitVec.toNat_ofNat, Nat.mod_mod]
  rw [Nat.mod_eq_of_lt (b := 2 ^ 3) (by omega), Nat.div_add_mod', Nat.div_add_mod']

/-- The fields of any word fit the port. -/
theorem Hcmd.ofWord_fits (cap w : Nat) :
    operandsFit cap (Hcmd.ofWord cap w).len (Hcmd.ofWord cap w).wdata = true := by
  have : w / 2 ^ (8 * cap) % 2 ^ lenBits cap < 2 ^ lenBits cap := Nat.mod_lt _ (by positivity)
  simp [operandsFit, Hcmd.ofWord, this]

end Sys2Proof
end

