-- ==== Sys2Proof/Laws/PerInstr.lean ====
section
/-! SUPPORT. A family of lemmas, one per constructor of Instr: the word of a well-formed instruction fits its port. -/

namespace Sys2Proof.Laws.EncodeFits

/-- How many values the bits of a port have (30_encoding.md R80, 10_state.md R22, R34). -/
def portSize (p : Params) : Port → Nat
  | .mHost => 2 ^ hcmdWidth p.capM
  | .sHost => 2 ^ hcmdWidth p.capS
  | .mSeq => 8
  | .sSeq => 2

/-- The word of `i` is one its port can carry. -/
def Statement (i : Instr) : Prop := ∀ p : Params, i.wf p = true → encode p i < portSize p i.port

theorem hcmd_fits (cap : Nat) (op : BitVec 3) (len : Nat) (wdata : List Byte) (h : operandsFit cap len wdata = true) :
    Hcmd.word cap { op := op, len := len, wdata := wdata } < 2 ^ hcmdWidth cap := by
  simp only [operandsFit, Bool.and_eq_true, decide_eq_true_eq] at h
  exact Hcmd.word_lt cap _ h.1 h.2

theorem mNop (len : Nat) (wdata : List Byte) : Statement (.mNop len wdata) := fun _ h => hcmd_fits _ _ _ _ h
theorem mLoad (len : Nat) (wdata : List Byte) : Statement (.mLoad len wdata) := fun _ h => hcmd_fits _ _ _ _ h
theorem mStart (len : Nat) (wdata : List Byte) : Statement (.mStart len wdata) := fun _ h => hcmd_fits _ _ _ _ h
theorem mRead (len : Nat) (wdata : List Byte) : Statement (.mRead len wdata) := fun _ h => hcmd_fits _ _ _ _ h
theorem mReserved (op : BitVec 2) (len : Nat) (wdata : List Byte) : Statement (.mReserved op len wdata) :=
  fun _ h => hcmd_fits _ _ _ _ h
theorem sNop (len : Nat) (wdata : List Byte) : Statement (.sNop len wdata) := fun _ h => hcmd_fits _ _ _ _ h
theorem sLoad (len : Nat) (wdata : List Byte) : Statement (.sLoad len wdata) := fun _ h => hcmd_fits _ _ _ _ h
theorem sStart (len : Nat) (wdata : List Byte) : Statement (.sStart len wdata) := fun _ h => hcmd_fits _ _ _ _ h
theorem sRead (len : Nat) (wdata : List Byte) : Statement (.sRead len wdata) := fun _ h => hcmd_fits _ _ _ _ h
theorem sReserved (op : BitVec 2) (len : Nat) (wdata : List Byte) : Statement (.sReserved op len wdata) :=
  fun _ h => hcmd_fits _ _ _ _ h
theorem mSeqPAssert : Statement .mSeqPAssert := fun _ _ => by simp [encode, portSize, Instr.port]
theorem mSeqPDrive : Statement .mSeqPDrive := fun _ _ => by simp [encode, portSize, Instr.port]
theorem mSeqPSample : Statement .mSeqPSample := fun _ _ => by simp [encode, portSize, Instr.port]
theorem mSeqPHigh : Statement .mSeqPHigh := fun _ _ => by simp [encode, portSize, Instr.port]
theorem mSeqPLow : Statement .mSeqPLow := fun _ _ => by simp [encode, portSize, Instr.port]
theorem mSeqPStore : Statement .mSeqPStore := fun _ _ => by simp [encode, portSize, Instr.port]
theorem mSeqPDeassert : Statement .mSeqPDeassert := fun _ _ => by simp [encode, portSize, Instr.port]
theorem mSeqPFinish : Statement .mSeqPFinish := fun _ _ => by simp [encode, portSize, Instr.port]
theorem sSeqWHigh : Statement .sSeqWHigh := fun _ _ => by simp [encode, portSize, Instr.port]
theorem sSeqWLow : Statement .sSeqWLow := fun _ _ => by simp [encode, portSize, Instr.port]

end Sys2Proof.Laws.EncodeFits
end

