-- ==== Sys2Proof/Tests/Slice0.lean ====
section
/-! SUPPORT. Tests on fixed values. Expected values come from spec/: the encodings of 30_encoding.md and spec/opcode_table.json,
and the vectors of 95_test_vectors.md, named at each test. The second half shows, for every obligation with hypotheses, a
concrete state and operands that meet them. -/

namespace Sys2Proof.Tests

open Sys2Proof.Machine

/-! ## Helpers -/

/-- Input pins of SPIBB-M with one command word presented. -/
def cmdM (w : Nat) : MPins := { rst := false, hValid := true, hcmd := w, miso := false }

/-- Input pins of SPIBB-M with nothing presented. -/
def quietM : MPins := { rst := false, hValid := false, hcmd := 0, miso := false }

/-- Input pins of SPIBB-S with one command word presented. -/
def cmdS (w : Nat) : SPins := { rst := false, hValid := true, hcmd := w, sclk := false, csN := true, mosi := false }

/-- Input pins of SPIBB-S with nothing presented and the given line levels, where the environment sets them. -/
def linesS (csN sclk mosi : Level) : SPins :=
  { rst := false, hValid := false, hcmd := 0, sclk := sclk, csN := csN, mosi := mosi }

/-- A lockstep tick with no command. -/
def quiet : Tick := { m := some quietM, s := some (linesS true false false) }

/-- A state with the given blocks and ticks, wired as a pair, with the parameters of the vectors. -/
def pairOf (m : Master) (x : Slave) (ts : List Tick) : State := { State.reset with master := m, slave := x, inputs := ts }

/-- SPIBB-M idle with one byte loaded. -/
def loadedM : Master := { Master.afterReset 0 with tx := [(0, 0xA5)], txLen := 1 }

/-- SPIBB-M at byte 0 of a transfer of `0xA5`, at a phase, a dwell and a bit position, the lines as R89 says. -/
def busyM (ph : MPhase) (dly : Nat) (bit : Fin 8) : Master :=
  { loadedM with
    role := .active, phase := ph, dly := dly, bit := bit, csN := ph.lines.1, sclk := ph.lines.2
    mosi := (0xA5 : Byte).getLsbD bit.val }

/-- SPIBB-S with the response byte `0x3C`, idle, chip-select last seen HIGH. -/
def loadedS : Slave := { Slave.afterReset 0 with tx := [(0, 0x3C)], txLen := 1, csPrev := true }

/-- SPIBB-S in byte 0 of a session. -/
def busyS (ph : SPhase) (bit : Fin 8) (tmr : Nat) : Slave :=
  { loadedS with
    role := .active, phase := ph, bit := bit, tmr := tmr, csPrev := false
    miso := (0x3C : Byte).getLsbD (7 - bit.val) }

/-- The same state with SPIBB-S's lines set by the environment and read as given. -/
def State.reading (s : State) (csN sclk mosi : Level) : State :=
  { s with sPins := linesS csN sclk mosi, wiring := { miso := .slave, slave := .env } }

/-- The state an outcome carries, if it is a next state. -/
def out (o : Host.Outcome State Fault Refusal) : Option State :=
  match o with
  | .next s => some s
  | .fault _ => none
  | .refused _ => none

/-! ## WellFormed: each check refuses an ill-formed term -/

theorem test_wf_len_fits : Instr.wf Params.vectors (.mLoad 7 [1, 2, 3, 4]) = true := by decide
theorem test_wf_len_too_big_m : Instr.wf Params.vectors (.mLoad 8 [1, 2, 3, 4]) = false := by decide
theorem test_wf_len_too_big_s : Instr.wf Params.vectors (.sReserved 0 8 [1, 2, 3, 4]) = false := by decide
theorem test_wf_wdata_short_m : Instr.wf Params.vectors (.mNop 0 [1, 2, 3]) = false := by decide
theorem test_wf_wdata_long_s : Instr.wf Params.vectors (.sRead 0 [1, 2, 3, 4, 5]) = false := by decide
theorem test_wf_every_row :
    ([.mNop 0 [1, 2, 3], .mLoad 8 [1, 2, 3, 4], .mStart 8 [1, 2, 3, 4], .mRead 0 [], .mReserved 1 9 [1, 2, 3, 4],
      .sNop 8 [1, 2, 3, 4], .sLoad 0 [1], .sStart 0 [], .sRead 8 [1, 2, 3, 4], .sReserved 3 0 [1]] : List Instr).all
        (fun i => Instr.wf Params.vectors i = false) = true := by decide

/-- `LW = ceil(log2(CAP + 1))` (R6) at the ends of its range. -/
theorem test_lenBits : lenBits 1 = 1 ∧ lenBits 3 = 2 ∧ lenBits 4 = 3 ∧ lenBits 7 = 3 ∧ lenBits 8 = 4 ∧ lenBits 255 = 8 := by
  decide

/-! ## Decode: words written out from the encodings (R80, R81, R83, R90; R22; R34) -/

/-- `000 lll d…d` -/
theorem test_decode_mNop : decode Params.vectors .mHost 0b00000100000000000000000000000000000001 =
    .ok (.mNop 1 [1, 0, 0, 0]) := by decide
/-- `001 001`, bytes 3, 2, 1, 0 (R90). -/
theorem test_decode_mLoad :
    decode Params.vectors .mHost 0b00100100000000000000000000000001000001 = .ok (.mLoad 1 [0x41, 0, 0, 0]) ∧
    decode Params.vectors .mHost 0x0C44332211 = .ok (.mLoad 4 [0x11, 0x22, 0x33, 0x44]) := by decide
theorem test_decode_mStart : decode Params.vectors .mHost 0b01000000000000000000000000000000000000 =
    .ok (.mStart 0 [0, 0, 0, 0]) := by decide
theorem test_decode_mRead : decode Params.vectors .mHost 0b01100000000000000000000000000000000000 =
    .ok (.mRead 0 [0, 0, 0, 0]) := by decide
/-- The four reserved opcodes `100`, `101`, `110`, `111`. -/
theorem test_decode_mReserved :
    decode Params.vectors .mHost 0b10000000000000000000000000000000000000 = .ok (.mReserved 0 0 [0, 0, 0, 0]) ∧
    decode Params.vectors .mHost 0b10100000000000000000000000000000000000 = .ok (.mReserved 1 0 [0, 0, 0, 0]) ∧
    decode Params.vectors .mHost 0b11000000000000000000000000000000000000 = .ok (.mReserved 2 0 [0, 0, 0, 0]) ∧
    decode Params.vectors .mHost 0b11111111111111111111111111111111111111 =
      .ok (.mReserved 3 7 [0xFF, 0xFF, 0xFF, 0xFF]) := by decide
theorem test_decode_sNop : decode Params.vectors .sHost 0b00000000000000000000000000000000000000 =
    .ok (.sNop 0 [0, 0, 0, 0]) := by decide
theorem test_decode_sLoad : decode Params.vectors .sHost 0b00101000000000000000000000111110100101 =
    .ok (.sLoad 2 [0xA5, 0x0F, 0, 0]) := by decide
theorem test_decode_sStart : decode Params.vectors .sHost 0b01000000000000000000000000000000000000 =
    .ok (.sStart 0 [0, 0, 0, 0]) := by decide
theorem test_decode_sRead : decode Params.vectors .sHost 0b01100000000000000000000000000000000000 =
    .ok (.sRead 0 [0, 0, 0, 0]) := by decide
theorem test_decode_sReserved : decode Params.vectors .sHost 0b11000000000000000000000000000000000000 =
    .ok (.sReserved 2 0 [0, 0, 0, 0]) := by decide
/-- One bit more than the port has pins (R80). -/
theorem test_decode_too_wide : decode Params.vectors .mHost (2 ^ 38) = .error .wordTooWide ∧
    decode Params.vectors .sHost (2 ^ 38) = .error .wordTooWide := by decide
theorem test_decode_mSeq :
    decode Params.vectors .mSeq 0b000 = .ok .mSeqPAssert ∧ decode Params.vectors .mSeq 0b001 = .ok .mSeqPDrive ∧
    decode Params.vectors .mSeq 0b010 = .ok .mSeqPSample ∧ decode Params.vectors .mSeq 0b011 = .ok .mSeqPHigh ∧
    decode Params.vectors .mSeq 0b100 = .ok .mSeqPLow ∧ decode Params.vectors .mSeq 0b101 = .ok .mSeqPStore ∧
    decode Params.vectors .mSeq 0b110 = .ok .mSeqPDeassert ∧ decode Params.vectors .mSeq 0b111 = .ok .mSeqPFinish ∧
    decode Params.vectors .mSeq 0b1000 = .error .noSuchPhase := by decide
theorem test_decode_sSeq :
    decode Params.vectors .sSeq 0 = .ok .sSeqWHigh ∧ decode Params.vectors .sSeq 1 = .ok .sSeqWLow ∧
    decode Params.vectors .sSeq 2 = .error .noSuchPhase := by decide

/-- With `CAP = 1` the word is `3 + 1 + 8` bits (R80). -/
theorem test_decode_cap1 : decode { Params.vectors with capM := 1 } .mHost 0b001101000001 = .ok (.mLoad 1 [0x41]) := by
  decide

/-! ## Encode: the command words of 95_test_vectors.md -/

theorem test_encode_words :
    encode Params.vectors (.mLoad 1 [0x41, 0, 0, 0]) = 0x0900000041 ∧
    encode Params.vectors (.mStart 0 [0, 0, 0, 0]) = 0x1000000000 ∧
    encode Params.vectors (.sRead 0 [0, 0, 0, 0]) = 0x1800000000 ∧
    encode Params.vectors (.mReserved 3 7 [0xFF, 0xFF, 0xFF, 0xFF]) = 0x3FFFFFFFFF := by decide

/-! ## The table's numbers, and a first step from reset -/

theorem test_decodeTableWord :
    decodeTableWord 8 0 = some (.mNop 0 [0, 0, 0, 0]) ∧ decodeTableWord 8 1 = some (.mLoad 0 [0, 0, 0, 0]) ∧
    decodeTableWord 8 2 = some (.mStart 0 [0, 0, 0, 0]) ∧ decodeTableWord 8 3 = some (.mRead 0 [0, 0, 0, 0]) ∧
    decodeTableWord 8 4 = some (.mReserved 0 0 [0, 0, 0, 0]) ∧ decodeTableWord 8 7 = some (.mReserved 3 0 [0, 0, 0, 0]) ∧
    decodeTableWord 8 8 = none := by decide

/-- The first step after reset runs the table's instruction: the responses of P5 cycle 0 and H1 cycles 0, 8. -/
theorem test_withFetchWord :
    ((List.range 8).map (fun w => (out (step (State.reset.withFetchWord 8 w))).map (fun u => u.mRsp.res))) =
      [some .ok, some .ok, some .ok, some .notReady, some .badOp, some .badOp, some .badOp, some .badOp] := by decide

/-! ## One step of each instruction -/

/-- H1 cycle 10. -/
theorem test_mNop : (out (exec (.mNop 0 []) State.reset)).map (fun u => (u.mRsp.res, u.mRsp.rlen)) = some (.ok, 0) := by
  decide
/-- H1 cycle 5 then 7: `TX = AA 55 33 44`, `tx_len = 2`. -/
theorem test_mLoad :
    (out (andThen (exec (.mLoad 4 [0x11, 0x22, 0x33, 0x44]) State.reset) (exec (.mLoad 2 [0xAA, 0x55, 0, 0])))).map
      (fun u => (u.master.tx, u.master.txLen, u.mRsp.res)) =
      some ([(0, 0xAA), (1, 0x55), (2, 0x33), (3, 0x44)], 2, .ok) := by decide
/-- H1 cycle 4: `BAD_LEN`, `TX` unwritten. -/
theorem test_mLoad_badLen : (out (exec (.mLoad 5 [1, 2, 3, 4]) State.reset)).map
    (fun u => (u.master.tx, u.master.txLen, u.mRsp.res)) = some ([], 0, .badLen) := by decide
/-- H1 cycle 1: `res = READY`, `rx_len = 0`, still `IDLE`. -/
theorem test_mStart_empty : (out (exec (.mStart 0 []) State.reset)).map
    (fun u => (u.master.res, u.master.rxLen, u.master.role, u.mRsp.res)) = some (.ready, 0, .idle, .ok) := by decide
/-- P1 cycle 1: START then `P_ASSERT` in the same cycle; `cs_n <- 0`, `m_bit <- 7`, `m_dly <- 3`. -/
theorem test_mStart_step :
    (out (step (pairOf loadedM loadedS [{ m := some (cmdM 0x1000000000), s := none }]))).map
      (fun u => (u.master.role, u.master.phase, u.master.csN, u.master.bit, u.master.dly)) =
      some (.active, .pDrive, false, 7, 3) := by decide
/-- H2 cycle 78: `M.READ -> OK, {0xA5, 0x3C}`, once. -/
theorem test_mRead : (out (exec (.mRead 0 []) (pairOf { Master.afterReset 0 with
      res := .ready, rx := [(0, 0xA5), (1, 0x3C)], rxLen := 2 } loadedS []))).map
    (fun u => (u.mRsp, u.master.res)) =
      some ({ res := .ok, rlen := 2, rdata := [0xA5, 0x3C, 0, 0] }, .none) := by decide
/-- H1 cycle 9. -/
theorem test_mReserved : (out (exec (.mReserved 3 7 [0xFF, 0xFF, 0xFF, 0xFF]) State.reset)).map (fun u => u.mRsp.res) =
    some .badOp := by decide
theorem test_sNop : (out (exec (.sNop 0 []) State.reset)).map (fun u => u.sRsp.res) = some .ok := by decide
/-- H3 cycle 5: `BUSY`, `TX` stays `{0x3C}`. -/
theorem test_sLoad_busy : (out (exec (.sLoad 1 [0xFF, 0, 0, 0]) (pairOf loadedM (busyS .wHigh 0 0) []))).map
    (fun u => (u.sRsp.res, u.slave.tx)) = some (.busy, [(0, 0x3C)]) := by decide
/-- H4 cycle 2: the LOAD is used by the session that starts in the same cycle; `miso <- 1`. -/
theorem test_sLoad_same_cycle :
    (out (step { pairOf loadedM { Slave.afterReset 0 with csPrev := true }
        [{ m := none, s := some { cmdS 0x0900000080 with csN := false } }] with
        wiring := { miso := .slave, slave := .env } })).map
      (fun u => (u.sRsp.res, u.slave.role, u.slave.miso)) = some (.ok, .active, true) := by decide
/-- H3 cycle 7. -/
theorem test_sStart : (out (exec (.sStart 0 []) (pairOf loadedM (busyS .wHigh 0 0) []))).map
    (fun u => (u.sRsp.res, u.slave.role)) = some (.badOp, .active) := by decide
/-- S4 cycle 30: `INCOMPLETE, {}`. -/
theorem test_sRead_incomplete :
    (out (exec (.sRead 0 []) (pairOf loadedM { loadedS with res := .incomplete } []))).map
      (fun u => (u.sRsp, u.slave.res)) = some ({ res := .incomplete, rlen := 0, rdata := [0, 0, 0, 0] }, .none) := by
  decide
/-- H3 cycle 8. -/
theorem test_sReserved : (out (exec (.sReserved 2 0 []) State.reset)).map (fun u => u.sRsp.res) = some .badOp := by decide

/-- P1 cycle 1. -/
theorem test_pAssert : (out (exec .mSeqPAssert (pairOf { busyM .pAssert 0 0 with acc := 0xFF } loadedS []))).map
    (fun u => (u.master.csN, u.master.bit, u.master.acc, u.master.phase, u.master.dly)) =
      some (false, 7, 0, .pDrive, 3) := by decide
/-- M2: `0xA5` gives `1` at bit 7 and `0` at bit 6. -/
theorem test_pDrive :
    (out (exec .mSeqPDrive (pairOf { busyM .pDrive 0 7 with mosi := false } loadedS []))).map (fun u => u.master.mosi) =
      some true ∧
    (out (exec .mSeqPDrive (pairOf { busyM .pDrive 0 6 with mosi := true } loadedS []))).map (fun u => u.master.mosi) =
      some false := by decide
/-- P1 cycle 34: `m_acc` goes from `20` to `41`. -/
theorem test_pSample : (out (exec .mSeqPSample { pairOf { busyM .pSample 0 0 with acc := 0x20 } loadedS [] with
    mPins := { quietM with miso := true } })).map (fun u => (u.master.acc, u.master.phase)) =
      some (0x41, .pHigh) := by decide
/-- P1 cycle 7. -/
theorem test_pHigh : (out (exec .mSeqPHigh (pairOf (busyM .pHigh 0 7) loadedS []))).map
    (fun u => (u.master.sclk, u.master.phase)) = some (true, .pLow) := by decide
/-- P1 cycle 8 and cycle 36. -/
theorem test_pLow :
    (out (exec .mSeqPLow (pairOf (busyM .pLow 0 7) loadedS []))).map
      (fun u => (u.master.sclk, u.master.bit, u.master.phase)) = some (false, 6, .pDrive) ∧
    (out (exec .mSeqPLow (pairOf (busyM .pLow 0 0) loadedS []))).map
      (fun u => (u.master.sclk, u.master.bit, u.master.phase)) = some (false, 0, .pStore) := by decide
/-- P1 cycle 37. -/
theorem test_pStore : (out (exec .mSeqPStore (pairOf { busyM .pStore 0 0 with acc := 0x41 } loadedS []))).map
    (fun u => (u.master.rx, u.master.phase)) = some ([(0, 0x41)], .pDeassert) := by decide
/-- P1 cycle 38; H2 cycle 38, where another byte follows. -/
theorem test_pDeassert :
    (out (exec .mSeqPDeassert (pairOf (busyM .pDeassert 0 0) loadedS []))).map
      (fun u => (u.master.csN, u.master.byte, u.master.phase)) = some (true, 1, .pFinish) ∧
    (out (exec .mSeqPDeassert (pairOf { busyM .pDeassert 0 0 with txLen := 2 } loadedS []))).map
      (fun u => (u.master.csN, u.master.byte, u.master.phase)) = some (true, 1, .pAssert) := by decide
/-- P1 cycle 39. -/
theorem test_pFinish : (out (exec .mSeqPFinish (pairOf { busyM .pFinish 0 0 with byte := 1 } loadedS []))).map
    (fun u => (u.master.role, u.master.res, u.master.rxLen, u.master.phase)) =
      some (.idle, .ready, 1, .pAssert) := by decide
/-- S1: the last sample of `0x12`, `s_acc` from `09` to `12`; `miso` untouched. -/
theorem test_wHigh_sample :
    (out (exec .sSeqWHigh (State.reading (pairOf loadedM { busyS .wHigh 7 2 with acc := 0x09 } []) false true false))).map
      (fun u => (u.slave.acc, u.slave.phase, u.slave.tmr, u.slave.miso)) = some (0x12, .wLow, 0, false) := by decide
/-- S10 (b), with `TIMEOUT = 16`: the last miss ends the session INCOMPLETE. -/
theorem test_wHigh_deadline :
    (out (exec .sSeqWHigh (State.reading (pairOf loadedM (busyS .wHigh 0 15) []) false false false))).map
      (fun u => (u.slave.role, u.slave.res, u.slave.rxLen)) = some (.idle, .incomplete, 0) := by decide
/-- S2 cycle 68, `CAP = 2`: commit and end together. -/
theorem test_wLow_commitFull :
    (out (exec .sSeqWLow (State.reading { pairOf loadedM
        { busyS .wLow 7 0 with byte := 1, acc := 0xAD, rx := [(0, 0xDE)] } [] with
        params := { Params.vectors with capS := 2 } } false false false))).map
      (fun u => (u.slave.role, u.slave.res, u.slave.rxLen, u.slave.rx)) =
      some (.idle, .ready, 2, [(0, 0xDE), (1, 0xAD)]) := by decide
/-- S7: chip-select HIGH is tested before the clock: the complete byte is not committed. -/
theorem test_wLow_deselected :
    (out (exec .sSeqWLow (State.reading (pairOf loadedM { busyS .wLow 7 1 with acc := 0x81 } []) true false false))).map
      (fun u => (u.slave.res, u.slave.rxLen, u.slave.rx)) = some (.ready, 0, []) := by decide

/-! ## Witnesses: states and operands that meet the hypotheses of the obligations -/

/-- SPIBB-M at its first `P_SAMPLE`, the slave waiting for the first rising edge after 3 misses (P1 cycle 6). -/
def sampling : State := pairOf (busyM .pSample 0 7) (busyS .wHigh 0 3) [quiet]

/-- The clock has just gone HIGH and the slave has not seen it yet (P1 cycle 8). -/
def rising : State := pairOf (busyM .pLow 0 7) (busyS .wHigh 0 5) [quiet]

/-- A slave that has missed all but its last poll. -/
def nearDeadline : State := pairOf (busyM .pHigh 0 7) (busyS .wHigh 0 15) [quiet]

/-- A loaded pair, a START presented, then `n` quiet lockstep ticks. -/
def starting (n : Nat) : State :=
  pairOf loadedM loadedS
    ({ m := some (cmdM 0x1000000000), s := some (linesS true false false) } :: List.replicate n quiet)

theorem loadedM_inv : Master.Inv Params.vectors loadedM := by
  constructor <;> (try unfold Memory.writtenBelow) <;> decide

theorem loadedS_inv : Slave.Inv Params.vectors loadedS := by
  constructor <;> (try unfold Memory.writtenBelow) <;> decide

theorem sampling_inv : sampling.Inv :=
  ⟨by decide, by constructor <;> (try unfold Memory.writtenBelow) <;> decide,
    by constructor <;> (try unfold Memory.writtenBelow) <;> decide⟩

theorem rising_inv : rising.Inv :=
  ⟨by decide, by constructor <;> (try unfold Memory.writtenBelow) <;> decide,
    by constructor <;> (try unfold Memory.writtenBelow) <;> decide⟩

theorem nearDeadline_inv : nearDeadline.Inv :=
  ⟨by decide, by constructor <;> (try unfold Memory.writtenBelow) <;> decide,
    by constructor <;> (try unfold Memory.writtenBelow) <;> decide⟩

theorem starting_inv (n : Nat) : (starting n).Inv := ⟨by show Params.vectors.Legal; decide, loadedM_inv, loadedS_inv⟩

theorem quiet_lockstep : quiet.lockstep := ⟨⟨_, rfl, rfl⟩, ⟨_, rfl, rfl⟩⟩

theorem quiet_fits : quiet.fits Params.vectors :=
  ⟨fun a h v => by cases h; exact absurd v (by decide), fun a h v => by cases h; exact absurd v (by decide)⟩

theorem starting_ticks (n : Nat) (t : Tick) (h : t ∈ (starting n).inputs) :
    t.lockstep ∧ t.fits Params.vectors ∧ ∀ b, t.s = some b → b.hValid = false := by
  rcases List.mem_cons.1 h with rfl | h
  · exact ⟨⟨⟨_, rfl, rfl⟩, ⟨_, rfl, rfl⟩⟩,
      ⟨fun a h _ => by cases h; decide, fun a h v => by cases h; exact absurd v (by decide)⟩,
      fun b h => by cases h; rfl⟩
  · rw [List.eq_of_mem_replicate h]
    exact ⟨quiet_lockstep, quiet_fits, fun b h => by cases h; rfl⟩

theorem witness_DecodeOfEncode :
    Instr.wf Params.vectors (.mLoad 7 [0xFF, 0, 1, 0x80]) = true ∧
    Instr.wf { Params.vectors with capS := 1 } (.sReserved 3 1 [0xFF]) = true ∧
    Instr.wf Params.vectors .mSeqPFinish = true ∧ Instr.wf Params.vectors .sSeqWLow = true := by decide

theorem witness_EncodeOfDecode :
    decode Params.vectors .mHost 0x3FFFFFFFFF = .ok (.mReserved 3 7 [0xFF, 0xFF, 0xFF, 0xFF]) ∧
    decode Params.vectors .sHost 0 = .ok (.sNop 0 [0, 0, 0, 0]) ∧
    decode Params.vectors .mSeq 7 = .ok .mSeqPFinish ∧ decode Params.vectors .sSeq 0 = .ok .sSeqWHigh := by decide

/-- The last word each port carries and the first it does not. -/
theorem witness_CommandWordFields :
    2 ^ 38 - 1 < 2 ^ (3 + lenBits Params.vectors.capM + 8 * Params.vectors.capM) ∧
    2 ^ (3 + lenBits Params.vectors.capM + 8 * Params.vectors.capM) ≤ 2 ^ 38 ∧
    2 ^ 38 - 1 < 2 ^ (3 + lenBits Params.vectors.capS + 8 * Params.vectors.capS) ∧
    2 ^ (3 + lenBits Params.vectors.capS + 8 * Params.vectors.capS) ≤ 2 ^ 38 ∧
    1 ≤ 255 ∧ 255 < 2 ^ 8 ∧ lenBits 255 = 8 := by decide

theorem witness_ShiftInEightTimes : [false, true, false, false, false, false, false, true].length = 8 := by decide

theorem witness_StatusWordBits : sampling.Inv ∧ sampling.master.status = 0b001 ∧ sampling.slave.status = 0b001 :=
  ⟨sampling_inv, by decide, by decide⟩

/-- The delivered `{0x41}` of P1 cycle 40: `h_res = 000`, `h_rlen = 1`, `h_rdata = 0x00000041`. -/
theorem witness_ResponseWordFields :
    (let r : Rsp := { res := .ok, rlen := 1, rdata := [0x41, 0, 0, 0] }
     r.rlen < 2 ^ lenBits 4 ∧ r.rdata.length = 4 ∧ r.rdata[3]? = some 0 ∧ r.word 4 = 0x0100000041) := by decide

/-- Legal parameter sets at the ends of their ranges. -/
theorem witness_ResetMeetsInvariant :
    Params.vectors.Legal ∧
    Params.Legal { capM := 1, capS := 255, dSettle := 8, dDrive := 1, dHalf := 2, dGap := 5, timeout := 1 } := by decide

theorem witness_ResetPin :
    (let s := pairOf (busyM .pSample 0 7) (busyS .wHigh 0 3) [{ m := some { cmdM 0 with rst := true }, s := none }]
     s.nextTick.m = some { cmdM 0 with rst := true } ∧ (out (step s)).isSome = true) ∧
    (let s := pairOf (busyM .pSample 0 7) (busyS .wHigh 0 3) [{ quiet with s := some { cmdS 0 with rst := true } }]
     s.nextTick.s = some { cmdS 0 with rst := true } ∧ (out (step s)).isSome = true) ∧
    (pairOf loadedM (busyS .wHigh 0 3) [{ m := none, s := some { cmdS 0 with rst := true } }]).inputs =
      { m := none, s := some { cmdS 0 with rst := true } } :: [] ∧
    ({ cmdM 0 with rst := true } : MPins).rst = true ∧ ({ cmdS 0 with rst := true } : SPins).rst = true := by decide

/-- A command, a number that is none, and no command, to SPIBB-M; the three wirings of `miso`. -/
theorem witness_MasterStepRunsDecodedCommand :
    (pairOf loadedM loadedS [{ m := some (cmdM 0x1000000000), s := none }]).inputs =
      { m := some (cmdM 0x1000000000), s := none } :: [] ∧
    (cmdM 0x1000000000).rst = false ∧ (cmdM 0x1000000000).hValid = true ∧
    decode Params.vectors .mHost (cmdM 0x1000000000).hcmd = .ok (.mStart 0 [0, 0, 0, 0]) ∧
    (cmdM (2 ^ 38)).hValid = true ∧ decode Params.vectors .mHost (cmdM (2 ^ 38)).hcmd = .error .wordTooWide ∧
    quietM.rst = false ∧ quietM.hValid = false ∧
    (pairOf loadedM loadedS []).wiring.miso = .slave ∧
    ({ pairOf loadedM loadedS [] with wiring := { miso := .mosi, slave := .master } }).wiring.miso = .mosi ∧
    ({ pairOf loadedM loadedS [] with wiring := { miso := .env, slave := .master } }).wiring.miso = .env := by decide

/-- The same to SPIBB-S, in both wirings. -/
theorem witness_SlaveStepRunsDecodedCommand :
    (pairOf loadedM loadedS [{ m := none, s := some (cmdS 0x1800000000) }]).inputs =
      { m := none, s := some (cmdS 0x1800000000) } :: [] ∧
    (cmdS 0x1800000000).rst = false ∧ (cmdS 0x1800000000).hValid = true ∧
    decode Params.vectors .sHost (cmdS 0x1800000000).hcmd = .ok (.sRead 0 [0, 0, 0, 0]) ∧
    decode Params.vectors .sHost (cmdS (2 ^ 38)).hcmd = .error .wordTooWide ∧
    (linesS true false false).rst = false ∧ (linesS true false false).hValid = false ∧
    (pairOf loadedM loadedS []).wiring.slave = .master ∧
    (State.reading State.reset true false false).wiring.slave = .env := by decide

/-- Idle, dwelling and acting; the slave idle, with chip-select falling, not seen HIGH yet, and HIGH; and active. -/
theorem witness_SequencerStepsRunDecodedActions :
    State.reset.master.role = .idle ∧
    ((busyM .pDrive 3 7).role = .active ∧ (busyM .pDrive 3 7).dly ≠ 0) ∧
    ((busyM .pDrive 0 7).role = .active ∧ (busyM .pDrive 0 7).dly = 0 ∧
      decode Params.vectors .mSeq (busyM .pDrive 0 7).phase.code = .ok .mSeqPDrive) ∧
    (let s := State.reading (pairOf loadedM loadedS []) false false false
     s.slave.role = .idle ∧ s.slave.csPrev = true ∧ s.sPins.csN = false) ∧
    (State.reset.slave.role = .idle ∧ State.reset.slave.csPrev = false) ∧
    (let s := State.reading (pairOf loadedM loadedS []) true false false
     s.slave.role = .idle ∧ s.sPins.csN = true) ∧
    ((busyS .wLow 0 0).role = .active ∧ decode Params.vectors .sSeq (busyS .wLow 0 0).phase.code = .ok .sSeqWLow) := by
  decide

theorem witness_LockstepReadsThePreviousLevels :
    sampling.inputs = { m := some quietM, s := some (linesS true false false) } :: [] ∧ sampling.wiring = Wiring.pair := by
  decide

theorem witness_BlocksShareOnlyTheLines : (out (cycleM sampling)).isSome = true ∧ (out (cycleS sampling)).isSome = true := by
  decide

/-- The largest word with `h_op = 000`. -/
theorem witness_NopAnswersOk :
    (2 ^ 35 - 1) / 2 ^ (8 * State.reset.params.capM + lenBits State.reset.params.capM) = 0 ∧
    (2 ^ 35 - 1) / 2 ^ (8 * State.reset.params.capS + lenBits State.reset.params.capS) = 0 := by decide

/-- The least and the largest word of the reserved opcodes. -/
theorem witness_ReservedOpcodesAnswerBadOp :
    (2 ^ 37 < 2 ^ hcmdWidth State.reset.params.capM ∧
      4 ≤ 2 ^ 37 / 2 ^ (8 * State.reset.params.capM + lenBits State.reset.params.capM)) ∧
    (2 ^ 38 - 1 < 2 ^ hcmdWidth State.reset.params.capS ∧
      4 ≤ (2 ^ 38 - 1) / 2 ^ (8 * State.reset.params.capS + lenBits State.reset.params.capS)) ∧
    (2 ^ 36 < 2 ^ hcmdWidth State.reset.params.capS ∧
      2 ^ 36 / 2 ^ (8 * State.reset.params.capS + lenBits State.reset.params.capS) = 2) := by decide

/-- The least and the largest accepted length. -/
theorem witness_LoadWritesTx :
    State.reset.master.role = .idle ∧ 0 ≤ State.reset.params.capM ∧ 4 ≤ State.reset.params.capM ∧
    State.reset.slave.role = .idle ∧ 0 ≤ State.reset.params.capS ∧ 4 ≤ State.reset.params.capS ∧
    3 < 4 ∧ ([0x11, 0x22, 0x33, 0x44] : List Byte)[3]? = some 0x44 ∧ State.reset.params.capM < 5 ∧
    State.reset.params.capS < 5 ∧ sampling.master.role = .active ∧ sampling.slave.role = .active := by decide

/-- Active blocks, and the least length that is too long. -/
theorem witness_BusyAndBadLenRefusals :
    sampling.master.role = .active ∧ sampling.slave.role = .active ∧
    State.reset.master.role = .idle ∧ State.reset.params.capM < 5 ∧
    State.reset.slave.role = .idle ∧ State.reset.params.capS < 5 ∧
    (out (exec (.mRead 0 []) State.reset)).isSome = true ∧ (out (exec (.sRead 0 []) State.reset)).isSome = true := by decide

theorem witness_StartBeginsTransfer :
    (loadedM.role = .idle ∧ 0 < loadedM.txLen) ∧ (State.reset.master.role = .idle ∧ State.reset.master.txLen = 0) := by
  decide

/-- P5 cycle 0. -/
theorem witness_ZeroLengthTransferDrivesNothing :
    (let s : State := { State.reset with inputs := [{ m := some (cmdM 0x1000000000), s := none }] }
     s.nextTick.m = some (cmdM 0x1000000000) ∧ s.nextTick.s = none ∧
      (cmdM 0x1000000000).rst = false ∧ (cmdM 0x1000000000).hValid = true ∧
      decode s.params .mHost (cmdM 0x1000000000).hcmd = .ok (.mStart 0 [0, 0, 0, 0]) ∧
      s.master.role = .idle ∧ s.master.txLen = 0 ∧ (out (step s)).isSome = true) := by decide

theorem witness_MasterReadDelivers :
    (let m : Master := { loadedM with res := .ready, rxLen := 1, rx := [(0, 0x41)] }
     m.res = .ready ∧ 0 < 4 ∧ 0 < m.rxLen ∧ (pairOf m loadedS []).readByte .mRx 0 = some 0x41 ∧ m.rxLen ≤ 1) ∧
    State.reset.master.res = .none := by decide

theorem witness_SlaveReadDelivers :
    (let x : Slave := { loadedS with res := .incomplete, rxLen := 1, rx := [(0, 0x77)] }
     x.res ≠ .none ∧ 0 < x.rxLen ∧ (pairOf loadedM x []).readByte .sRx 0 = some 0x77 ∧ x.rxLen ≤ 1) ∧
    State.reset.slave.res = .none := by decide

theorem witness_ReadWhenNotReadyIsIdempotent : State.reset.master.res = .none ∧ State.reset.slave.res = .none := by decide

theorem witness_ResultDeliveredAtMostOnce :
    (out (exec (.mRead 0 []) (pairOf { loadedM with res := .ready } loadedS []))).isSome = true ∧
    (out (exec (.sRead 0 []) (pairOf loadedM { loadedS with res := .ready } []))).isSome = true ∧
    (loadedM.role = .idle ∧ 0 < loadedM.txLen ∧ (out (exec (.mStart 0 []) (starting 0))).isSome = true) ∧
    (loadedS.role = .idle ∧
      (out (seqS (State.reading (starting 0) false false false))).map (fun t => t.slave.role) = some .active) := by decide

theorem witness_MasterHostOperationFrame :
    (Instr.mLoad 1 [0x41, 0, 0, 0]).port = .mHost ∧ (out (exec (.mLoad 1 [0x41, 0, 0, 0]) State.reset)).isSome = true ∧
    (Instr.mRead 0 []).port = .mHost ∧ (out (exec (.mRead 0 []) State.reset)).isSome = true := by decide

theorem witness_SlaveHostOperationFrame :
    (Instr.sLoad 1 [0x41, 0, 0, 0]).port = .sHost ∧ (out (exec (.sLoad 1 [0x41, 0, 0, 0]) State.reset)).isSome = true ∧
    (Instr.sRead 0 []).port = .sHost ∧ (out (exec (.sRead 0 []) State.reset)).isSome = true := by decide

/-- The last byte the buffer has and the first it has not. -/
theorem witness_DrivePutsTheBitOnMosi :
    (let s := pairOf { busyM .pDrive 0 7 with byte := 3, tx := [(3, 0xA5)], txLen := 4 } loadedS []
     s.master.byte < s.params.capM ∧ s.readByte .mTx s.master.byte = some 0xA5) ∧
    (let s := pairOf { busyM .pDrive 0 7 with byte := 4 } loadedS []
     s.params.capM ≤ s.master.byte) := by decide

theorem witness_ClockPulse : (busyM .pLow 0 0).bit = 0 ∧ (6 : Fin 8).val + 1 = (busyM .pLow 0 7).bit.val := by decide

theorem witness_StoreWritesOneByte :
    { busyM .pStore 0 0 with byte := 3 }.byte < Params.vectors.capM ∧
    Params.vectors.capM ≤ { busyM .pStore 0 0 with byte := 4 }.byte := by decide

theorem witness_ChipSelectBracketsTheByte :
    (busyM .pDeassert 0 0).byte + 1 = (busyM .pDeassert 0 0).txLen ∧
    { busyM .pDeassert 0 0 with txLen := 2 }.byte + 1 ≠ { busyM .pDeassert 0 0 with txLen := 2 }.txLen := by decide

theorem witness_MasterActionFrame :
    Instr.mSeqPStore.port = .mSeq ∧ (out (exec .mSeqPStore (pairOf (busyM .pStore 0 0) loadedS []))).isSome = true ∧
    Instr.mSeqPHigh.port = .mSeq ∧ (out (exec .mSeqPHigh sampling)).isSome = true := by decide

theorem witness_FallingChipSelectStartsSession :
    (loadedS.role = .idle ∧ loadedS.csPrev = true ∧ (State.reading (starting 0) false false false).sPins.csN = false) ∧
    (State.reset.slave.role = .idle ∧ State.reset.slave.csPrev = false) ∧
    State.reset.sPins.csN = true := by decide

theorem witness_ResponseBit :
    (0 < loadedS.txLen ∧ (pairOf loadedM loadedS []).readByte .sTx 0 = some 0x3C) ∧ loadedS.txLen ≤ 1 := by decide

theorem witness_ChipSelectThenClockThenDeadline :
    (State.reading nearDeadline true true false).sPins.csN = true ∧
    (let s := State.reading nearDeadline false true false
     s.sPins.csN = false ∧ s.sPins.sclk = true) ∧
    (let s := State.reading (pairOf loadedM { busyS .wLow 7 15 with byte := 3 } []) false false false
     s.sPins.csN = false ∧ s.sPins.sclk = false ∧ s.slave.byte < s.params.capS ∧ s.slave.bit = 7 ∧
      s.slave.byte + 1 = s.params.capS) ∧
    (let s := State.reading (pairOf loadedM { busyS .wLow 7 15 with byte := 2 } []) false false false
     s.slave.byte + 1 < s.params.capS) ∧
    (out (exec .sSeqWHigh (State.reading nearDeadline false false false))).map (fun t => t.slave.res) =
      some .incomplete ∧ nearDeadline.slave.res ≠ .incomplete ∧
    (out (exec .sSeqWHigh (State.reading sampling false false false))).map (fun t => t.slave.tmr) =
      some (sampling.slave.tmr + 1) := by decide

theorem witness_RisingClockSamplesMosi :
    (State.reading rising false true true).sPins.csN = false ∧ (State.reading rising false true true).sPins.sclk = true := by
  decide

theorem witness_FallingClockEndsBitPeriod :
    (State.reading sampling false false false).sPins.csN = false ∧
    (State.reading sampling false false false).sPins.sclk = false ∧
    (7 : Fin 8).val = (busyS .wLow 6 0).bit.val + 1 ∧
    ((busyS .wLow 7 0).bit = 7 ∧ { busyS .wLow 7 0 with byte := 2 }.byte + 1 < Params.vectors.capS) ∧
    { busyS .wLow 7 0 with byte := 3 }.byte + 1 = Params.vectors.capS ∧
    Params.vectors.capS ≤ { busyS .wLow 7 0 with byte := 4 }.byte := by decide

theorem witness_MissedPollsMeetTheDeadline :
    (let s := State.reading nearDeadline false false false
     s.sPins.csN = false ∧ s.sPins.sclk = false ∧ s.slave.tmr + 1 = s.params.timeout) ∧
    (let s := State.reading (pairOf loadedM (busyS .wLow 0 14) []) false true false
     s.sPins.csN = false ∧ s.sPins.sclk = true ∧ s.slave.tmr + 1 ≠ s.params.timeout) := by decide

theorem witness_SlaveActionFrame :
    (out (seqS (State.reading (pairOf loadedM (busyS .wLow 7 0) []) false false false))).map
      (fun t => t.readByte .sRx 0) = some (some 0) ∧
    (out (seqS State.reset)).isSome = true := by decide

theorem witness_StepKeepsInvariant : sampling.Inv ∧ (∃ u, step sampling = .next u) ∧ nearDeadline.Inv ∧
    (∃ u, step nearDeadline = .next u) :=
  ⟨sampling_inv, ⟨_, rfl⟩, nearDeadline_inv, ⟨_, rfl⟩⟩

theorem witness_StepAlwaysAnswersNext : (starting 38).Inv ∧ (starting 38).inputsFit :=
  ⟨starting_inv 38, fun t h => (starting_ticks 38 t h).2.1⟩

/-- A START, and a `P_FINISH`. -/
theorem witness_MasterRoleChanges :
    ((out (step (starting 0))).map (fun u => u.master.role) = some .active ∧ (starting 0).master.role = .idle) ∧
    (let s := pairOf { busyM .pFinish 0 0 with byte := 1 } loadedS [quiet]
     s.master.role = .active ∧ (out (step s)).map (fun u => u.master.role) = some .idle) ∧
    (starting 0).Inv :=
  ⟨by decide, by decide, starting_inv 0⟩

/-- A session start, and an end by each of: chip-select, the full buffer, the deadline. -/
theorem witness_SlaveRoleChanges :
    (let s := pairOf (busyM .pDrive 3 7) loadedS [quiet]
     s.slave.role = .idle ∧ (out (step s)).map (fun u => u.slave.role) = some .active) ∧
    (let s := pairOf loadedM (busyS .wHigh 0 0) [quiet]
     s.slave.role = .active ∧ (out (step s)).map (fun u => u.slave.res) = some .ready) ∧
    (let s := pairOf (busyM .pStore 0 0) { busyS .wLow 7 0 with byte := 3 } [quiet]
     s.slave.role = .active ∧ (out (step s)).map (fun u => u.slave.rxLen) = some 4) ∧
    (nearDeadline.slave.role = .active ∧ (out (step nearDeadline)).map (fun u => u.slave.res) = some .incomplete) := by
  decide

theorem witness_TxImmutableWhileActive : (∃ u, step sampling = .next u) ∧ sampling.master.role = .active ∧
    sampling.slave.role = .active ∧ (∀ a, sampling.nextTick.m = some a → a.rst = false) ∧
    (∀ b, sampling.nextTick.s = some b → b.rst = false) :=
  ⟨⟨_, rfl⟩, rfl, rfl, fun a h => by cases h; rfl, fun b h => by cases h; rfl⟩

/-- A step that stores a byte in the master and commits one in the slave. -/
def storing : State := pairOf { busyM .pStore 0 0 with acc := 0x3C } { busyS .wLow 7 0 with acc := 0xA5 } [quiet]

theorem witness_RxChangesOnlyAtByteBoundary : (∃ u, step storing = .next u ∧
    u.readByte .mRx 0 ≠ storing.readByte .mRx 0 ∧ u.readByte .sRx 0 ≠ storing.readByte .sRx 0) ∧
    (∀ a, storing.nextTick.m = some a → a.rst = false) ∧ (∀ b, storing.nextTick.s = some b → b.rst = false) :=
  ⟨⟨_, rfl, by decide, by decide⟩, fun a h => by cases h; rfl, fun b h => by cases h; rfl⟩

/-- A rising clock, seen by the slave. -/
theorem witness_EdgeConvention : rising.Inv ∧ (∃ u, step rising = .next u ∧ u.line .sclk ≠ rising.line .sclk) ∧
    (∀ a, rising.nextTick.m = some a → a.rst = false) ∧
    (rising.nextTick.s = some (linesS true false false) ∧ (linesS true false false).rst = false ∧
      rising.slave.role = .active ∧ rising.slave.phase = .wHigh ∧
      (rising.readSPins (linesS true false false)).csN = false ∧
      (rising.readSPins (linesS true false false)).sclk = true) :=
  ⟨rising_inv, ⟨_, rfl, by decide⟩, fun a h => by cases h; rfl, by decide⟩

theorem witness_EveryMasterCycleCountsDown :
    (sampling.Inv ∧ sampling.nextTick.runsM ∧ (∃ u, step sampling = .next u) ∧ sampling.master.role = .active) ∧
    ((starting 0).nextTick.runsM ∧ (starting 0).master.role = .idle ∧
      (out (step (starting 0))).map (fun u => u.master.role) = some .active) :=
  ⟨⟨sampling_inv, ⟨_, rfl, rfl⟩, ⟨_, rfl⟩, rfl⟩, ⟨_, rfl, rfl⟩, rfl, by decide⟩

/-- One byte at the vectors' parameters: 38 cycles, exactly as many ticks as needed. -/
theorem witness_TransferTakesExactlyNByteTimes :
    (starting 38).Inv ∧ (starting 38).inputsFit ∧ (starting 38).master.role = .idle ∧ 1 ≤ (starting 38).master.txLen ∧
    (starting 38).nextTick.m = some (cmdM 0x1000000000) ∧ (cmdM 0x1000000000).hValid = true ∧
    decode (starting 38).params .mHost (cmdM 0x1000000000).hcmd = .ok (.mStart 0 [0, 0, 0, 0]) ∧
    (starting 38).master.txLen * (starting 38).params.tByte < (starting 38).inputs.length ∧
    (∀ t ∈ (starting 38).inputs.take ((starting 38).master.txLen * (starting 38).params.tByte + 1), t.runsM) :=
  ⟨starting_inv 38, fun t h => (starting_ticks 38 t h).2.1, rfl, by decide, rfl, rfl, by decide, by decide,
    fun t h => (starting_ticks 38 t (List.mem_of_mem_take h)).1.1⟩

/-- The source's hang scenario, reduced: four bits received, then the environment keeps the clock LOW. The slave's host
asks for its result all the while, and SPIBB-M, not wired to the slave, keeps running. -/
def stuck : State :=
  { pairOf loadedM { busyS .wHigh 4 0 with acc := 0x0B }
      (List.replicate 16 { m := some quietM, s := some { cmdS 0x1800000000 with csN := false } }) with
    wiring := { miso := .slave, slave := .env } }

/-- The same in a pair whose master has lost its clock while the line is HIGH; no tick before the deadline is spare. -/
def stalled : State :=
  pairOf (busyM .pLow 0 3) (busyS .wLow 4 10) (List.replicate 6 { m := none, s := some (cmdS 0x1800000000) })

theorem witness_StuckClockEndsIncomplete :
    (stuck.Inv ∧ stuck.slave.role = .active ∧ stuck.params.timeout - stuck.slave.tmr ≤ stuck.inputs.length ∧
      (∀ t ∈ stuck.inputs.take (stuck.params.timeout - stuck.slave.tmr),
        t.fits stuck.params ∧ (stuck.wiring.slave = .env ∨ t.m = none) ∧
        ∃ b, t.s = some b ∧ b.rst = false ∧ (stuck.readSPins b).csN = false ∧
          (stuck.readSPins b).sclk = decide (stuck.slave.phase = .wLow))) ∧
    (stalled.Inv ∧ stalled.slave.role = .active ∧
      stalled.params.timeout - stalled.slave.tmr ≤ stalled.inputs.length ∧
      (∀ t ∈ stalled.inputs.take (stalled.params.timeout - stalled.slave.tmr),
        t.fits stalled.params ∧ (stalled.wiring.slave = .env ∨ t.m = none) ∧
        ∃ b, t.s = some b ∧ b.rst = false ∧ (stalled.readSPins b).csN = false ∧
          (stalled.readSPins b).sclk = decide (stalled.slave.phase = .wLow))) :=
  ⟨⟨⟨by decide, loadedM_inv, by constructor <;> (try unfold Memory.writtenBelow) <;> decide⟩, rfl, by decide,
    fun t h => by
      rw [List.eq_of_mem_replicate (List.mem_of_mem_take h)]
      exact ⟨⟨fun a h v => by cases h; exact absurd v (by decide), fun a h _ => by cases h; decide⟩, .inl rfl,
        _, rfl, rfl, rfl, rfl⟩⟩,
   ⟨⟨by decide, by constructor <;> (try unfold Memory.writtenBelow) <;> decide,
      by constructor <;> (try unfold Memory.writtenBelow) <;> decide⟩, rfl, by decide,
    fun t h => by
      rw [List.eq_of_mem_replicate (List.mem_of_mem_take h)]
      exact ⟨⟨nofun, fun a h _ => by cases h; decide⟩, .inr rfl, _, rfl, rfl, rfl, rfl⟩⟩⟩

theorem sampling_received (q : Nat → Byte) : sampling.master.Received q :=
  ⟨fun i h => absurd h (Nat.not_lt_zero i), fun j h => absurd h (Nat.not_lt_zero j), fun h => by cases h⟩

/-- The first sample, with the response bit 7 of `0x3C` on `miso`; a START; a `P_FINISH`. -/
theorem witness_MasterReceivesWhatMisoCarries :
    (sampling.Inv ∧ (∃ u, step sampling = .next u) ∧ (∀ a, sampling.nextTick.m = some a → a.rst = false) ∧
      sampling.master.role = .active ∧ sampling.master.Received (fun _ => 0x3C) ∧
      (∀ a, sampling.nextTick.m = some a → sampling.master.dly = 0 → sampling.master.phase = .pSample →
        sampling.misoRead a.miso = (0x3C : Byte).getLsbD sampling.master.bit.val)) ∧
    ((starting 0).master.role = .idle ∧ (out (step (starting 0))).map (fun u => u.master.role) = some .active) :=
  ⟨⟨sampling_inv, ⟨_, rfl⟩, fun a h => by cases h; rfl, rfl, sampling_received _,
    fun a h _ _ => by cases h; decide⟩, by decide⟩

/-- Loopback at the first sample. -/
def looped : State := { sampling with wiring := { miso := .mosi, slave := .master } }

theorem witness_LoopbackReturnsTx :
    looped.Inv ∧ looped.wiring.miso = .mosi ∧ (∃ u, step looped = .next u) ∧
    (∀ a, looped.nextTick.m = some a → a.rst = false) ∧ looped.master.role = .active ∧
    looped.master.Received looped.master.txByte :=
  ⟨⟨sampling_inv.legal, sampling_inv.master, sampling_inv.slave⟩, rfl, ⟨_, rfl⟩, fun a h => by cases h; rfl, rfl,
    sampling_received _⟩

/-- The first rising edge, with bit 7 of `0xA5` on `mosi`; a session start. -/
theorem witness_SlaveReceivesWhatMosiCarries :
    (rising.Inv ∧ (∃ u, step rising = .next u) ∧ (∀ b, rising.nextTick.s = some b → b.rst = false) ∧
      rising.slave.role = .active ∧ rising.slave.Received (fun _ => 0xA5) ∧
      (∀ b, rising.nextTick.s = some b → rising.slave.phase = .wHigh → (rising.readSPins b).csN = false →
        (rising.readSPins b).sclk = true →
        (rising.readSPins b).mosi = (0xA5 : Byte).getLsbD (7 - rising.slave.bit.val)) ∧
      (rising.readSPins (linesS true false false)).sclk = true) ∧
    (let s := pairOf (busyM .pDrive 3 7) loadedS [quiet]
     s.slave.role = .idle ∧ (out (step s)).map (fun u => u.slave.role) = some .active) :=
  ⟨⟨rising_inv, ⟨_, rfl⟩, fun b h => by cases h; rfl, rfl,
    ⟨fun i h => absurd h (Nat.not_lt_zero i), fun j h => absurd h (Nat.not_lt_zero j)⟩,
    fun b h _ _ _ => by cases h; decide, by decide⟩, by decide⟩

theorem sampling_inStep : sampling.InStep := ⟨by decide, ⟨rfl, rfl, rfl, rfl, rfl⟩⟩

theorem rising_inStep : rising.InStep := by
  have h : rising.slave.WaitsHigh 0 5 := ⟨rfl, rfl, rfl, rfl, rfl⟩
  unfold State.InStep
  exact (if_pos rfl).mpr h

theorem witness_LockstepPairStaysInStep :
    sampling.Inv ∧ sampling.params.deadlineBound ∧ sampling.wiring = Wiring.pair ∧ sampling.InStep ∧
    sampling.nextTick.lockstep ∧ ∃ u, step sampling = .next u :=
  ⟨sampling_inv, by unfold Params.deadlineBound; decide, rfl, sampling_inStep, quiet_lockstep, _, rfl⟩

theorem witness_PairInStepExchangesTheSameBit :
    (sampling.Inv ∧ sampling.InStep ∧ sampling.master.role = .active ∧ sampling.master.phase = .pSample ∧
      sampling.master.dly = 0) ∧
    (rising.Inv ∧ rising.InStep ∧ rising.master.role = .active ∧ rising.slave.role = .active ∧
      rising.slave.phase = .wHigh ∧ rising.line .csN = false ∧ rising.line .sclk = true) :=
  ⟨⟨sampling_inv, sampling_inStep, rfl, rfl, rfl⟩, rising_inv, rising_inStep, rfl, rfl, rfl, rfl, rfl⟩

/-- One byte: `0xA5` to the slave, which answers `0x3C`. -/
theorem witness_LockstepTransferExchangesBytes :
    (starting 38).Inv ∧ (starting 38).inputsFit ∧ (starting 38).params.deadlineBound ∧
    (starting 38).wiring = Wiring.pair ∧ (starting 38).InStep ∧ (starting 38).master.role = .idle ∧
    1 ≤ (starting 38).master.txLen ∧ (starting 38).readByte .mTx ((starting 38).master.txLen - 1) = some 0xA5 ∧
    (starting 38).nextTick.m = some (cmdM 0x1000000000) ∧ (cmdM 0x1000000000).hValid = true ∧
    decode (starting 38).params .mHost (cmdM 0x1000000000).hcmd = .ok (.mStart 0 [0, 0, 0, 0]) ∧
    (starting 38).master.txLen * (starting 38).params.tByte < (starting 38).inputs.length ∧
    (∀ t ∈ (starting 38).inputs.take ((starting 38).master.txLen * (starting 38).params.tByte + 1),
      t.lockstep ∧ ∀ b, t.s = some b → b.hValid = false) :=
  ⟨starting_inv 38, fun t h => (starting_ticks 38 t h).2.1, by unfold Params.deadlineBound; decide, rfl, .inl rfl, rfl,
    by decide, by decide, rfl, rfl, by decide, by decide,
    fun t h => ⟨(starting_ticks 38 t (List.mem_of_mem_take h)).1, (starting_ticks 38 t (List.mem_of_mem_take h)).2.2⟩⟩

/-- A quiescent slave exists in both cases of the statement. -/
theorem witness_QuiescentSlave :
    ((starting 0).slave.role = .idle ∧ (starting 0).slave.csPrev = ((starting 0).readSPins (starting 0).sPins).csN) ∧
    (sampling.slave.role = .active ∧ (sampling.readSPins sampling.sPins).csN = false ∧ sampling.slave.csPrev = false ∧
      (sampling.readSPins sampling.sPins).sclk = decide (sampling.slave.phase = .wLow) ∧
      sampling.slave.tmr + 1 ≠ sampling.params.timeout) := by decide

/-- The pair of `sampling`, where only the master's clock has an edge. -/
def samplingAlone : State := { sampling with inputs := [{ m := some quietM, s := none }] }

theorem samplingAlone_keepsUp : samplingAlone.slaveKeepsUp := fun _ _ _ => ⟨_, rfl, rfl⟩

theorem witness_InterleavedPairKeepsInStep :
    samplingAlone.Inv ∧ samplingAlone.wiring = Wiring.pair ∧ samplingAlone.KeepsInStep ∧ samplingAlone.slaveKeepsUp ∧
    (∀ a, samplingAlone.nextTick.m = some a → a.rst = false) ∧
    (∀ b, samplingAlone.nextTick.s = some b → b.rst = false) ∧
    (∃ u, step samplingAlone = .next u ∧ (u.slave.res = .incomplete → samplingAlone.slave.res = .incomplete)) ∧
    samplingAlone.nextTick.runsM ∧ samplingAlone.master.role = .active ∧ samplingAlone.master.dly = 0 ∧
    samplingAlone.master.phase = .pSample :=
  ⟨⟨sampling_inv.legal, sampling_inv.master, sampling_inv.slave⟩, rfl, .inl ⟨rfl, rfl, rfl, rfl, rfl⟩,
    samplingAlone_keepsUp, fun a h => by cases h; rfl, fun b h => absurd h (by simp [samplingAlone, State.nextTick]),
    ⟨_, rfl, by decide⟩, ⟨_, rfl, rfl⟩, rfl, rfl, rfl⟩

end Sys2Proof.Tests
end

section
/-!
O5: what a run of shifts leaves in the accumulator (00_scope.md R12). The run is taken over a list of any length; the
list's reversal puts the last bit shifted in at bit 0.
-/
namespace Sys2Proof.Machine

/-- After `bits` are shifted in, they stand in the low bits with the last one at bit 0, and above them stands what the
starting value held. -/
theorem foldl_shiftIn_getLsbD (acc : Byte) (bits : List Level) (j : Nat) (hj : j < 8) :
    (bits.foldl shiftIn acc).getLsbD j =
      if j < bits.length then bits.reverse.getD j false else acc.getLsbD (j - bits.length) := by
  induction bits using List.reverseRecOn generalizing j with
  | nil => simp
  | append_singleton bits b ih =>
    rw [List.foldl_concat, shiftIn_getLsbD _ _ _ hj, List.reverse_concat, List.length_append, List.length_singleton]
    cases j with
    | zero => simp
    | succ j => simpa using ih j (by omega)

/-- Eight shifts leave exactly the eight bits, the first at bit 7. -/
theorem foldl_shiftIn_getLsbD_of_length_eq_eight (acc : Byte) {bits : List Level} (hlen : bits.length = 8) (j : Nat)
    (hj : j < 8) : (bits.foldl shiftIn acc).getLsbD j = bits.getD (7 - j) false := by
  have hin : j < bits.length := hlen ▸ hj
  rw [foldl_shiftIn_getLsbD acc bits j hj, if_pos hin, List.getD_reverse j hin, hlen]

/-- Settles O5: one shift bit by bit, and eight of them by induction on the list of bits. -/
theorem shiftInEightTimes : Obligations.ShiftInEightTimes := by
  intro acc
  refine ⟨fun b => ⟨?_, fun j hj => ?_⟩, fun bits hlen => foldl_shiftIn_getLsbD_of_length_eq_eight acc hlen⟩
  · rw [shiftIn_getLsbD acc b 0 (by omega), if_pos rfl]
  · rw [shiftIn_getLsbD acc b (j + 1) (by omega), if_neg j.succ_ne_zero, Nat.add_sub_cancel]

end Sys2Proof.Machine
end

section
/-!
O6: the status words bit by bit (10_state.md R31, R43; 30_encoding.md R86). The bits of `statusWord` are said once and
give those of both blocks; that they exclude each other is read off the result slot, which an ACTIVE block holds empty.
-/
namespace Sys2Proof.Machine

theorem statusWord_getLsbD_zero (incomplete ready active : Bool) :
    (statusWord incomplete ready active).getLsbD 0 = active := by
  rw [statusWord, BitVec.getLsbD_append]
  simp

theorem statusWord_getLsbD_one (incomplete ready active : Bool) :
    (statusWord incomplete ready active).getLsbD 1 = ready := by
  rw [statusWord, BitVec.getLsbD_append, BitVec.getLsbD_append]
  simp

theorem statusWord_getLsbD_two (incomplete ready active : Bool) :
    (statusWord incomplete ready active).getLsbD 2 = incomplete := by
  rw [statusWord, BitVec.getLsbD_append, BitVec.getLsbD_append]
  simp

theorem Master.status_getLsbD_zero (m : Master) : m.status.getLsbD 0 = decide (m.role = .active) :=
  statusWord_getLsbD_zero ..

theorem Master.status_getLsbD_one (m : Master) : m.status.getLsbD 1 = decide (m.res = .ready) :=
  statusWord_getLsbD_one ..

theorem Master.status_getLsbD_two (m : Master) : m.status.getLsbD 2 = false :=
  statusWord_getLsbD_two ..

theorem Slave.status_getLsbD_zero (x : Slave) : x.status.getLsbD 0 = decide (x.role = .active) :=
  statusWord_getLsbD_zero ..

theorem Slave.status_getLsbD_one (x : Slave) : x.status.getLsbD 1 = decide (x.res = .ready) :=
  statusWord_getLsbD_one ..

theorem Slave.status_getLsbD_two (x : Slave) : x.status.getLsbD 2 = decide (x.res = .incomplete) :=
  statusWord_getLsbD_two ..

/-- SPIBB-M holds no result while it transfers, so its `ACTIVE` excludes its `READY`. -/
theorem Master.Inv.active_excludes_ready {p : Params} {m : Master} (h : m.Inv p) (hact : m.status.getLsbD 0 = true) :
    m.status.getLsbD 1 = false := by
  rw [Master.status_getLsbD_zero, decide_eq_true_eq] at hact
  rw [Master.status_getLsbD_one, h.activeRes hact]
  rfl

/-- SPIBB-S holds no result during a session, so its `ACTIVE` excludes both bits that name one. -/
theorem Slave.Inv.active_excludes_result {p : Params} {x : Slave} (h : x.Inv p) (hact : x.status.getLsbD 0 = true) :
    x.status.getLsbD 1 = false ∧ x.status.getLsbD 2 = false := by
  rw [Slave.status_getLsbD_zero, decide_eq_true_eq] at hact
  rw [Slave.status_getLsbD_one, Slave.status_getLsbD_two, h.activeRes hact]
  exact ⟨rfl, rfl⟩

/-- `READY` and `INCOMPLETE` name two values of the one slot `S.res`, so no state shows both, reachable or not. -/
theorem Slave.not_ready_and_incomplete (x : Slave) : ¬ (x.status.getLsbD 1 = true ∧ x.status.getLsbD 2 = true) := by
  rw [Slave.status_getLsbD_one, Slave.status_getLsbD_two, decide_eq_true_eq, decide_eq_true_eq]
  rintro ⟨hready, hincomplete⟩
  exact SRes.noConfusion (hready.symm.trans hincomplete)

/-- Settles O6: the bits of each status word, and their exclusions from the result slot in each block's invariant. -/
theorem statusWordBits : Obligations.StatusWordBits := fun s =>
  ⟨s.master.status_getLsbD_zero, s.master.status_getLsbD_one, s.master.status_getLsbD_two,
    s.slave.status_getLsbD_zero, s.slave.status_getLsbD_one, s.slave.status_getLsbD_two,
    fun h => ⟨h.master.active_excludes_ready, h.slave.active_excludes_result, s.slave.not_ready_and_incomplete⟩⟩

end Sys2Proof.Machine
end

section
/-!
O26: the host operations that ignore `h_len` and `h_wdata` (30_encoding.md R84). Each of them has a meaning that is a
function of the state alone, said here once per operation; LOAD is the one whose meaning takes the fields.
-/
namespace Sys2Proof.Machine

@[simp] theorem exec_mNop (len : Nat) (wdata : List Byte) (s : State) : exec (.mNop len wdata) s = execMNop s := rfl

@[simp] theorem exec_mStart (len : Nat) (wdata : List Byte) (s : State) :
    exec (.mStart len wdata) s = execMStart s := rfl

@[simp] theorem exec_mRead (len : Nat) (wdata : List Byte) (s : State) : exec (.mRead len wdata) s = execMRead s := rfl

@[simp] theorem exec_mReserved (op : BitVec 2) (len : Nat) (wdata : List Byte) (s : State) :
    exec (.mReserved op len wdata) s = execMReserved s := rfl

@[simp] theorem exec_sNop (len : Nat) (wdata : List Byte) (s : State) : exec (.sNop len wdata) s = execSNop s := rfl

@[simp] theorem exec_sStart (len : Nat) (wdata : List Byte) (s : State) :
    exec (.sStart len wdata) s = execSStart s := rfl

@[simp] theorem exec_sRead (len : Nat) (wdata : List Byte) (s : State) : exec (.sRead len wdata) s = execSRead s := rfl

@[simp] theorem exec_sReserved (op : BitVec 2) (len : Nat) (wdata : List Byte) (s : State) :
    exec (.sReserved op len wdata) s = execSReserved s := rfl

/-- Settles O26: with either choice of the fields the operation has the same meaning, in which they do not occur. -/
theorem ignoredFieldsHaveNoEffect : Obligations.IgnoredFieldsHaveNoEffect := by
  intro s op l l' d d'
  simp only [exec_mNop, exec_mStart, exec_mRead, exec_mReserved, exec_sNop, exec_sStart, exec_sRead, exec_sReserved,
    and_self]

end Sys2Proof.Machine
end

section
/-!
O18: LOAD, one equation per answer and block (40_host_operations.md R112, R117). What the accepted one leaves in `TX` is
`Memory.read?_load`.
-/
namespace Sys2Proof.Machine

@[simp] theorem exec_mLoad (len : Nat) (wdata : List Byte) (s : State) :
    exec (.mLoad len wdata) s = execMLoad len wdata s := rfl

@[simp] theorem exec_sLoad (len : Nat) (wdata : List Byte) (s : State) :
    exec (.sLoad len wdata) s = execSLoad len wdata s := rfl

theorem execMLoad_of_active {s : State} (hact : s.master.role = .active) (len : Nat) (wdata : List Byte) :
    execMLoad len wdata s = .next (s.answerM .busy) :=
  if_pos hact

theorem execMLoad_of_lt {s : State} {len : Nat} (hidle : s.master.role = .idle) (hlen : s.params.capM < len)
    (wdata : List Byte) : execMLoad len wdata s = .next (s.answerM .badLen) := by
  simp [execMLoad, hidle, hlen]

theorem execMLoad_of_le {s : State} {len : Nat} (hidle : s.master.role = .idle) (hlen : len ≤ s.params.capM)
    (wdata : List Byte) :
    execMLoad len wdata s =
      .next (({ s with master := s.master.load len (loadBytes len wdata) } : State).answerM .ok) := by
  simp [execMLoad, hidle, Nat.not_lt.2 hlen]

theorem execSLoad_of_active {s : State} (hact : s.slave.role = .active) (len : Nat) (wdata : List Byte) :
    execSLoad len wdata s = .next (s.answerS .busy) :=
  if_pos hact

theorem execSLoad_of_lt {s : State} {len : Nat} (hidle : s.slave.role = .idle) (hlen : s.params.capS < len)
    (wdata : List Byte) : execSLoad len wdata s = .next (s.answerS .badLen) := by
  simp [execSLoad, hidle, hlen]

theorem execSLoad_of_le {s : State} {len : Nat} (hidle : s.slave.role = .idle) (hlen : len ≤ s.params.capS)
    (wdata : List Byte) :
    execSLoad len wdata s =
      .next (({ s with slave := s.slave.load len (loadBytes len wdata) } : State).answerS .ok) := by
  simp [execSLoad, hidle, Nat.not_lt.2 hlen]

/-- After a LOAD, `TX` holds at each index below `h_len` the byte the command has there. -/
theorem Memory.read?_load_of_lt (m : Memory) {len i : Nat} {wdata : List Byte} {v : Byte} (hi : i < len)
    (hv : wdata[i]? = some v) : (m.writeBytes 0 (loadBytes len wdata)).read? i = some v := by
  rw [Memory.read?_load, if_pos hi, wdataByte, List.getD_eq_getElem?_getD, hv, Option.getD_some]

/-- A LOAD leaves the bytes from `h_len` on as they were. -/
theorem Memory.read?_load_of_le (m : Memory) {len i : Nat} (wdata : List Byte) (hi : len ≤ i) :
    (m.writeBytes 0 (loadBytes len wdata)).read? i = m.read? i := by
  rw [Memory.read?_load, if_neg (Nat.not_lt.2 hi)]

/-- Settles O18: each block's three answers by their equations, the accepted one's bytes by the reads of a loaded
buffer. -/
theorem loadWritesTx : Obligations.LoadWritesTx := by
  intro s len wdata
  refine ⟨fun hidle hlen => ?_, fun hidle hlen => execMLoad_of_lt hidle hlen wdata,
    fun hact => execMLoad_of_active hact len wdata, fun hidle hlen => ?_,
    fun hidle hlen => execSLoad_of_lt hidle hlen wdata, fun hact => execSLoad_of_active hact len wdata⟩
  · exact ⟨_, execMLoad_of_le hidle hlen wdata, fun _ _ => s.master.tx.read?_load_of_lt,
      fun _ => s.master.tx.read?_load_of_le wdata, rfl⟩
  · exact ⟨_, execSLoad_of_le hidle hlen wdata, fun _ _ => s.slave.tx.read?_load_of_lt,
      fun _ => s.slave.tx.read?_load_of_le wdata, rfl⟩

end Sys2Proof.Machine
end

section
/-!
O24: READ with nothing pending, any number of times (40_host_operations.md R120). The first one answers NOT_READY; the
state it leaves is a fixed point of the next.
-/
namespace Sys2Proof.Machine

theorem execMRead_of_none {s : State} (hres : s.master.res = .none) : execMRead s = .next (s.answerM .notReady) := by
  simp [execMRead, hres]

theorem execSRead_of_none {s : State} (hres : s.slave.res = .none) : execSRead s = .next (s.answerS .notReady) := by
  simp [execSRead, hres, SRes.delivers]

/-- An operation that leaves its own result as it is has, however often it is repeated, the effect of doing it once. -/
theorem iterate_andThen_of_fixed {f : State → Host.Outcome State Fault Refusal} {s t : State} (hfirst : f s = .next t)
    (hfixed : f t = .next t) (n : Nat) : (fun o => andThen o f)^[n + 1] (.next s) = .next t := by
  rw [Function.iterate_succ_apply, andThen_next, hfirst]
  exact Function.iterate_fixed hfixed n

/-- Settles O24: the NOT_READY answer of either block is a fixed point of READ, as it leaves `res` at NONE. -/
theorem readWhenNotReadyIsIdempotent : Obligations.ReadWhenNotReadyIsIdempotent := fun n s _ _ =>
  ⟨fun hres => iterate_andThen_of_fixed (execMRead_of_none hres)
      (execMRead_of_none (s := s.answerM .notReady) hres) n,
    fun hres => iterate_andThen_of_fixed (execSRead_of_none hres)
      (execSRead_of_none (s := s.answerS .notReady) hres) n⟩

end Sys2Proof.Machine
end

section
/-!
O16 and O17: NOP and the reserved opcodes, as instructions and as command words (40_host_operations.md R111, R115, R116,
R119). The opcode of a word is its quotient by the weight of `h_op`, and the opcode maps send it to its row.
-/
namespace Sys2Proof

theorem two_pow_hcmdWidth (cap : Nat) : 2 ^ hcmdWidth cap = 2 ^ 3 * 2 ^ (8 * cap + lenBits cap) := by
  rw [hcmdWidth, Nat.add_assoc, Nat.pow_add, Nat.add_comm (lenBits cap)]

/-- The opcode of a word that fits the port is what stands above `h_len` and `h_wdata` (30_encoding.md R81). -/
theorem Hcmd.ofWord_op_toNat {cap w : Nat} (hw : w < 2 ^ hcmdWidth cap) :
    (Hcmd.ofWord cap w).op.toNat = w / 2 ^ (8 * cap + lenBits cap) := by
  have hop : w / 2 ^ (8 * cap + lenBits cap) < 2 ^ 3 :=
    Nat.div_lt_of_lt_mul (by rwa [Nat.mul_comm, ← two_pow_hcmdWidth])
  rw [Hcmd.ofWord, BitVec.toNat_ofNat, Nat.div_div_eq_div_mul, ← Nat.pow_add, Nat.mod_eq_of_lt hop]

/-- A word with opcode 0 fits the port. -/
theorem lt_two_pow_hcmdWidth_of_op_zero {cap w : Nat} (hop : w / 2 ^ (8 * cap + lenBits cap) = 0) :
    w < 2 ^ hcmdWidth cap := by
  have hlt : w < 2 ^ (8 * cap + lenBits cap) := (Nat.div_eq_zero_iff_lt (by positivity)).1 hop
  rw [two_pow_hcmdWidth]
  omega

theorem decodeMHcmd_of_op_zero {h : Hcmd} (hop : h.op.toNat = 0) : decodeMHcmd h = .mNop h.len h.wdata := by
  simp only [decodeMHcmd, hop]

theorem decodeSHcmd_of_op_zero {h : Hcmd} (hop : h.op.toNat = 0) : decodeSHcmd h = .sNop h.len h.wdata := by
  simp only [decodeSHcmd, hop]

theorem decodeSHcmd_of_op_two {h : Hcmd} (hop : h.op.toNat = 2) : decodeSHcmd h = .sStart h.len h.wdata := by
  simp only [decodeSHcmd, hop]

theorem decodeMHcmd_of_four_le_op {h : Hcmd} (hop : 4 ≤ h.op.toNat) :
    decodeMHcmd h = .mReserved (BitVec.ofNat 2 h.op.toNat) h.len h.wdata := by
  obtain ⟨k, hk⟩ := Nat.exists_eq_add_of_le' hop
  simp only [decodeMHcmd, hk]

theorem decodeSHcmd_of_four_le_op {h : Hcmd} (hop : 4 ≤ h.op.toNat) :
    decodeSHcmd h = .sReserved (BitVec.ofNat 2 h.op.toNat) h.len h.wdata := by
  obtain ⟨k, hk⟩ := Nat.exists_eq_add_of_le' hop
  simp only [decodeSHcmd, hk]

end Sys2Proof

namespace Sys2Proof.Machine

/-- Settles O16: a word with opcode 0 fits its port and decodes to NOP, whose meaning is the answer OK. -/
theorem nopAnswersOk : Obligations.NopAnswersOk := by
  refine fun s len wdata => ⟨rfl, rfl, fun w hop => ?_, fun w hop => ?_⟩
  · have hw := lt_two_pow_hcmdWidth_of_op_zero hop
    rw [decode_mHost_ok hw, runDecoded_ok, decodeMHcmd_of_op_zero ((Hcmd.ofWord_op_toNat hw).trans hop),
      exec_mNop, execMNop]
  · have hw := lt_two_pow_hcmdWidth_of_op_zero hop
    rw [decode_sHost_ok hw, runDecoded_ok, decodeSHcmd_of_op_zero ((Hcmd.ofWord_op_toNat hw).trans hop),
      exec_sNop, execSNop]

/-- Settles O17: a word with a reserved opcode decodes to a reserved row (on SPIBB-S also START), whose meaning is the
answer BAD_OP. -/
theorem reservedOpcodesAnswerBadOp : Obligations.ReservedOpcodesAnswerBadOp := by
  refine fun s op len wdata => ⟨rfl, rfl, rfl, fun w hw hop => ?_, fun w hw hop => ?_⟩
  · rw [← Hcmd.ofWord_op_toNat hw] at hop
    rw [decode_mHost_ok hw, runDecoded_ok, decodeMHcmd_of_four_le_op hop, exec_mReserved, execMReserved]
  · rw [← Hcmd.ofWord_op_toNat hw] at hop
    rw [decode_sHost_ok hw, runDecoded_ok]
    obtain hstart | hreserved := hop
    · rw [decodeSHcmd_of_op_two hstart, exec_sStart, execSStart]
    · rw [decodeSHcmd_of_four_le_op hreserved, exec_sReserved, execSReserved]

end Sys2Proof.Machine
end

section
/-!
O45: how SPIBB-M changes role (41_master_sequencer.md R141, R150). The sequencer leaves an idle block alone, and the
host step leaves an active one alone but for its result, so each change of role has one half of the cycle as its cause.
-/
namespace Sys2Proof.Machine

theorem seqM_of_idle {s : State} (hidle : s.master.role = .idle) : seqM s = .next s := by
  rw [seqM_eq, if_pos hidle]

theorem Master.SeqStep.eq_of_idle {p : Params} {l : Level} {m m' : Master} (hs : m.SeqStep p l m')
    (hidle : m.role = .idle) : m' = m := by
  cases hs with
  | idle => rfl
  | _ => simp_all

/-- A host operation leaves an active SPIBB-M as it is, or takes a pending result (R112, R113, R114). -/
theorem Master.HostStep.eq_or_taken_of_active {p : Params} {a : MPins} {m h : Master} (hs : m.HostStep p a h)
    (hact : m.role = .active) : h = m ∨ h = m.taken := by
  cases hs with
  | unchanged => exact .inl rfl
  | read => exact .inr rfl
  | _ => simp_all

/-- START is the one host operation that makes SPIBB-M active. -/
theorem Master.HostStep.start_of_idle_active {p : Params} {a : MPins} {m h : Master} (hs : m.HostStep p a h)
    (hidle : m.role = .idle) (hact : h.role = .active) :
    0 < m.txLen ∧ a.hValid = true ∧ ∃ len wdata, decode p .mHost a.hcmd = .ok (.mStart len wdata) := by
  cases hs with
  | start len wdata valid word _ some => exact ⟨some, valid, len, wdata, word⟩
  | _ => simp_all

/-- `P_FINISH` is the one sequencer step that makes SPIBB-M idle (R149). -/
theorem Master.SeqStep.finish_of_active_idle {p : Params} {l : Level} {m m' : Master} (hs : m.SeqStep p l m')
    (hact : m.role = .active) (hidle : m'.role = .idle) : m.dly = 0 ∧ m.phase = .pFinish := by
  cases hs with
  | pFinish _ dly phase => exact ⟨dly, phase⟩
  | _ => simp_all

theorem Master.CycleStep.start_of_idle_active {p : Params} {a : MPins} {m m' : Master} (hc : m.CycleStep p a m')
    (hidle : m.role = .idle) (hact : m'.role = .active) :
    0 < m.txLen ∧ a.rst = false ∧ a.hValid = true ∧ ∃ len wdata, decode p .mHost a.hcmd = .ok (.mStart len wdata) := by
  cases hc with
  | reset => cases hact
  | @run rst h _ host seq =>
    cases hrole : h.role with
    | idle =>
      rw [seq.eq_of_idle hrole, hrole] at hact
      cases hact
    | active =>
      obtain ⟨hlen, hvalid, hword⟩ := host.start_of_idle_active hidle hrole
      exact ⟨hlen, rst, hvalid, hword⟩

theorem Master.CycleStep.reset_or_finish_of_active_idle {p : Params} {a : MPins} {m m' : Master}
    (hc : m.CycleStep p a m') (hact : m.role = .active) (hidle : m'.role = .idle) :
    a.rst = true ∨ (m.dly = 0 ∧ m.phase = .pFinish) := by
  cases hc with
  | reset rst => exact .inl rst
  | run _ host seq =>
    obtain rfl | rfl := host.eq_or_taken_of_active hact
    · exact .inr (seq.finish_of_active_idle hact hidle)
    · exact .inr (seq.finish_of_active_idle hact hidle)

/-- Settles O45: a step without a clock edge changes nothing, and one with an edge is a cycle, whose changes of role are
said above. -/
theorem masterRoleChanges : Obligations.MasterRoleChanges := by
  intro s u hstep
  obtain ⟨-, hmaster, -⟩ := step_cases hstep
  refine ⟨fun hidle hact => ?_, fun hact hidle => ?_, seqM_of_idle, fun hinv hidle => ?_⟩
  · obtain ⟨-, heq⟩ | ⟨a, ha, hc⟩ := hmaster
    · simp [heq, hidle] at hact
    · obtain ⟨hlen, hstart⟩ := hc.start_of_idle_active hidle hact
      exact ⟨hlen, a, ha, hstart⟩
  · obtain ⟨-, heq⟩ | ⟨a, ha, hc⟩ := hmaster
    · simp [heq, hact] at hidle
    · exact ⟨a, ha, hc.reset_or_finish_of_active_idle hact hidle⟩
  · obtain ⟨hsclk, hcsN, -⟩ := hinv.master.idleLines hidle
    exact ⟨hsclk, hcsN⟩

end Sys2Proof.Machine
end

section
/-!
O21: a START with nothing to send (40_host_operations.md R113, 41_master_sequencer.md R154). Its cycle is the host step
alone, as the block it leaves is idle; what SPIBB-S does in the same tick reaches neither SPIBB-M nor its response.
-/
namespace Sys2Proof.Machine

theorem hostM_of_decode {s : State} {i : Instr} (hvalid : s.mPins.hValid = true)
    (hdec : decode s.params .mHost s.mPins.hcmd = .ok i) : hostM s = exec i s := by
  rw [hostM, if_pos hvalid, hdec, runDecoded_ok]

theorem execMStart_of_empty {s : State} (hidle : s.master.role = .idle) (hlen : s.master.txLen = 0) :
    execMStart s = .next (({ s with master := s.master.completeEmpty } : State).answerM .ok) := by
  simp [execMStart, hidle, hlen]

theorem cycleM_of_start_empty {s : State} {len : Nat} {wdata : List Byte} (hrst : s.mPins.rst = false)
    (hvalid : s.mPins.hValid = true) (hdec : decode s.params .mHost s.mPins.hcmd = .ok (.mStart len wdata))
    (hidle : s.master.role = .idle) (hlen : s.master.txLen = 0) :
    cycleM s = .next (({ s with master := s.master.completeEmpty } : State).answerM .ok) := by
  rw [cycleM, if_neg (by simp [hrst]), hostM_of_decode hvalid hdec, exec_mStart, execMStart_of_empty hidle hlen,
    andThen_next]
  exact seqM_of_idle hidle

theorem step_of_clocksM {s t : State} {a : MPins} (ha : s.nextTick.m = some a)
    (hc : cycleM (s.sampled s.nextTick) = .next t) :
    step s = if s.nextTick.s.isSome = true then cycleS t else .next t := by
  rw [step_eq, if_pos (by rw [ha]; rfl), hc, andThen_next]

/-- The cycle of SPIBB-S leaves SPIBB-M and its response as they are. -/
theorem cycleS_master_mRsp {s t : State} (hc : cycleS s = .next t) : t.master = s.master ∧ t.mRsp = s.mRsp := by
  rw [(cycleS_cases hc).1]
  exact ⟨rfl, rfl⟩

/-- Settles O21: the cycle of SPIBB-M is known in full, and a cycle of SPIBB-S in the same tick keeps what it left. -/
theorem zeroLengthTransferDrivesNothing : Obligations.ZeroLengthTransferDrivesNothing := by
  intro s a len wdata ha hrst hvalid hdec hidle hlen
  have hpins : (s.sampled s.nextTick).mPins = s.readMPins a := s.sampled_mPins_some _ a ha
  have hstep := step_of_clocksM ha (cycleM_of_start_empty (s := s.sampled s.nextTick) (len := len) (wdata := wdata)
    (by rw [hpins]; exact hrst) (by rw [hpins]; exact hvalid) (by rw [hpins]; exact hdec) hidle hlen)
  refine ⟨fun u hu => ?_, fun hnone => ?_⟩
  · rw [hstep] at hu
    split at hu
    · obtain ⟨hmaster, hrsp⟩ := cycleS_master_mRsp hu
      exact ⟨hmaster, hrsp⟩
    · cases hu
      exact ⟨rfl, rfl⟩
  · rw [hnone] at hstep
    exact ⟨_, hstep, rfl⟩

end Sys2Proof.Machine
end

section
/-!
When a step answers a next state (60_exceptions.md R200, 10_state.md R50): the commands fit their ports, and the byte
index a sequencer stands at is one its buffer has. Each block needs this one fact of its invariant, and the host step of
a cycle keeps it for the sequencer step that follows.
-/
namespace Sys2Proof.Machine

/-- An active SPIBB-M that still has a byte to transfer stands at an index its buffers have. -/
def Master.IndexExists (p : Params) (m : Master) : Prop :=
  m.role = .active → m.phase ≠ .pFinish → m.byte < p.capM

/-- An active SPIBB-S stands at an index its buffers have. -/
def Slave.IndexExists (p : Params) (x : Slave) : Prop := x.role = .active → x.byte < p.capS

theorem Master.Inv.indexExists {p : Params} {m : Master} (h : m.Inv p) : m.IndexExists p := fun hact hphase =>
  (h.activeByte hact hphase).trans_le h.txLenLe

theorem Slave.Inv.indexExists {p : Params} {x : Slave} (h : x.Inv p) : x.IndexExists p := h.activeByte

theorem Master.HostStep.indexExists {p : Params} {a : MPins} {m h : Master} (hs : m.HostStep p a h)
    (hcap : 1 ≤ p.capM) (hm : m.IndexExists p) : h.IndexExists p := by
  cases hs with
  | start => exact fun _ _ => hcap
  | _ => exact hm

theorem Slave.HostStep.indexExists {p : Params} {b : SPins} {x h : Slave} (hs : x.HostStep p b h)
    (hx : x.IndexExists p) : h.IndexExists p := by
  cases hs <;> exact hx

theorem Slave.SeqStep.indexExists {p : Params} {b : SPins} {x x' : Slave} (hs : x.SeqStep p b x')
    (hcap : 1 ≤ p.capS) (hx : x.IndexExists p) : x'.IndexExists p := by
  cases hs with
  | start => exact fun _ => hcap
  | commit _ _ _ _ _ room => exact fun _ => room
  | deselected | commitFull | deadline => exact nofun
  | idle | sample | bitDone | miss => exact hx

theorem Slave.CycleStep.indexExists {p : Params} {b : SPins} {x x' : Slave} (hc : x.CycleStep p b x')
    (hcap : 1 ≤ p.capS) (hx : x.IndexExists p) : x'.IndexExists p := by
  cases hc with
  | reset => exact nofun
  | run _ host seq => exact seq.indexExists hcap (host.indexExists hx)

theorem Slave.Stepped.indexExists {s : State} {x' : Slave} (hx' : Slave.Stepped s x') (hcap : 1 ≤ s.params.capS)
    (hx : s.slave.IndexExists s.params) : x'.IndexExists s.params := by
  obtain ⟨-, rfl⟩ | ⟨b, -, hc⟩ := hx'
  · exact hx
  · exact hc.indexExists hcap hx

theorem cycleM_next {s : State} (hfits : s.mPins.hValid = true → s.mPins.hcmd < 2 ^ hcmdWidth s.params.capM)
    (hcap : 1 ≤ s.params.capM) (hm : s.master.IndexExists s.params) : ∃ t, cycleM s = .next t := by
  rw [cycleM]
  split
  · exact ⟨_, rfl⟩
  · obtain ⟨r, hr⟩ := hostM_next s hfits
    obtain ⟨hframe, host⟩ := hostM_cases hr
    have hparams : r.params = s.params := by rw [hframe]
    rw [hr, andThen_next]
    exact seqM_next r (hparams ▸ host.indexExists hcap hm)

theorem cycleS_next {s : State} (hfits : s.sPins.hValid = true → s.sPins.hcmd < 2 ^ hcmdWidth s.params.capS)
    (hx : s.slave.IndexExists s.params) : ∃ t, cycleS s = .next t := by
  rw [cycleS]
  split
  · exact ⟨_, rfl⟩
  · obtain ⟨r, hr⟩ := hostS_next s hfits
    obtain ⟨hframe, host⟩ := hostS_cases hr
    have hparams : r.params = s.params := by rw [hframe]
    rw [hr, andThen_next]
    exact seqS_next r (hparams ▸ host.indexExists hx)

/-- SPIBB-M's part of a step. -/
theorem stepM_next {s : State} (hcap : 1 ≤ s.params.capM) (hfits : s.nextTick.fits s.params)
    (hm : s.master.IndexExists s.params) :
    ∃ r, (if s.nextTick.m.isSome = true then cycleM (s.sampled s.nextTick)
        else .next (s.sampled s.nextTick)) = .next r ∧
      r = { s.sampled s.nextTick with master := r.master, mRsp := r.mRsp } := by
  split
  · obtain ⟨a, ha⟩ := Option.isSome_iff_exists.1 ‹s.nextTick.m.isSome = true›
    have hpins := s.sampled_mPins_some _ a ha
    obtain ⟨r, hr⟩ := cycleM_next (s := s.sampled s.nextTick) (hpins ▸ hfits.1 a ha) hcap hm
    exact ⟨r, hr, (cycleM_cases hr).1⟩
  · exact ⟨_, rfl, rfl⟩

/-- A step whose commands fit their ports answers a next state from every state whose two byte indices exist. -/
theorem step_next {s : State} (hlegal : s.params.Legal) (hfits : s.nextTick.fits s.params)
    (hm : s.master.IndexExists s.params) (hx : s.slave.IndexExists s.params) : ∃ u, step s = .next u := by
  obtain ⟨r, hr, hframe⟩ := stepM_next hlegal.1 hfits hm
  have hpins : r.sPins = (s.sampled s.nextTick).sPins := by rw [hframe]
  have hparams : r.params = s.params := by rw [hframe]; rfl
  have hslave : r.slave = s.slave := by rw [hframe]; rfl
  rw [step_eq, hr, andThen_next]
  split
  · obtain ⟨b, hb⟩ := Option.isSome_iff_exists.1 ‹s.nextTick.s.isSome = true›
    have hcmd := hfits.2 b hb
    refine cycleS_next ?_ (hslave.symm ▸ hparams.symm ▸ hx)
    rw [hpins, s.sampled_sPins_some _ b hb, hparams]
    simpa using hcmd
  · exact ⟨_, rfl⟩

end Sys2Proof.Machine
end

section
/-!
The countdown of a transfer (70_reset_and_hazards.md R243). `cyclesToFinish` subtracts a phase's offset within its byte
from the bytes left to send; as no offset reaches a whole byte period, the subtraction is exact, and each action's
dwell is the distance between two offsets.
-/
namespace Sys2Proof.Machine

/-- An active SPIBB-M has a byte left to send, or has sent them all and is at `P_FINISH` (10_state.md R50). -/
def Master.Placed (m : Master) : Prop :=
  m.role = .active → (m.phase ≠ .pFinish → m.byte < m.txLen) ∧ (m.phase = .pFinish → m.byte = m.txLen)

theorem Master.Inv.placed {p : Params} {m : Master} (h : m.Inv p) : m.Placed := fun hact =>
  ⟨h.activeByte hact, h.finishByte hact⟩

theorem Master.Placed.indexExists {p : Params} {m : Master} (hm : m.Placed) (hlen : m.txLen ≤ p.capM) :
    m.IndexExists p := fun hact hphase => ((hm hact).1 hphase).trans_le hlen

theorem Master.placed_begin {m : Master} (hlen : 1 ≤ m.txLen) : m.begin.Placed := fun _ => ⟨fun _ => hlen, nofun⟩

theorem Master.SeqStep.placed {p : Params} {l : Level} {m m' : Master} (hs : m.SeqStep p l m') (hm : m.Placed) :
    m'.Placed := by
  cases hs with
  | idle | dwell => exact hm
  | pFinish => exact nofun
  | pDeassertLast _ _ _ last => exact fun _ => ⟨fun hne => absurd rfl hne, fun _ => last⟩
  | pDeassertNext act _ phase next =>
    have hbyte := (hm act).1 (by simp [phase])
    exact fun _ => ⟨fun _ => by simp only; omega, nofun⟩
  | pAssert act _ phase | pDrive act _ phase | pSample act _ phase | pHigh act _ phase | pLowLast act _ phase
  | pLowNext act _ phase | pStore act _ phase =>
    exact fun _ => ⟨fun _ => (hm act).1 (by simp [phase]), nofun⟩

theorem MPhase.offset_lt_tByte (p : Params) (b : Nat) (ph : MPhase) : ph.offset p b < p.tByte := by
  have hbits : (7 - b) * p.tBit ≤ 7 * p.tBit := Nat.mul_le_mul_right _ (Nat.sub_le 7 b)
  have htBit : p.tBit = 2 * p.dHalf + p.dDrive + 4 := rfl
  cases ph <;> simp only [MPhase.offset, Params.tByte] <;> omega

/-- The offset of an active SPIBB-M lies within the bytes it has left to send. -/
theorem Master.Placed.offset_le {p : Params} {m : Master} (hm : m.Placed) (hact : m.role = .active) :
    m.phase.offset p m.bit.val ≤ (m.txLen - m.byte) * p.tByte := by
  by_cases hphase : m.phase = .pFinish
  · simp [hphase, MPhase.offset]
  · have hbyte := (hm hact).1 hphase
    exact (MPhase.offset_lt_tByte p _ _).le.trans (Nat.le_mul_of_pos_left _ (by omega))

/-- The cycles left of a transfer, without subtraction of the offset. -/
theorem Master.cyclesToFinish_add_offset {p : Params} {m : Master} (hact : m.role = .active) (hm : m.Placed) :
    m.cyclesToFinish p + m.phase.offset p m.bit.val = (m.txLen - m.byte) * p.tByte + (1 + m.dly) := by
  have hle := hm.offset_le (p := p) hact
  simp only [Master.cyclesToFinish, hact]
  omega

theorem Master.cyclesToFinish_of_idle {p : Params} {m : Master} (hidle : m.role = .idle) : m.cyclesToFinish p = 0 := by
  rw [Master.cyclesToFinish, hidle]

theorem Master.cyclesToFinish_eq_zero_iff {p : Params} {m : Master} (hm : m.Placed) :
    m.cyclesToFinish p = 0 ↔ m.role = .idle := by
  refine ⟨fun hzero => ?_, Master.cyclesToFinish_of_idle⟩
  by_contra hne
  have hact := Role.active_of_ne_idle hne
  have hsum := Master.cyclesToFinish_add_offset (p := p) hact hm
  have hle := hm.offset_le (p := p) hact
  omega

/-- A transfer that begins has all its bytes and `P_FINISH` before it. -/
theorem Master.cyclesToFinish_begin (p : Params) (m : Master) : m.begin.cyclesToFinish p = m.txLen * p.tByte + 1 := by
  simp [Master.cyclesToFinish, MPhase.offset]

/-- An action that stays in its byte, and dwells up to the offset of the next one, takes one cycle. -/
theorem Master.cyclesToFinish_of_sameByte {p : Params} {m m' : Master} (hact : m.role = .active) (hm : m.Placed)
    (hact' : m'.role = .active) (hm' : m'.Placed) (hdly : m.dly = 0) (hlen : m'.txLen = m.txLen)
    (hbyte : m'.byte = m.byte)
    (hoffset : m'.phase.offset p m'.bit.val = m.phase.offset p m.bit.val + (m'.dly + 1)) :
    m'.cyclesToFinish p + 1 = m.cyclesToFinish p := by
  have hsum := Master.cyclesToFinish_add_offset (p := p) hact hm
  have hsum' := Master.cyclesToFinish_add_offset (p := p) hact' hm'
  rw [hlen, hbyte] at hsum'
  omega

/-- `P_DEASSERT` and its dwell end the byte period: what follows has one byte less to send and no offset. -/
theorem Master.cyclesToFinish_of_nextByte {p : Params} {m m' : Master} (hact : m.role = .active) (hm : m.Placed)
    (hact' : m'.role = .active) (hm' : m'.Placed) (hdly : m.dly = 0) (hphase : m.phase = .pDeassert)
    (hlen : m'.txLen = m.txLen) (hbyte : m'.byte = m.byte + 1) (hoffset : m'.phase.offset p m'.bit.val = 0)
    (hdly' : m'.dly = p.dGap) : m'.cyclesToFinish p + 1 = m.cyclesToFinish p := by
  have hsum := Master.cyclesToFinish_add_offset (p := p) hact hm
  have hsum' := Master.cyclesToFinish_add_offset (p := p) hact' hm'
  have hlt := (hm hact).1 (by simp [hphase])
  have hbytes : m.txLen - m.byte = m.txLen - (m.byte + 1) + 1 := by omega
  have hperiod : MPhase.offset p m.bit.val .pDeassert + (p.dGap + 1) = p.tByte := by
    simp only [MPhase.offset, Params.tByte]
    omega
  rw [hphase, hbytes, Nat.succ_mul] at hsum
  rw [hlen, hbyte, hoffset, hdly'] at hsum'
  omega

/-- `P_FINISH` is the last cycle. -/
theorem Master.cyclesToFinish_of_finish {p : Params} {m : Master} (hact : m.role = .active) (hm : m.Placed)
    (hdly : m.dly = 0) (hphase : m.phase = .pFinish) : m.cyclesToFinish p = 1 := by
  have hsum := Master.cyclesToFinish_add_offset (p := p) hact hm
  simpa [hphase, (hm hact).2 hphase, MPhase.offset, hdly] using hsum

theorem Master.cyclesToFinish_dwell {p : Params} {m : Master} (hact : m.role = .active) (hm : m.Placed)
    (hdly : m.dly ≠ 0) : m.dwell.cyclesToFinish p + 1 = m.cyclesToFinish p := by
  have hsum := Master.cyclesToFinish_add_offset (p := p) hact hm
  have hsum' : m.dwell.cyclesToFinish p + m.phase.offset p m.bit.val =
      (m.txLen - m.byte) * p.tByte + (1 + (m.dly - 1)) := Master.cyclesToFinish_add_offset (m := m.dwell) hact hm
  omega

/-- Every sequencer step of an active SPIBB-M brings it one cycle nearer to the end of `P_FINISH`. -/
theorem Master.SeqStep.cyclesToFinish {p : Params} {l : Level} {m m' : Master} (hs : m.SeqStep p l m')
    (hact : m.role = .active) (hm : m.Placed) : m'.cyclesToFinish p + 1 = m.cyclesToFinish p := by
  have hm' := hs.placed hm
  have htBit : p.tBit = 2 * p.dHalf + p.dDrive + 4 := rfl
  cases hs with
  | idle idle => simp [hact] at idle
  | dwell _ dly => exact Master.cyclesToFinish_dwell hact hm dly
  | pFinish _ dly phase =>
    rw [Master.cyclesToFinish_of_finish hact hm dly phase, Master.cyclesToFinish_of_idle rfl]
  | pDeassertLast _ dly phase | pDeassertNext _ dly phase =>
    exact Master.cyclesToFinish_of_nextByte hact hm hact hm' dly phase rfl rfl rfl rfl
  | pLowNext _ dly phase b bit =>
    have hbits : 7 - b.val = 7 - m.bit.val + 1 := by omega
    refine Master.cyclesToFinish_of_sameByte hact hm hact hm' dly rfl rfl ?_
    simp only [phase, MPhase.offset, hbits, Nat.succ_mul]
    omega
  | pLowLast _ dly phase bit =>
    refine Master.cyclesToFinish_of_sameByte hact hm hact hm' dly rfl rfl ?_
    rw [phase, bit]
    simp only [MPhase.offset, Fin.val_zero]
    omega
  | pAssert _ dly phase =>
    exact Master.cyclesToFinish_of_sameByte hact hm hact hm' dly rfl rfl (by simp [phase, MPhase.offset])
  | pDrive _ dly phase | pSample _ dly phase | pHigh _ dly phase | pStore _ dly phase =>
    exact Master.cyclesToFinish_of_sameByte hact hm hact hm' dly rfl rfl (by rw [phase]; rfl)

end Sys2Proof.Machine
end

section
/-!
O51: a run of a transfer. What holds `k` cycles before the end of `P_FINISH` is an invariant that every tick moves from
`k + 1` to `k`, so a run over any list of ticks without a reset of SPIBB-M counts down by the list's length.
-/
namespace Sys2Proof.Machine

/-- SPIBB-M is `k` cycles before the end of the `P_FINISH` of a transfer of `n` bytes, or past it if `k` is 0. -/
structure Master.FinishesIn (p : Params) (n k : Nat) (m : Master) : Prop where
  cycles : m.cyclesToFinish p = k
  placed : m.Placed
  len : m.txLen = n
  finished : m.role = .idle → m.res = .ready ∧ m.rxLen = n

theorem Master.FinishesIn.idle {p : Params} {n : Nat} {m : Master} (h : m.FinishesIn p n 0) : m.role = .idle :=
  (Master.cyclesToFinish_eq_zero_iff h.placed).1 h.cycles

theorem Master.FinishesIn.active {p : Params} {n k : Nat} {m : Master} (h : m.FinishesIn p n k) (hk : 0 < k) :
    m.role = .active := by
  refine Role.active_of_ne_idle fun hidle => ?_
  rw [← h.cycles, Master.cyclesToFinish_of_idle hidle] at hk
  omega

theorem Master.SeqStep.txLen {p : Params} {l : Level} {m m' : Master} (hs : m.SeqStep p l m') :
    m'.txLen = m.txLen := by
  cases hs <;> rfl

theorem Master.SeqStep.result_of_active_idle {p : Params} {l : Level} {m m' : Master} (hs : m.SeqStep p l m')
    (hact : m.role = .active) (hidle : m'.role = .idle) : m'.res = .ready ∧ m'.rxLen = m.txLen := by
  cases hs with
  | pFinish => exact ⟨rfl, rfl⟩
  | _ => simp_all

theorem Master.SeqStep.finishesIn {p : Params} {l : Level} {m m' : Master} {k : Nat} (hs : m.SeqStep p l m')
    (hact : m.role = .active) (hm : m.Placed) (hk : m.cyclesToFinish p = k + 1) : m'.FinishesIn p m.txLen k where
  cycles := Nat.succ_injective ((hs.cyclesToFinish hact hm).trans hk)
  placed := hs.placed hm
  len := hs.txLen
  finished := hs.result_of_active_idle hact

/-- The cycle of an accepted START has `P_ASSERT` in it already, so `N * T_BYTE` cycles are left of it (R113, R243). -/
theorem Master.CycleStep.finishesIn_of_start {p : Params} {a : MPins} {m m' : Master} {len : Nat} {wdata : List Byte}
    (hc : m.CycleStep p a m') (hrst : a.rst = false) (hvalid : a.hValid = true)
    (hdec : decode p .mHost a.hcmd = .ok (.mStart len wdata)) (hidle : m.role = .idle) (hlen : 1 ≤ m.txLen) :
    m'.FinishesIn p m.txLen (m.txLen * p.tByte) := by
  cases hc with
  | reset rst => simp [hrst] at rst
  | run _ host seq =>
    cases host with
    | start => exact seq.finishesIn rfl (Master.placed_begin hlen) (Master.cyclesToFinish_begin p m)
    | unchanged start => simp [start hvalid len wdata hdec] at hidle
    | startEmpty _ _ _ _ _ empty => omega
    | load _ _ _ word | read _ _ _ word => simp [hdec] at word

theorem Master.CycleStep.finishesIn {p : Params} {a : MPins} {m m' : Master} {n k : Nat} (hc : m.CycleStep p a m')
    (hrst : a.rst = false) (hm : m.FinishesIn p n (k + 1)) : m'.FinishesIn p n k := by
  have hact := hm.active (Nat.succ_pos k)
  obtain ⟨hcycles, hplaced, rfl, -⟩ := hm
  cases hc with
  | reset rst => simp [hrst] at rst
  | run _ host seq =>
    obtain rfl | rfl := host.eq_or_taken_of_active hact
    · exact seq.finishesIn hact hplaced hcycles
    · exact seq.finishesIn (m := m.taken) hact hplaced hcycles

/-- A step that clocks SPIBB-M does to it what one of its cycles does. -/
theorem Master.Stepped.cycleStep {s : State} {m' : Master} {a : MPins} (hs : Master.Stepped s m')
    (ha : s.nextTick.m = some a) : s.master.CycleStep s.params (s.readMPins a) m' := by
  obtain ⟨hnone, -⟩ | ⟨a', ha', hc⟩ := hs
  · simp [ha] at hnone
  · obtain rfl : a = a' := Option.some.inj (ha.symm.trans ha')
    exact hc

/-- The whole machine, `k` cycles before the end of a transfer of `n` bytes: with the facts by which no step stops. -/
structure State.FinishesIn (n k : Nat) (s : State) : Prop where
  legal : s.params.Legal
  room : n ≤ s.params.capM
  slave : s.slave.IndexExists s.params
  master : s.master.FinishesIn s.params n k

/-- A step keeps what is asked of the parameters and of SPIBB-S; only SPIBB-M's part has to be shown. -/
theorem State.finishesIn_of_step {s u : State} {n k : Nat} (hstep : step s = .next u) (hlegal : s.params.Legal)
    (hroom : n ≤ s.params.capM) (hslave : s.slave.IndexExists s.params)
    (hmaster : u.master.FinishesIn s.params n k) : u.FinishesIn n k := by
  have hparams := step_params hstep
  obtain ⟨-, -, hs⟩ := step_cases hstep
  have ⟨_, _, hcapS, _⟩ := hlegal
  exact ⟨hparams ▸ hlegal, hparams ▸ hroom, hparams ▸ hs.indexExists hcapS hslave, hparams ▸ hmaster⟩

theorem State.FinishesIn.step {s : State} {n k : Nat} (h : s.FinishesIn n (k + 1)) (hruns : s.nextTick.runsM)
    (hfits : s.nextTick.fits s.params) : ∃ u, step s = .next u ∧ u.FinishesIn n k := by
  obtain ⟨hlegal, hroom, hslave, hmaster⟩ := h
  obtain ⟨u, hu⟩ := step_next hlegal hfits (hmaster.placed.indexExists (hmaster.len ▸ hroom)) hslave
  obtain ⟨-, hm, -⟩ := step_cases hu
  obtain ⟨a, ha, hrst⟩ := hruns
  exact ⟨u, hu, State.finishesIn_of_step hu hlegal hroom hslave ((hm.cycleStep ha).finishesIn hrst hmaster)⟩

theorem State.FinishesIn.run {n k : Nat} (ts rest : List Tick) {s : State} (h : s.FinishesIn n (k + ts.length))
    (hinputs : s.inputs = ts ++ rest) (hts : ∀ t ∈ ts, t.runsM ∧ t.fits s.params) :
    ∃ u, core.run ts.length s = .next u ∧ u.FinishesIn n k := by
  induction ts generalizing s with
  | nil => exact ⟨s, rfl, h⟩
  | cons t ts ih =>
    obtain ⟨⟨hruns, hfits⟩, hrest⟩ := List.forall_mem_cons.1 hts
    have hnext : s.nextTick = t := s.nextTick_cons t (ts ++ rest) hinputs
    obtain ⟨u, hu, hfin⟩ := State.FinishesIn.step (k := k + ts.length) h (hnext ▸ hruns) (hnext ▸ hfits)
    obtain ⟨v, hv, hdone⟩ := ih hfin (by rw [step_inputs hu, hinputs]; rfl) (by rwa [step_params hu])
    exact ⟨v, (run_succ hu).trans hv, hdone⟩

/-- The step of an accepted START. -/
theorem State.Inv.step_start {s : State} (hinv : s.Inv) {a : MPins} {len : Nat} {wdata : List Byte}
    (ha : s.nextTick.m = some a) (hrst : a.rst = false) (hvalid : a.hValid = true)
    (hdec : decode s.params .mHost a.hcmd = .ok (.mStart len wdata)) (hfits : s.nextTick.fits s.params)
    (hidle : s.master.role = .idle) (hlen : 1 ≤ s.master.txLen) :
    ∃ u, step s = .next u ∧ u.FinishesIn s.master.txLen (s.master.txLen * s.params.tByte) := by
  obtain ⟨u, hu⟩ := step_next hinv.legal hfits hinv.master.indexExists hinv.slave.indexExists
  obtain ⟨-, hm, -⟩ := step_cases hu
  exact ⟨u, hu, State.finishesIn_of_step hu hinv.legal hinv.master.txLenLe hinv.slave.indexExists
    ((hm.cycleStep ha).finishesIn_of_start hrst hvalid hdec hidle hlen)⟩

/-- Settles O51: the START's step leaves `N * T_BYTE` cycles, and `j` more ticks leave `j` cycles less; SPIBB-M is
active while any is left. -/
theorem transferTakesExactlyNByteTimes : Obligations.TransferTakesExactlyNByteTimes := by
  intro s len wdata a hinv hfit hidle hlen ha hvalid hdec hlong hruns
  obtain ⟨t, ts, hinputs⟩ := List.exists_cons_of_length_pos (Nat.zero_lt_of_lt hlong)
  have hnext : s.nextTick = t := s.nextTick_cons t ts hinputs
  rw [hinputs, List.take_succ_cons, List.forall_mem_cons] at hruns
  rw [hinputs, List.length_cons] at hlong
  obtain ⟨⟨a', ha', hrst⟩, hruns⟩ := hruns
  obtain rfl : a = a' := Option.some.inj (ha.symm.trans (hnext ▸ ha'))
  obtain ⟨u, hu, hfin⟩ := hinv.step_start ha hrst hvalid hdec (hfit _ (by simp [hnext, hinputs])) hidle hlen
  have hts : ∀ t' ∈ ts.take (s.master.txLen * s.params.tByte), t'.runsM ∧ t'.fits u.params := fun t' ht =>
    ⟨hruns t' ht, step_params hu ▸ hfit t' (hinputs ▸ List.mem_cons_of_mem t (List.mem_of_mem_take ht))⟩
  have hrun : ∀ j k, k + j = s.master.txLen * s.params.tByte →
      ∃ v, core.run (j + 1) s = .next v ∧ v.FinishesIn s.master.txLen k := by
    intro j k hjk
    have hj : (ts.take j).length = j := List.length_take_of_le (by omega)
    have hsplit : u.inputs = ts.take j ++ ts.drop j := by
      rw [step_inputs hu, hinputs, List.tail_cons, List.take_append_drop]
    obtain ⟨v, hv, hdone⟩ := State.FinishesIn.run (k := k) (ts.take j) (ts.drop j) (by rwa [hj, hjk]) hsplit
      fun t' ht => hts t' (List.take_subset_take_left ts (by omega) ht)
    exact ⟨v, by rw [run_succ hu, ← hv, hj], hdone⟩
  constructor
  · intro k hk
    obtain ⟨v, hv, hdone⟩ := hrun k (s.master.txLen * s.params.tByte - k) (by omega)
    exact ⟨v, hv, hdone.master.active (by omega)⟩
  · obtain ⟨v, hv, hdone⟩ := hrun (s.master.txLen * s.params.tByte) 0 (by omega)
    exact ⟨v, hv, hdone.master.idle, hdone.master.finished hdone.master.idle⟩

end Sys2Proof.Machine
end

section
/-!
O38: the order of the tests in a wait of the slave (42_slave_sequencer.md R172). Each wait has one equation per outcome
of the tests; only `poll_miss` counts a poll or ends a session INCOMPLETE, so a wait that did either got past both the
chip-select test and the clock test.
-/
namespace Sys2Proof.Machine

@[simp] theorem exec_sSeqWHigh (s : State) : exec .sSeqWHigh s = execSSeqWHigh s := rfl

@[simp] theorem exec_sSeqWLow (s : State) : exec .sSeqWLow s = execSSeqWLow s := rfl

theorem exec_wait_of_deselected {s : State} {i : Instr} (hi : i = .sSeqWHigh ∨ i = .sSeqWLow)
    (hcs : s.sPins.csN = true) : exec i s = s.slaveStepped (s.slave.endSession .ready s.slave.byte) := by
  rcases hi with rfl | rfl
  · exact if_pos hcs
  · exact if_pos hcs

theorem execSSeqWHigh_of_high {s : State} (hcs : s.sPins.csN = false) (hclk : s.sPins.sclk = true) :
    execSSeqWHigh s = s.slaveStepped (s.slave.sample s.sPins.mosi) := by
  simp [execSSeqWHigh, hcs, hclk]

/-- `bit_done` with its guards (R175, R176, R177; log 10). -/
theorem execSSeqWLow_cases_of_low {s : State} (hcs : s.sPins.csN = false) (hclk : s.sPins.sclk = false) :
    (s.slave.bit.val < 7 ∧ execSSeqWLow s = s.slaveStepped s.slave.bitDone) ∨
    (s.slave.bit.val = 7 ∧ s.slave.byte + 1 < s.params.capS ∧ execSSeqWLow s = s.slaveStepped s.slave.commit) ∨
    (s.slave.bit.val = 7 ∧ s.slave.byte + 1 = s.params.capS ∧
      execSSeqWLow s = s.slaveStepped (s.slave.commitFull s.params.capS)) ∨
    (s.slave.bit.val = 7 ∧ s.params.capS ≤ s.slave.byte ∧ execSSeqWLow s = .fault .noSuchByte) := by
  have hbit := s.slave.bit.isLt
  rw [execSSeqWLow, if_neg (by simp [hcs]), if_pos hclk]
  split
  · exact .inl ⟨‹_›, rfl⟩
  · have hlast : s.slave.bit.val = 7 := by omega
    split
    · exact .inr (.inl ⟨hlast, ‹_›, rfl⟩)
    · split
      · exact .inr (.inr (.inl ⟨hlast, ‹_›, rfl⟩))
      · exact .inr (.inr (.inr ⟨hlast, by omega, rfl⟩))

/-- From `x` to `x'` a poll counted against the deadline: it was added to the poll counter, or it was the one that
ended the session INCOMPLETE (R178). -/
def Slave.MissCounted (x x' : Slave) : Prop :=
  (x'.res = .incomplete ∧ x.res ≠ .incomplete) ∨ x'.tmr = x.tmr + 1

theorem Slave.not_missCounted {x x' : Slave} (hres : x'.res = x.res ∨ x'.res = .ready)
    (htmr : x'.tmr = x.tmr ∨ x'.tmr = 0) : ¬ x.MissCounted x' := by
  rintro (⟨hinc, hnew⟩ | hcount)
  · rcases hres with h | h
    · exact hnew (h ▸ hinc)
    · simp [h] at hinc
  · omega

/-- A wait that counts a miss saw neither chip-select HIGH nor the level it awaits. -/
theorem exec_wait_of_missCounted {s t : State} {i : Instr} (hi : i = .sSeqWHigh ∨ i = .sSeqWLow)
    (h : exec i s = .next t) (hcount : s.slave.MissCounted t.slave) :
    s.sPins.csN = false ∧ s.sPins.sclk = decide (i = .sSeqWLow) := by
  cases hcs : s.sPins.csN with
  | true =>
    rw [exec_wait_of_deselected hi hcs] at h
    cases h
    exact absurd hcount (Slave.not_missCounted (.inr rfl) (.inl rfl))
  | false =>
    refine ⟨rfl, ?_⟩
    rcases hi with rfl | rfl
    · cases hclk : s.sPins.sclk with
      | false => rfl
      | true =>
        rw [exec_sSeqWHigh, execSSeqWHigh_of_high hcs hclk] at h
        cases h
        exact absurd hcount (Slave.not_missCounted (.inl rfl) (.inr rfl))
    · cases hclk : s.sPins.sclk with
      | true => rfl
      | false =>
        rw [exec_sSeqWLow] at h
        obtain ⟨-, e⟩ | ⟨-, -, e⟩ | ⟨-, -, e⟩ | ⟨-, -, e⟩ := execSSeqWLow_cases_of_low hcs hclk <;>
          rw [e] at h <;> cases h
        · exact absurd hcount (Slave.not_missCounted (.inl rfl) (.inr rfl))
        · exact absurd hcount (Slave.not_missCounted (.inl rfl) (.inr rfl))
        · exact absurd hcount (Slave.not_missCounted (.inr rfl) (.inl rfl))

/-- Settles O38: one part per test, and the converse for the polls that count. -/
theorem chipSelectThenClockThenDeadline : Obligations.ChipSelectThenClockThenDeadline := by
  refine fun s => ⟨fun hcs i hi => ?_, fun hcs hclk => ?_, fun hcs hclk hbyte => ?_,
    fun i t => exec_wait_of_missCounted⟩
  · rw [exec_wait_of_deselected hi hcs, State.slaveStepped, hcs]
    rfl
  · exact ⟨_, execSSeqWHigh_of_high hcs hclk, rfl, rfl, rfl, rfl⟩
  · rw [exec_sSeqWLow]
    obtain ⟨hbit, e⟩ | ⟨-, hroom, e⟩ | ⟨hbit, hfull, e⟩ | ⟨-, hnone, -⟩ :=
      execSSeqWLow_cases_of_low hcs hclk
    · exact ⟨_, e, fun _ => ⟨rfl, rfl, rfl, rfl⟩, fun hlast => by simp [hlast] at hbit⟩
    · exact ⟨_, e, fun _ => ⟨rfl, rfl, rfl, rfl⟩, fun _ hfull => by omega⟩
    · exact ⟨_, e, fun hmore => by omega, fun _ _ => ⟨rfl, rfl⟩⟩
    · omega

end Sys2Proof.Machine
end

section
/-!
O19: the refusals BUSY and BAD_LEN (60_exceptions.md R202, R203). Those of LOAD are its equations; START has the one
below. READ answers OK, INCOMPLETE or NOT_READY by the result slot, whatever the role.
-/
namespace Sys2Proof.Machine

theorem execMStart_of_active {s : State} (hact : s.master.role = .active) : execMStart s = .next (s.answerM .busy) :=
  if_pos hact

theorem execMRead_of_ready {s : State} (hres : s.master.res = .ready) :
    execMRead s = .next { s.deliverM .ok with master := s.master.taken } :=
  if_pos hres

theorem execSRead_of_delivers {s : State} {c : ResultCode} (hres : s.slave.res.delivers = some c) :
    execSRead s = .next { s.deliverS c with slave := s.slave.taken } := by
  rw [execSRead, hres]

theorem execMRead_res_ne_busy {s t : State} (h : execMRead s = .next t) : t.mRsp.res ≠ .busy := by
  cases hres : s.master.res with
  | none =>
    rw [execMRead_of_none hres] at h
    cases h
    exact ResultCode.noConfusion
  | ready =>
    rw [execMRead_of_ready hres] at h
    cases h
    exact ResultCode.noConfusion

theorem execSRead_res_ne_busy {s t : State} (h : execSRead s = .next t) : t.sRsp.res ≠ .busy := by
  cases hres : s.slave.res with
  | none =>
    rw [execSRead_of_none hres] at h
    cases h
    exact ResultCode.noConfusion
  | ready =>
    rw [execSRead_of_delivers (congrArg SRes.delivers hres)] at h
    cases h
    exact ResultCode.noConfusion
  | incomplete =>
    rw [execSRead_of_delivers (congrArg SRes.delivers hres)] at h
    cases h
    exact ResultCode.noConfusion

/-- Settles O19: each refusal by its operation's equation, and the codes of READ and NOP, none of which is BUSY. -/
theorem busyAndBadLenRefusals : Obligations.BusyAndBadLenRefusals := by
  intro s len wdata
  refine ⟨fun hact => ⟨execMLoad_of_active hact len wdata, execMStart_of_active hact⟩,
    fun hact => execSLoad_of_active hact len wdata, ?_, ?_,
    fun hidle hlen => execMLoad_of_lt hidle hlen wdata, fun hidle hlen => execSLoad_of_lt hidle hlen wdata⟩
  · rintro t (hread | hnop)
    · exact execMRead_res_ne_busy hread
    · cases hnop
      exact ResultCode.noConfusion
  · rintro t (hread | hnop)
    · exact execSRead_res_ne_busy hread
    · cases hnop
      exact ResultCode.noConfusion

end Sys2Proof.Machine
end

section
/-!
O8: the state after reset (10_state.md R48, 70_reset_and_hazards.md R231). The rows of R48 are the fields of the reset
records; the first READ of each block and the first START are the equations of those operations at that state, which
ask only for an empty result slot, and for an idle master with `tx_len = 0`.
-/
namespace Sys2Proof.Machine

theorem statusWord_of_all_false : statusWord false false false = 0 := by decide

theorem Master.afterReset_status (n : Nat) : (Master.afterReset n).status = 0 := statusWord_of_all_false

theorem Slave.afterReset_status (n : Nat) : (Slave.afterReset n).status = 0 := statusWord_of_all_false

theorem resetWith_buffer (p : Params) (w : Wiring) (b : Buffer) : (State.resetWith p w).buffer b = [] := by
  cases b <;> rfl

theorem resetWith_readByte (p : Params) (w : Wiring) (b : Buffer) (i : Nat) :
    (State.resetWith p w).readByte b i = none := by
  rw [State.readByte, resetWith_buffer, Memory.read?_nil]

theorem execMRead_resetWith (p : Params) (w : Wiring) :
    execMRead (State.resetWith p w) = .next ((State.resetWith p w).answerM .notReady) :=
  execMRead_of_none rfl

theorem execSRead_resetWith (p : Params) (w : Wiring) :
    execSRead (State.resetWith p w) = .next ((State.resetWith p w).answerS .notReady) :=
  execSRead_of_none rfl

/-- A START before any LOAD is a zero-length transfer. -/
theorem execMStart_resetWith (p : Params) (w : Wiring) :
    execMStart (State.resetWith p w) =
      .next (({ State.resetWith p w with master := (State.resetWith p w).master.completeEmpty } : State).answerM .ok) :=
  execMStart_of_empty rfl rfl

/-- Settles O8: the registers and lines field by field, then the status words, the buffers and the first operations. -/
theorem resetState : Obligations.ResetState := by
  rintro p w _ rfl
  refine ⟨rfl, rfl, rfl, rfl, rfl, rfl, rfl, rfl, rfl, rfl, rfl, rfl, rfl, rfl, Master.afterReset_status 0,
    rfl, rfl, rfl, rfl, rfl, rfl, rfl, rfl, rfl, rfl, rfl, Slave.afterReset_status 0,
    resetWith_readByte p w, fun len wdata => ?_, fun len wdata => ?_, fun len wdata => ?_⟩
  · exact (exec_mRead len wdata _).trans (execMRead_resetWith p w)
  · exact (exec_sRead len wdata _).trans (execSRead_resetWith p w)
  · exact (exec_mStart len wdata _).trans (execMStart_resetWith p w)

end Sys2Proof.Machine
end

section
/-!
O1 and O2: decoding and encoding are inverse to each other (30_encoding.md R80 to R83, 10_state.md R22, R34). Both turn
on one fact about the opcode maps: the fields of a command word are those of a NOP, LOAD, START, READ or of a reserved
opcode, and on each of them the map and the encoder are read off.
-/
namespace Sys2Proof

open Machine

/-- The fields of every command word are those of one of the five rows of the opcode map (R83). -/
theorem Hcmd.op_cases (h : Hcmd) :
    h = { op := 0, len := h.len, wdata := h.wdata } ∨ h = { op := 1, len := h.len, wdata := h.wdata } ∨
    h = { op := 2, len := h.len, wdata := h.wdata } ∨ h = { op := 3, len := h.len, wdata := h.wdata } ∨
    ∃ r : BitVec 2, h = reservedHcmd r h.len h.wdata := by
  have hop : ∀ op : BitVec 3,
      op = 0 ∨ op = 1 ∨ op = 2 ∨ op = 3 ∨ ∃ r : BitVec 2, op = BitVec.ofNat 3 (4 + r.toNat) := by decide
  obtain ⟨op, len, wdata⟩ := h
  simpa only [reservedHcmd, Hcmd.mk.injEq, and_true] using hop op

theorem reservedHcmd_op_toNat (r : BitVec 2) (len : Nat) (wdata : List Byte) :
    (reservedHcmd r len wdata).op.toNat = 4 + r.toNat := by
  have hr := r.isLt
  simp only [reservedHcmd, BitVec.toNat_ofNat]
  omega

theorem ofNat_two_reservedHcmd_op (r : BitVec 2) (len : Nat) (wdata : List Byte) :
    BitVec.ofNat 2 (reservedHcmd r len wdata).op.toNat = r := by
  rw [reservedHcmd_op_toNat]
  exact (show ∀ r : BitVec 2, BitVec.ofNat 2 (4 + r.toNat) = r by decide) r

@[simp] theorem decodeMHcmd_reservedHcmd (r : BitVec 2) (len : Nat) (wdata : List Byte) :
    decodeMHcmd (reservedHcmd r len wdata) = .mReserved r len wdata := by
  rw [decodeMHcmd_of_four_le_op (by rw [reservedHcmd_op_toNat]; omega), ofNat_two_reservedHcmd_op]
  rfl

@[simp] theorem decodeSHcmd_reservedHcmd (r : BitVec 2) (len : Nat) (wdata : List Byte) :
    decodeSHcmd (reservedHcmd r len wdata) = .sReserved r len wdata := by
  rw [decodeSHcmd_of_four_le_op (by rw [reservedHcmd_op_toNat]; omega), ofNat_two_reservedHcmd_op]
  rfl

theorem operandsFit_iff {cap len : Nat} {wdata : List Byte} :
    operandsFit cap len wdata = true ↔ len < 2 ^ lenBits cap ∧ wdata.length = cap := by
  rw [operandsFit, Bool.and_eq_true, decide_eq_true_eq, decide_eq_true_eq]

/-- SPIBB-M reads back the fields its command word was written from. -/
theorem decode_mHost_word {p : Params} {h : Hcmd} (hfit : operandsFit p.capM h.len h.wdata = true) :
    decode p .mHost (h.word p.capM) = .ok (decodeMHcmd h) := by
  obtain ⟨hlen, hwdata⟩ := operandsFit_iff.1 hfit
  rw [decode_mHost_ok (Hcmd.word_lt _ h hlen hwdata), Hcmd.ofWord_word _ h hlen hwdata]

/-- SPIBB-S reads back the fields its command word was written from. -/
theorem decode_sHost_word {p : Params} {h : Hcmd} (hfit : operandsFit p.capS h.len h.wdata = true) :
    decode p .sHost (h.word p.capS) = .ok (decodeSHcmd h) := by
  obtain ⟨hlen, hwdata⟩ := operandsFit_iff.1 hfit
  rw [decode_sHost_ok (Hcmd.word_lt _ h hlen hwdata), Hcmd.ofWord_word _ h hlen hwdata]

/-- Settles O1: a host row's word gives back its fields, which the opcode map sends to the row; a sequencer row's number
is read by the phase maps. -/
theorem decodeOfEncode : Obligations.DecodeOfEncode := by
  intro p i hwf
  cases i with
  | mReserved op len wdata =>
    exact (decode_mHost_word (h := reservedHcmd op len wdata) hwf).trans (by rw [decodeMHcmd_reservedHcmd])
  | sReserved op len wdata =>
    exact (decode_sHost_word (h := reservedHcmd op len wdata) hwf).trans (by rw [decodeSHcmd_reservedHcmd])
  | mNop | mLoad | mStart | mRead => exact decode_mHost_word (h := ⟨_, _, _⟩) hwf
  | sNop | sLoad | sStart | sRead => exact decode_sHost_word (h := ⟨_, _, _⟩) hwf
  | _ => rfl

theorem encode_decodeMHcmd (p : Params) (h : Hcmd) : encode p (decodeMHcmd h) = h.word p.capM := by
  obtain e | e | e | e | ⟨r, e⟩ := h.op_cases
  · rw [e]; rfl
  · rw [e]; rfl
  · rw [e]; rfl
  · rw [e]; rfl
  · rw [e, decodeMHcmd_reservedHcmd]; rfl

theorem encode_decodeSHcmd (p : Params) (h : Hcmd) : encode p (decodeSHcmd h) = h.word p.capS := by
  obtain e | e | e | e | ⟨r, e⟩ := h.op_cases
  · rw [e]; rfl
  · rw [e]; rfl
  · rw [e]; rfl
  · rw [e]; rfl
  · rw [e, decodeSHcmd_reservedHcmd]; rfl

theorem decodeMHcmd_wf (p : Params) (h : Hcmd) : (decodeMHcmd h).wf p = operandsFit p.capM h.len h.wdata := by
  unfold decodeMHcmd
  split <;> rfl

theorem decodeSHcmd_wf (p : Params) (h : Hcmd) : (decodeSHcmd h).wf p = operandsFit p.capS h.len h.wdata := by
  unfold decodeSHcmd
  split <;> rfl

theorem decode_mHost_eq_ok {p : Params} {w : Nat} {i : Instr} (hdec : decode p .mHost w = .ok i) :
    w < 2 ^ hcmdWidth p.capM ∧ decodeMHcmd (Hcmd.ofWord p.capM w) = i := by
  by_cases hw : w < 2 ^ hcmdWidth p.capM
  · rw [decode_mHost_ok hw] at hdec
    exact ⟨hw, Except.ok.inj hdec⟩
  · simp [decode, hw] at hdec

theorem decode_sHost_eq_ok {p : Params} {w : Nat} {i : Instr} (hdec : decode p .sHost w = .ok i) :
    w < 2 ^ hcmdWidth p.capS ∧ decodeSHcmd (Hcmd.ofWord p.capS w) = i := by
  by_cases hw : w < 2 ^ hcmdWidth p.capS
  · rw [decode_sHost_ok hw] at hdec
    exact ⟨hw, Except.ok.inj hdec⟩
  · simp [decode, hw] at hdec

/-- Settles O2: on a host port the fields read from the word fit, and written again they give the word; a phase number
is one of the eight or two listed. -/
theorem encodeOfDecode : Obligations.EncodeOfDecode := by
  intro p port w i hdec
  cases port with
  | mHost =>
    obtain ⟨hw, rfl⟩ := decode_mHost_eq_ok hdec
    exact ⟨decodeMHcmd_port _, (decodeMHcmd_wf p _).trans (Hcmd.ofWord_fits _ w),
      (encode_decodeMHcmd p _).trans (Hcmd.word_ofWord _ w hw)⟩
  | sHost =>
    obtain ⟨hw, rfl⟩ := decode_sHost_eq_ok hdec
    exact ⟨decodeSHcmd_port _, (decodeSHcmd_wf p _).trans (Hcmd.ofWord_fits _ w),
      (encode_decodeSHcmd p _).trans (Hcmd.word_ofWord _ w hw)⟩
  | mSeq =>
    rw [decode] at hdec
    unfold decodeMPhase at hdec
    split at hdec <;> cases hdec <;> exact ⟨rfl, rfl, rfl⟩
  | sSeq =>
    rw [decode] at hdec
    unfold decodeSPhase at hdec
    split at hdec <;> cases hdec <;> exact ⟨rfl, rfl, rfl⟩

end Sys2Proof
end

section
/-!
O3 and O7: the fields of command and response words (30_encoding.md R80 to R82). A response word is laid out as a
command word whose opcode is the result code, so the laws of the one are those of the other.
-/
namespace Sys2Proof

open Machine

/-- Only the bits below `8*n` of a number reach an `n`-byte field. -/
theorem unpackBytes_mod_getElem? {n i : Nat} (w : Nat) (hi : i < n) :
    (unpackBytes n (w % 2 ^ (8 * n)))[i]? = some (BitVec.ofNat 8 (w / 2 ^ (8 * i))) := by
  rw [unpackBytes_getElem? _ _ _ hi, Option.some.injEq]
  apply BitVec.eq_of_getLsbD_eq
  intro j hj
  have hin : j + 8 * i < 8 * n := by omega
  simp only [BitVec.getLsbD_ofNat, Nat.testBit_div_two_pow, Nat.testBit_mod_two_pow, hin, decide_true, Bool.true_and]

theorem decodeMHcmd_eq_ite (h : Hcmd) :
    decodeMHcmd h = if h.op.toNat = 0 then .mNop h.len h.wdata else if h.op.toNat = 1 then .mLoad h.len h.wdata
      else if h.op.toNat = 2 then .mStart h.len h.wdata else if h.op.toNat = 3 then .mRead h.len h.wdata
      else .mReserved (BitVec.ofNat 2 h.op.toNat) h.len h.wdata := by
  unfold decodeMHcmd
  split <;> simp_all

theorem decodeSHcmd_eq_ite (h : Hcmd) :
    decodeSHcmd h = if h.op.toNat = 0 then .sNop h.len h.wdata else if h.op.toNat = 1 then .sLoad h.len h.wdata
      else if h.op.toNat = 2 then .sStart h.len h.wdata else if h.op.toNat = 3 then .sRead h.len h.wdata
      else .sReserved (BitVec.ofNat 2 h.op.toNat) h.len h.wdata := by
  unfold decodeSHcmd
  split <;> simp_all

/-- `LW` is the least width that holds the value `CAP` (00_scope.md R6). -/
theorem lenBits_le_of_lt_two_pow {cap n : Nat} (hcap : 1 ≤ cap) (h : cap < 2 ^ n) : lenBits cap ≤ n :=
  (Nat.log2_lt (Nat.ne_of_gt hcap)).2 h

/-- Settles O3: the opcode map at the three fields the word's quotients and remainders give. -/
theorem commandWordFields : Obligations.CommandWordFields := by
  refine fun p w => ⟨fun hw => ?_, fun hw => ?_, fun hw => ?_, fun hw => ?_,
    fun cap hcap => ⟨lt_two_pow_lenBits cap, fun n => lenBits_le_of_lt_two_pow hcap⟩⟩
  · refine ⟨_, unpackBytes_length p.capM _, fun i hi => unpackBytes_mod_getElem? w hi, ?_⟩
    rw [decode_mHost_ok hw, decodeMHcmd_eq_ite, Hcmd.ofWord_op_toNat hw]
    rfl
  · refine ⟨_, unpackBytes_length p.capS _, fun i hi => unpackBytes_mod_getElem? w hi, ?_⟩
    rw [decode_sHost_ok hw, decodeSHcmd_eq_ite, Hcmd.ofWord_op_toNat hw]
    rfl
  · exact if_neg (Nat.not_lt.2 hw)
  · exact if_neg (Nat.not_lt.2 hw)

/-- Settles O4: each word is decoded by evaluating the decoder. -/
theorem specWordsDecode : Obligations.SpecWordsDecode := by
  refine ⟨?_, ?_, ?_, ?_, ?_, ?_, rfl, rfl, rfl⟩ <;> decide

end Sys2Proof

namespace Sys2Proof.Machine

/-- A response as the fields of a command word. -/
def Rsp.fields (r : Rsp) : Hcmd := { op := r.res.code, len := r.rlen, wdata := r.rdata }

theorem Rsp.word_eq (cap : Nat) (r : Rsp) : r.word cap = r.fields.word cap := rfl

/-- Settles O7: the response word is that of its fields, which are read back from it. -/
theorem responseWordFields : Obligations.ResponseWordFields := by
  refine ⟨fun cap r hlen hdata => ?_, rfl, rfl, rfl, rfl, rfl, rfl⟩
  rw [Rsp.word_eq]
  have hlt : r.fields.word cap < 2 ^ hcmdWidth cap := Hcmd.word_lt cap r.fields hlen hdata
  have hread : Hcmd.ofWord cap (r.fields.word cap) = r.fields := Hcmd.ofWord_word cap r.fields hlen hdata
  refine ⟨hlt, ?_, congrArg Hcmd.len hread, fun i b hb => ?_⟩
  · rw [← Hcmd.ofWord_op_toNat hlt, hread]
    rfl
  · have hi : i < cap := hdata ▸ (List.getElem?_eq_some_iff.1 hb).1
    have hbytes : unpackBytes cap (r.fields.word cap % 2 ^ (8 * cap)) = r.rdata := congrArg Hcmd.wdata hread
    rw [← hbytes, unpackBytes_mod_getElem? _ hi] at hb
    exact (Option.some.inj hb).symm

end Sys2Proof.Machine
end

section
/-!
The buffers of the invariant (10_state.md R50): which writes keep the indices below a length written, and complete them.
-/
namespace Sys2Proof.Machine

theorem Memory.writtenBelow_zero (m : Memory) : m.writtenBelow 0 := nofun

theorem Memory.writtenBelow_write {m : Memory} {n : Nat} (h : m.writtenBelow n) (i : Nat) (v : Byte) :
    (m.write i v).writtenBelow n := fun j hj => m.isSome_write i v j (h j hj)

/-- Writing the first index not yet written completes one more. -/
theorem Memory.writtenBelow_write_succ {m : Memory} {n : Nat} (h : m.writtenBelow n) (v : Byte) :
    (m.write n v).writtenBelow (n + 1) := by
  intro j hj
  by_cases hjn : j = n
  · rw [hjn, Memory.read?_write_same]
    rfl
  · exact Memory.isSome_write _ _ _ _ (h j (by omega))

/-- A LOAD writes every byte of its length. -/
theorem Memory.writtenBelow_load (m : Memory) (len : Nat) (wdata : List Byte) :
    (m.writeBytes 0 (loadBytes len wdata)).writtenBelow len := by
  intro j hj
  rw [Memory.read?_load, if_pos hj]
  rfl

theorem Memory.below_load {m : Memory} {cap len : Nat} (h : m.below cap = true) (hlen : len ≤ cap)
    (wdata : List Byte) : (m.writeBytes 0 (loadBytes len wdata)).below cap = true :=
  Memory.below_writeBytes cap m 0 _ h (by rw [loadBytes_length]; omega)

end Sys2Proof.Machine
end

section
/-!
O9 and O43, SPIBB-M's half: its invariant holds after reset and is kept by the host step and by every sequencer step
(10_state.md R50, 30_encoding.md R89). The actions from `P_ASSERT` to `P_LOW` write no buffer and stay in their byte, so
one lemma leaves of each only its dwell, its lines and its bit to be checked.
-/
namespace Sys2Proof

theorem Params.dSettle_le_maxDwell (p : Params) : p.dSettle ≤ p.maxDwell := le_max_of_le_left (le_max_left _ _)
theorem Params.dDrive_le_maxDwell (p : Params) : p.dDrive ≤ p.maxDwell := le_max_of_le_left (le_max_right _ _)
theorem Params.dHalf_le_maxDwell (p : Params) : p.dHalf ≤ p.maxDwell := le_max_of_le_right (le_max_left _ _)
theorem Params.dGap_le_maxDwell (p : Params) : p.dGap ≤ p.maxDwell := le_max_of_le_right (le_max_right _ _)

end Sys2Proof

namespace Sys2Proof.Machine

theorem Role.idle_ne_active {r : Role} (hidle : r = .idle) (hact : r = .active) : False :=
  Role.noConfusion (hidle.symm.trans hact)

theorem Master.afterReset_inv (p : Params) (n : Nat) : (Master.afterReset n).Inv p where
  txWf := rfl
  txBelow := rfl
  rxWf := rfl
  rxBelow := rfl
  txLenLe := Nat.zero_le _
  rxLenLe := Nat.zero_le _
  txWritten := Memory.writtenBelow_zero _
  readyWritten := nofun
  dlyLe := Nat.zero_le _
  idleLines _ := ⟨rfl, rfl, rfl⟩
  activeTx := nofun
  activeRes := nofun
  activeByte := nofun
  finishByte := nofun
  activeRx := nofun
  storedRx := nofun
  activeLines := nofun
  activeMosi := nofun
  lastBit := nofun

/-- The levels R89 lists for the phase of an active SPIBB-M. -/
theorem Master.Inv.lines_of_phase {p : Params} {m : Master} (h : m.Inv p) (hact : m.role = .active) {ph : MPhase}
    (hphase : m.phase = ph) : m.csN = ph.lines.1 ∧ m.sclk = ph.lines.2 := by
  have hlines := h.activeLines hact
  rw [hphase] at hlines
  exact ⟨congrArg Prod.fst hlines, congrArg Prod.snd hlines⟩

theorem Master.HostStep.inv {p : Params} {a : MPins} {m m' : Master} (hs : m.HostStep p a m') (hm : m.Inv p) :
    m'.Inv p := by
  cases hs with
  | unchanged => exact hm
  | load len wdata _ _ idle fits =>
    have hnot {q : Prop} (hact : m.role = .active) : q := (Role.idle_ne_active idle hact).elim
    exact { hm with
      txWf := Memory.wf_writeBytes _ _ _ hm.txWf
      txBelow := Memory.below_load hm.txBelow fits wdata
      txLenLe := fits
      txWritten := Memory.writtenBelow_load _ _ _
      activeTx := hnot
      activeByte := hnot
      finishByte := hnot
      activeMosi := hnot }
  | startEmpty _ _ _ _ idle =>
    exact { hm with
      rxLenLe := Nat.zero_le _
      readyWritten := fun _ => Memory.writtenBelow_zero _
      activeRes := fun hact => (Role.idle_ne_active idle hact).elim }
  | start _ _ _ _ idle some =>
    obtain ⟨hsclk, hcsN, -⟩ := hm.idleLines idle
    exact { hm with
      readyWritten := nofun
      dlyLe := Nat.zero_le _
      idleLines := nofun
      activeTx := fun _ => some
      activeRes := fun _ => rfl
      activeByte := fun _ _ => some
      finishByte := nofun
      activeRx := fun _ => Memory.writtenBelow_zero _
      storedRx := nofun
      activeLines := fun _ => Prod.ext hcsN hsclk
      activeMosi := nofun
      lastBit := nofun }
  | read => exact { hm with readyWritten := nofun, activeRes := fun _ => rfl }

/-- An action within a byte keeps the invariant when its dwell, its lines and its bit are those of the phase it leads
to. -/
theorem Master.Inv.withinByte {p : Params} {m : Master} (hm : m.Inv p) (hact : m.role = .active)
    (hphase : m.phase ≠ .pFinish) {ph : MPhase} {b : Fin 8} {acc : Byte} {dly : Nat} {csN sclk mosi : Level}
    (hfinish : ph ≠ .pFinish) (hdeassert : ph ≠ .pDeassert) (hdly : dly ≤ p.maxDwell)
    (hlines : (csN, sclk) = ph.lines)
    (hmosi : ph.mosiValid = true → mosi = (m.txByte m.byte).getLsbD b.val)
    (hlast : ph = .pStore → b = 0) :
    ({ m with phase := ph, bit := b, acc := acc, dly := dly, csN := csN, sclk := sclk, mosi := mosi } : Master).Inv p :=
  { hm with
    dlyLe := hdly
    idleLines := fun hidle => (Role.idle_ne_active hidle hact).elim
    activeByte := fun _ _ => hm.activeByte hact hphase
    finishByte := fun _ h => absurd h hfinish
    storedRx := fun _ h => absurd h hdeassert
    activeLines := fun _ => hlines
    activeMosi := fun _ => hmosi
    lastBit := fun _ h => hlast (h.resolve_right hdeassert) }

/-- `P_DEASSERT` (R148) keeps the invariant: the byte just stored is counted, chip-select is HIGH, and the phase is
`P_FINISH` exactly when no byte is left. -/
theorem Master.Inv.deassert {p : Params} {m : Master} (hm : m.Inv p) (hact : m.role = .active)
    (hphase : m.phase = .pDeassert) {ph : MPhase} (hph : ph = .pAssert ∨ ph = .pFinish)
    (hlast : ph = .pFinish ↔ m.byte + 1 = m.txLen) :
    ({ m with csN := true, byte := m.byte + 1, dly := p.dGap, phase := ph } : Master).Inv p := by
  have hsclk : m.sclk = false := (hm.lines_of_phase hact hphase).2
  have hlines : ph.lines = (true, false) ∧ ph.mosiValid = false ∧ ph ≠ .pStore ∧ ph ≠ .pDeassert := by
    rcases hph with rfl | rfl <;> decide
  obtain ⟨hlines, hmosi, hstore, hdeassert⟩ := hlines
  exact { hm with
    dlyLe := p.dGap_le_maxDwell
    idleLines := fun hidle => (Role.idle_ne_active hidle hact).elim
    activeByte := fun _ hne => by
      have hlt := hm.activeByte hact (by simp [hphase])
      have hnext : m.byte + 1 ≠ m.txLen := mt hlast.2 hne
      show m.byte + 1 < m.txLen
      omega
    finishByte := fun _ h => hlast.1 h
    activeRx := fun _ j hj => by
      rcases Nat.lt_succ_iff_lt_or_eq.1 hj with hlt | rfl
      · exact hm.activeRx hact j hlt
      · exact hm.storedRx hact hphase
    storedRx := fun _ h => absurd h hdeassert
    activeLines := fun _ => by rw [hlines, hsclk]
    activeMosi := fun _ h => Bool.noConfusion (hmosi.symm.trans h)
    lastBit := fun _ h => absurd h (not_or_intro hstore hdeassert) }

theorem Master.SeqStep.inv {p : Params} {l : Level} {m m' : Master} (hs : m.SeqStep p l m') (hm : m.Inv p) :
    m'.Inv p := by
  cases hs with
  | idle => exact hm
  | dwell act =>
    exact { hm with
      dlyLe := (Nat.sub_le _ _).trans hm.dlyLe
      idleLines := fun hidle => (Role.idle_ne_active hidle act).elim }
  | pAssert act _ phase =>
    have hsclk : m.sclk = false := (hm.lines_of_phase act phase).2
    exact hm.withinByte act (by simp [phase]) nofun nofun p.dSettle_le_maxDwell (by rw [hsclk]; rfl) nofun nofun
  | pDrive act _ phase =>
    have hlines : (m.csN, m.sclk) = MPhase.pDrive.lines := phase ▸ hm.activeLines act
    exact hm.withinByte act (by simp [phase]) nofun nofun p.dDrive_le_maxDwell hlines (fun _ => rfl) nofun
  | pSample act _ phase =>
    have hlines : (m.csN, m.sclk) = MPhase.pSample.lines := phase ▸ hm.activeLines act
    exact hm.withinByte act (by simp [phase]) nofun nofun (Nat.zero_le _) hlines
      (fun _ => hm.activeMosi act (by rw [phase]; rfl)) nofun
  | pHigh act _ phase =>
    have hcsN : m.csN = false := (hm.lines_of_phase act phase).1
    exact hm.withinByte act (by simp [phase]) nofun nofun p.dHalf_le_maxDwell (by rw [hcsN]; rfl)
      (fun _ => hm.activeMosi act (by rw [phase]; rfl)) nofun
  | pLowLast act _ phase bit =>
    have hcsN : m.csN = false := (hm.lines_of_phase act phase).1
    exact hm.withinByte act (by simp [phase]) nofun nofun p.dHalf_le_maxDwell (by rw [hcsN]; rfl)
      (fun _ => hm.activeMosi act (by rw [phase]; rfl)) (fun _ => bit)
  | pLowNext act _ phase =>
    have hcsN : m.csN = false := (hm.lines_of_phase act phase).1
    exact hm.withinByte act (by simp [phase]) nofun nofun p.dHalf_le_maxDwell (by rw [hcsN]; rfl) nofun nofun
  | pStore act _ phase exists_ =>
    have hlines : (m.csN, m.sclk) = MPhase.pStore.lines := phase ▸ hm.activeLines act
    exact { hm with
      rxWf := Memory.wf_write _ _ _ hm.rxWf
      rxBelow := Memory.below_write _ _ _ _ hm.rxBelow exists_
      readyWritten := fun hready => Memory.writtenBelow_write (hm.readyWritten hready) _ _
      dlyLe := Nat.zero_le _
      idleLines := fun hidle => (Role.idle_ne_active hidle act).elim
      activeByte := fun _ _ => hm.activeByte act (by simp [phase])
      finishByte := nofun
      activeRx := fun _ => Memory.writtenBelow_write (hm.activeRx act) _ _
      storedRx := fun _ _ => by rw [Memory.read?_write_same]; rfl
      activeLines := fun _ => hlines
      activeMosi := fun _ _ => hm.activeMosi act (by rw [phase]; rfl)
      lastBit := fun _ _ => hm.lastBit act (.inl phase) }
  | pDeassertLast act _ phase last =>
    exact hm.deassert act phase (.inr rfl) (iff_of_true rfl last)
  | pDeassertNext act _ phase next =>
    exact hm.deassert act phase (.inl rfl) (iff_of_false nofun next)
  | pFinish act dly phase =>
    obtain ⟨hcsN, hsclk⟩ := hm.lines_of_phase act phase
    exact { hm with
      rxLenLe := hm.txLenLe
      readyWritten := fun _ => hm.finishByte act phase ▸ hm.activeRx act
      idleLines := fun _ => ⟨hsclk, hcsN, dly⟩
      activeTx := nofun
      activeRes := nofun
      activeByte := nofun
      finishByte := nofun
      activeRx := nofun
      storedRx := nofun
      activeLines := nofun
      activeMosi := nofun
      lastBit := nofun }

theorem Master.CycleStep.inv {p : Params} {a : MPins} {m m' : Master} (hc : m.CycleStep p a m') (hm : m.Inv p) :
    m'.Inv p := by
  cases hc with
  | reset => exact Master.afterReset_inv p _
  | run _ host seq => exact seq.inv (host.inv hm)

theorem Master.Stepped.inv {s : State} {m' : Master} (hs : Master.Stepped s m') (hm : s.master.Inv s.params) :
    m'.Inv s.params := by
  obtain ⟨-, rfl⟩ | ⟨a, -, hc⟩ := hs
  · exact hm
  · exact hc.inv hm

end Sys2Proof.Machine
end

section
/-!
O9 and O43, SPIBB-S's half: its invariant holds after reset and is kept by the host step and by every sequencer step
(10_state.md R50, R42).
-/
namespace Sys2Proof.Machine

theorem Slave.afterReset_inv (p : Params) (n : Nat) : (Slave.afterReset n).Inv p where
  txWf := rfl
  txBelow := rfl
  rxWf := rfl
  rxBelow := rfl
  txLenLe := Nat.zero_le _
  rxLenLe := Nat.zero_le _
  txWritten := Memory.writtenBelow_zero _
  resWritten h := absurd rfl h
  idleMiso _ := rfl
  activeByte := nofun
  activeRes := nofun
  activeTmr := nofun
  activeRx := nofun
  activeMiso := nofun

theorem Slave.HostStep.inv {p : Params} {b : SPins} {x x' : Slave} (hs : x.HostStep p b x') (hx : x.Inv p) :
    x'.Inv p := by
  cases hs with
  | unchanged => exact hx
  | load len wdata _ _ idle fits =>
    exact { hx with
      txWf := Memory.wf_writeBytes _ _ _ hx.txWf
      txBelow := Memory.below_load hx.txBelow fits wdata
      txLenLe := fits
      txWritten := Memory.writtenBelow_load _ _ _
      activeMiso := fun hact => (Role.idle_ne_active idle hact).elim }
  | read => exact { hx with resWritten := fun h => absurd rfl h, activeRes := fun _ => rfl }

/-- A session that ends leaves the committed bytes as its result (R181). -/
theorem Slave.Inv.endSession {p : Params} {x : Slave} (hx : x.Inv p) {r : SRes} {n : Nat} (hn : n ≤ p.capS)
    (hwritten : x.rx.writtenBelow n) : (x.endSession r n).Inv p :=
  { hx with
    rxLenLe := hn
    resWritten := fun _ => hwritten
    idleMiso := fun _ => rfl
    activeByte := nofun
    activeRes := nofun
    activeTmr := nofun
    activeRx := nofun
    activeMiso := nofun }

theorem Slave.bit_succ_val {x : Slave} (hbit : x.bit.val < 7) : (x.bit + 1).val = x.bit.val + 1 := by
  rw [Fin.val_add]
  exact Nat.mod_eq_of_lt (Nat.succ_lt_succ hbit)

theorem Slave.SeqStep.inv {p : Params} {b : SPins} {x x' : Slave} (hs : x.SeqStep p b x') (hlegal : p.Legal)
    (hx : x.Inv p) : x'.Inv p := by
  obtain ⟨-, -, hcap, -, -, htimeout⟩ := hlegal
  cases hs with
  | idle => exact hx
  | start =>
    exact { hx with
      resWritten := fun h => absurd rfl h
      idleMiso := nofun
      activeByte := fun _ => hcap
      activeRes := fun _ => rfl
      activeTmr := fun _ => htimeout
      activeRx := fun _ => Memory.writtenBelow_zero _
      activeMiso := fun _ => rfl }
  | deselected act | deadline act => exact hx.endSession (hx.activeByte act).le (hx.activeRx act)
  | sample => exact { hx with activeTmr := fun _ => htimeout }
  | bitDone act _ _ _ bit =>
    exact { hx with
      idleMiso := fun hidle => (Role.idle_ne_active hidle act).elim
      activeTmr := fun _ => htimeout
      activeMiso := fun _ => by
        rw [Slave.bitDone_bit, Slave.bit_succ_val bit, Nat.add_comm, ← Nat.sub_sub]
        rfl }
  | commit act _ _ _ _ room =>
    exact { hx with
      rxWf := Memory.wf_write _ _ _ hx.rxWf
      rxBelow := Memory.below_write _ _ _ _ hx.rxBelow (hx.activeByte act)
      resWritten := fun h => absurd (hx.activeRes act) h
      idleMiso := fun hidle => (Role.idle_ne_active hidle act).elim
      activeByte := fun _ => room
      activeTmr := fun _ => htimeout
      activeRx := fun _ => Memory.writtenBelow_write_succ (hx.activeRx act) _
      activeMiso := fun _ => rfl }
  | commitFull act _ _ _ _ full =>
    exact { hx with
      rxWf := Memory.wf_write _ _ _ hx.rxWf
      rxBelow := Memory.below_write _ _ _ _ hx.rxBelow (hx.activeByte act)
      rxLenLe := le_rfl
      resWritten := fun _ => full ▸ Memory.writtenBelow_write_succ (hx.activeRx act) _
      idleMiso := fun _ => rfl
      activeByte := nofun
      activeRes := nofun
      activeTmr := nofun
      activeRx := nofun
      activeMiso := nofun }
  | miss act _ _ early =>
    exact { hx with activeTmr := fun _ => lt_of_le_of_ne (hx.activeTmr act) early }

/-- The edge detector's history is no part of the invariant. -/
theorem Slave.Inv.sawCs {p : Params} {x : Slave} (hx : x.Inv p) (cs : Level) : (x.sawCs cs).Inv p := { hx with }

theorem Slave.CycleStep.inv {p : Params} {b : SPins} {x x' : Slave} (hc : x.CycleStep p b x') (hlegal : p.Legal)
    (hx : x.Inv p) : x'.Inv p := by
  cases hc with
  | reset => exact Slave.afterReset_inv p _
  | run _ host seq => exact (seq.inv hlegal (host.inv hx)).sawCs _

theorem Slave.Stepped.inv {s : State} {x' : Slave} (hs : Slave.Stepped s x') (hlegal : s.params.Legal)
    (hx : s.slave.Inv s.params) : x'.Inv s.params := by
  obtain ⟨-, rfl⟩ | ⟨b, -, hc⟩ := hs
  · exact hx
  · exact hc.inv hlegal hx

end Sys2Proof.Machine
end

section
/-!
O9, O43 and O44: the invariant of the machine at reset, along a step, and as the reason why a step answers a next state
(10_state.md R50, 92_eei_decisions.md section 5).
-/
namespace Sys2Proof.Machine

theorem State.resetWith_inv {p : Params} (hlegal : p.Legal) (w : Wiring) : (State.resetWith p w).Inv :=
  ⟨hlegal, Master.afterReset_inv p 0, Slave.afterReset_inv p 0⟩

/-- Settles O9: each block's reset record meets its invariant; the parameters of the test vectors are legal. -/
theorem resetMeetsInvariant : Obligations.ResetMeetsInvariant :=
  ⟨fun _ w hlegal => State.resetWith_inv hlegal w, State.resetWith_inv (by decide) _⟩

theorem State.inv_of_step {s u : State} (hinv : s.Inv) (hstep : step s = .next u) : u.Inv := by
  obtain ⟨-, hm, hx⟩ := step_cases hstep
  have hparams := step_params hstep
  exact ⟨hparams ▸ hinv.legal, hparams ▸ hm.inv hinv.master, hparams ▸ hx.inv hinv.legal hinv.slave⟩

/-- Settles O43: each block's part of a step keeps the block's invariant. -/
theorem stepKeepsInvariant : Obligations.StepKeepsInvariant := fun _ _ hinv hstep =>
  ⟨State.inv_of_step hinv hstep, step_params hstep, step_wiring hstep⟩

/-- The commands of the next tick fit, as it is a listed tick or one without commands. -/
theorem State.inputsFit.nextTick {s : State} (h : s.inputsFit) : s.nextTick.fits s.params := by
  cases hin : s.inputs with
  | nil =>
    rw [State.nextTick, hin]
    exact ⟨fun _ ha hv => (by cases ha; cases hv), fun _ hb hv => (by cases hb; cases hv)⟩
  | cons t ts =>
    rw [s.nextTick_cons t ts hin]
    exact h t (by simp [hin])

theorem State.inputsFit_of_step {s u : State} (h : s.inputsFit) (hstep : step s = .next u) : u.inputsFit := by
  intro t ht
  rw [step_inputs hstep] at ht
  rw [step_params hstep]
  exact h t (List.mem_of_mem_tail ht)

theorem State.Inv.next {s : State} (hinv : s.Inv) (hfits : s.nextTick.fits s.params) :
    ∃ u, step s = .next u ∧ u.Inv := by
  obtain ⟨u, hu⟩ := step_next hinv.legal hfits hinv.master.indexExists hinv.slave.indexExists
  exact ⟨u, hu, State.inv_of_step hinv hu⟩

/-- Settles O44: the invariant's byte indices exist and the commands fit, so the step answers; what it answers is again
of the kind. -/
theorem stepAlwaysAnswersNext : Obligations.StepAlwaysAnswersNext := by
  intro s hinv hfit
  obtain ⟨u, hu, hinvu⟩ := hinv.next hfit.nextTick
  exact ⟨u, hu, hinvu, State.inputsFit_of_step hfit hu⟩

end Sys2Proof.Machine
end

section
/-!
The step of a block that is not reset, by its role. A host operation leaves an active block as it is but for its result,
and in the invariant an active block has none to take, so what is left of the cycle is the sequencer step.
-/
namespace Sys2Proof.Machine

theorem Tick.rst_of_runsM {t : Tick} (h : t.runsM) {a : MPins} (ha : t.m = some a) : a.rst = false := by
  obtain ⟨a', ha', hrst⟩ := h
  exact Option.some.inj (ha.symm.trans ha') ▸ hrst

theorem Tick.rst_of_runsS {t : Tick} (h : t.runsS) {b : SPins} (hb : t.s = some b) : b.rst = false := by
  obtain ⟨b', hb', hrst⟩ := h
  exact Option.some.inj (hb.symm.trans hb') ▸ hrst

/-- No sequencer step of SPIBB-M touches the transmit buffer (20_memory.md R60). -/
theorem Master.SeqStep.tx_frame {p : Params} {l : Level} {m m' : Master} (hs : m.SeqStep p l m') :
    m'.tx = m.tx ∧ m'.txLen = m.txLen ∧ m'.epoch = m.epoch := by
  cases hs <;> exact ⟨rfl, rfl, rfl⟩

/-- No sequencer step of SPIBB-S touches the response buffer (20_memory.md R60). -/
theorem Slave.SeqStep.tx_frame {p : Params} {b : SPins} {x x' : Slave} (hs : x.SeqStep p b x') :
    x'.tx = x.tx ∧ x'.txLen = x.txLen ∧ x'.epoch = x.epoch := by
  cases hs <;> exact ⟨rfl, rfl, rfl⟩

/-- A host operation leaves an active SPIBB-S as it is, or takes a pending result (R117, R118). -/
theorem Slave.HostStep.eq_or_taken_of_active {p : Params} {b : SPins} {x h : Slave} (hs : x.HostStep p b h)
    (hact : x.role = .active) : h = x ∨ h = x.taken := by
  cases hs with
  | unchanged => exact .inl rfl
  | read => exact .inr rfl
  | load _ _ _ _ idle => exact (Role.idle_ne_active idle hact).elim

/-- The host step that makes SPIBB-M active is that of an accepted START. -/
theorem Master.HostStep.eq_begin {p : Params} {a : MPins} {m h : Master} (hs : m.HostStep p a h)
    (hidle : m.role = .idle) (hact : h.role = .active) : h = m.begin ∧ 1 ≤ m.txLen := by
  cases hs with
  | start _ _ _ _ _ some => exact ⟨rfl, some⟩
  | unchanged | load | startEmpty | read => exact (Role.idle_ne_active hidle hact).elim

/-- A step of an active SPIBB-M that is not reset: nothing, or one sequencer step, at most after a READ. -/
theorem Master.Stepped.seqStep_or_taken {s : State} {m' : Master} (hs : Master.Stepped s m')
    (hrst : ∀ a, s.nextTick.m = some a → a.rst = false) (hact : s.master.role = .active) :
    (s.nextTick.m = none ∧ m' = s.master) ∨ ∃ a h, s.nextTick.m = some a ∧ (h = s.master ∨ h = s.master.taken) ∧
      h.SeqStep s.params (s.misoRead a.miso) m' := by
  obtain hnone | ⟨a, ha, hc⟩ := hs
  · exact .inl hnone
  · cases hc with
    | reset rst => exact Bool.noConfusion ((hrst a ha).symm.trans rst)
    | @run _ h _ host seq => exact .inr ⟨a, h, ha, host.eq_or_taken_of_active hact, seq⟩

/-- The same for SPIBB-S; the sequencer step is followed by the note of the level read (R179). -/
theorem Slave.Stepped.seqStep_or_taken {s : State} {x' : Slave} (hs : Slave.Stepped s x')
    (hrst : ∀ b, s.nextTick.s = some b → b.rst = false) (hact : s.slave.role = .active) :
    (s.nextTick.s = none ∧ x' = s.slave) ∨ ∃ b h y, s.nextTick.s = some b ∧ (h = s.slave ∨ h = s.slave.taken) ∧
      h.SeqStep s.params (s.readSPins b) y ∧ x' = y.sawCs (s.readSPins b).csN := by
  obtain hnone | ⟨b, hb, hc⟩ := hs
  · exact .inl hnone
  · cases hc with
    | reset rst => exact Bool.noConfusion ((hrst b hb).symm.trans (s.readSPins_rst b ▸ rst))
    | @run _ h y host seq => exact .inr ⟨b, h, y, hb, host.eq_or_taken_of_active hact, seq, rfl⟩

theorem Master.taken_of_res_none {m : Master} (hres : m.res = .none) : m.taken = m := by
  rw [Master.taken, ← hres]

theorem Slave.taken_of_res_none {x : Slave} (hres : x.res = .none) : x.taken = x := by
  rw [Slave.taken, ← hres]

/-- In the invariant a step of an active SPIBB-M that is not reset is one sequencer step, if its clock has an edge. -/
theorem Master.Stepped.seqStep_of_active {s : State} {m' : Master} (hs : Master.Stepped s m')
    (hm : s.master.Inv s.params) (hrst : ∀ a, s.nextTick.m = some a → a.rst = false)
    (hact : s.master.role = .active) :
    (s.nextTick.m = none ∧ m' = s.master) ∨
      ∃ a, s.nextTick.m = some a ∧ s.master.SeqStep s.params (s.misoRead a.miso) m' := by
  obtain hnone | ⟨a, h, ha, hh, seq⟩ := hs.seqStep_or_taken hrst hact
  · exact .inl hnone
  · rw [Master.taken_of_res_none (hm.activeRes hact), or_self] at hh
    exact .inr ⟨a, ha, hh ▸ seq⟩

/-- In the invariant a step of an active SPIBB-S that is not reset is one sequencer step, if its clock has an edge. -/
theorem Slave.Stepped.seqStep_of_active {s : State} {x' : Slave} (hs : Slave.Stepped s x')
    (hx : s.slave.Inv s.params) (hrst : ∀ b, s.nextTick.s = some b → b.rst = false)
    (hact : s.slave.role = .active) :
    (s.nextTick.s = none ∧ x' = s.slave) ∨ ∃ b y, s.nextTick.s = some b ∧
      s.slave.SeqStep s.params (s.readSPins b) y ∧ x' = y.sawCs (s.readSPins b).csN := by
  obtain hnone | ⟨b, h, y, hb, hh, seq, e⟩ := hs.seqStep_or_taken hrst hact
  · exact .inl hnone
  · rw [Slave.taken_of_res_none (hx.activeRes hact), or_self] at hh
    exact .inr ⟨b, y, hb, hh ▸ seq, e⟩

/-- A step that makes SPIBB-M active is an accepted START followed by the first sequencer step. -/
theorem Master.Stepped.seqStep_of_start {s : State} {m' : Master} (hs : Master.Stepped s m')
    (hidle : s.master.role = .idle) (hact : m'.role = .active) :
    ∃ a, s.nextTick.m = some a ∧ 1 ≤ s.master.txLen ∧
      s.master.begin.SeqStep s.params (s.misoRead a.miso) m' := by
  obtain ⟨-, rfl⟩ | ⟨a, ha, hc⟩ := hs
  · exact (Role.idle_ne_active hidle hact).elim
  · cases hc with
    | reset => cases hact
    | @run _ h _ host seq =>
      have hh : h.role = .active := Role.active_of_ne_idle fun hi =>
        Role.idle_ne_active hi (seq.eq_of_idle hi ▸ hact)
      obtain ⟨rfl, hlen⟩ := host.eq_begin hidle hh
      exact ⟨a, ha, hlen, seq⟩

/-- A host operation leaves SPIBB-S idle when it is idle. -/
theorem Slave.HostStep.role {p : Params} {b : SPins} {x h : Slave} (hs : x.HostStep p b h) : h.role = x.role := by
  cases hs <;> rfl

theorem Slave.HostStep.csPrev {p : Params} {b : SPins} {x h : Slave} (hs : x.HostStep p b h) :
    h.csPrev = x.csPrev := by
  cases hs <;> rfl

/-- A step that makes SPIBB-S active is a session start, on chip-select seen LOW after HIGH (R184). -/
theorem Slave.Stepped.start_of_idle_active {s : State} {x' : Slave} (hs : Slave.Stepped s x')
    (hidle : s.slave.role = .idle) (hact : x'.role = .active) :
    ∃ b h, s.nextTick.s = some b ∧ b.rst = false ∧ s.slave.csPrev = true ∧ (s.readSPins b).csN = false ∧
      s.slave.HostStep s.params (s.readSPins b) h ∧ x' = h.startSession.sawCs (s.readSPins b).csN := by
  obtain ⟨-, rfl⟩ | ⟨b, hb, hc⟩ := hs
  · exact (Role.idle_ne_active hidle hact).elim
  · cases hc with
    | reset => cases hact
    | @run rst h y host seq =>
      have hh : h.role = .idle := host.role.trans hidle
      cases seq with
      | idle => exact (Role.idle_ne_active hh hact).elim
      | start _ csPrev cs => exact ⟨b, h, hb, s.readSPins_rst b ▸ rst, host.csPrev ▸ csPrev, cs, host, rfl⟩
      | deselected act | sample act | bitDone act | commit act | commitFull act | miss act | deadline act =>
        exact (Role.idle_ne_active hh act).elim

end Sys2Proof.Machine
end

section
/-!
The bits of a byte in an accumulator (00_scope.md R12): none at first, one more with each shift, and after the eighth
the accumulator is the byte.
-/
namespace Sys2Proof.Machine

theorem holdsTop_zero (acc q : Byte) : holdsTop 0 acc q := nofun

theorem holdsTop_shiftIn {n : Nat} {acc q : Byte} (h : holdsTop n acc q) (hn : n < 8) {b : Level}
    (hb : b = q.getLsbD (7 - n)) : holdsTop (n + 1) (shiftIn acc b) q := by
  intro j hj
  rw [shiftIn_getLsbD acc b j (by omega)]
  split
  · next hj0 => rw [hb, hj0, show 8 - (n + 1) + 0 = 7 - n by omega]
  · rw [h (j - 1) (by omega), show 8 - n + (j - 1) = 8 - (n + 1) + j by omega]

theorem holdsTop_eight {acc q : Byte} (h : holdsTop 8 acc q) : acc = q := by
  apply BitVec.eq_of_getLsbD_eq
  intro j hj
  simpa using h j hj

/-- A buffer that holds the bytes below an index holds one more once the next is written. -/
theorem Memory.read?_write_prefix {m : Memory} {n : Nat} {q : Nat → Byte} {v : Byte}
    (h : ∀ i, i < n → m.read? i = some (q i)) (hv : v = q n) (i : Nat) (hi : i < n + 1) :
    (m.write n v).read? i = some (q i) := by
  rw [Memory.read?_write]
  split
  · next hin => rw [hv, hin]
  · exact h i (by omega)

end Sys2Proof.Machine
end

section
/-!
O53: what SPIBB-M receives (41_master_sequencer.md R157). `Received` is established by an accepted START and kept by
every sequencer step; at `P_FINISH` it is the result.
-/
namespace Sys2Proof.Machine

theorem Master.received_begin (q : Nat → Byte) (m : Master) : m.begin.Received q where
  stored := nofun
  current := holdsTop_zero _ _
  justStored := nofun

/-- An action before `P_STORE` stores nothing, so only the bits sampled so far matter. -/
theorem Master.Received.withinByte {q : Nat → Byte} {m m' : Master} (h : m.Received q) (hrx : m'.rx = m.rx)
    (hbyte : m'.byte = m.byte) (hphase : m'.phase ≠ .pDeassert)
    (hcurrent : holdsTop m'.sampledBits m'.acc (q m.byte)) : m'.Received q where
  stored i hi := by
    rw [hrx]
    exact h.stored i (hbyte ▸ hi)
  current := hbyte.symm ▸ hcurrent
  justStored hdeassert := absurd hdeassert hphase

/-- `P_DEASSERT` counts the byte just stored. -/
theorem Master.Received.nextByte {q : Nat → Byte} {m m' : Master} (h : m.Received q) (hphase : m.phase = .pDeassert)
    (hrx : m'.rx = m.rx) (hbyte : m'.byte = m.byte + 1) (hphase' : m'.phase = .pAssert ∨ m'.phase = .pFinish) :
    m'.Received q where
  stored i hi := by
    rw [hrx]
    rcases Nat.lt_succ_iff_lt_or_eq.1 (hbyte ▸ hi) with hlt | rfl
    · exact h.stored i hlt
    · exact h.justStored hphase
  current := by
    have hnone : m'.sampledBits = 0 := by rcases hphase' with e | e <;> rw [Master.sampledBits, e]
    rw [hnone]
    exact holdsTop_zero _ _
  justStored hdeassert := by rcases hphase' with e | e <;> rw [e] at hdeassert <;> cases hdeassert

/-- Every sequencer step of an active SPIBB-M keeps `Received`, if `P_SAMPLE` finds the bit of its position. -/
theorem Master.SeqStep.received {p : Params} {l : Level} {q : Nat → Byte} {m m' : Master} (hs : m.SeqStep p l m')
    (hm : m.Received q) (hact : m'.role = .active)
    (hbit : m.dly = 0 → m.phase = .pSample → l = (q m.byte).getLsbD m.bit.val) : m'.Received q := by
  cases hs with
  | idle => exact hm
  | dwell => exact ⟨hm.stored, hm.current, hm.justStored⟩
  | pAssert => exact hm.withinByte rfl rfl nofun (holdsTop_zero _ _)
  | pDrive _ _ phase | pHigh _ _ phase =>
    have hcurrent := hm.current
    rw [Master.sampledBits, phase] at hcurrent
    exact hm.withinByte rfl rfl nofun hcurrent
  | pSample _ dly phase =>
    have hcurrent : holdsTop (7 - m.bit.val) m.acc (q m.byte) := by
      simpa only [Master.sampledBits, phase] using hm.current
    have hlt := m.bit.isLt
    have hshift : holdsTop (7 - m.bit.val + 1) (shiftIn m.acc l) (q m.byte) :=
      holdsTop_shiftIn hcurrent (by omega) (by rw [hbit dly phase, show 7 - (7 - m.bit.val) = m.bit.val by omega])
    rw [show 7 - m.bit.val + 1 = 8 - m.bit.val by omega] at hshift
    exact hm.withinByte rfl rfl nofun hshift
  | pLowLast _ _ phase bit =>
    have hcurrent := hm.current
    rw [Master.sampledBits, phase, bit] at hcurrent
    exact hm.withinByte rfl rfl nofun hcurrent
  | pLowNext _ _ phase b bit =>
    have hcurrent := hm.current
    rw [Master.sampledBits, phase, ← bit] at hcurrent
    simp only [Nat.reduceSubDiff] at hcurrent
    exact hm.withinByte rfl rfl nofun hcurrent
  | pStore _ _ phase =>
    have hcurrent := hm.current
    rw [Master.sampledBits, phase] at hcurrent
    have hwrite := Memory.read?_write_prefix hm.stored (holdsTop_eight hcurrent)
    exact ⟨fun i hi => hwrite i (Nat.lt_succ_of_lt hi), hcurrent, fun _ => hwrite _ (Nat.lt_succ_self _)⟩
  | pDeassertLast _ _ phase => exact hm.nextByte phase rfl rfl (.inr rfl)
  | pDeassertNext _ _ phase => exact hm.nextByte phase rfl rfl (.inl rfl)
  | pFinish => cases hact

/-- At the end of `P_FINISH` the result is what was received. -/
theorem Master.SeqStep.result_of_received {p : Params} {l : Level} {q : Nat → Byte} {m m' : Master}
    (hs : m.SeqStep p l m') (hinv : m.Inv p) (hact : m.role = .active) (hm : m.Received q)
    (hidle : m'.role = .idle) :
    m'.res = .ready ∧ m'.rxLen = m.txLen ∧ ∀ i, i < m.txLen → m'.rx.read? i = some (q i) := by
  cases hs with
  | pFinish _ _ phase => exact ⟨rfl, rfl, hinv.finishByte hact phase ▸ hm.stored⟩
  | _ => exact (Role.idle_ne_active hidle hact).elim

/-- Settles O53: a START begins with nothing received, and in a transfer the step is one sequencer step. -/
theorem masterReceivesWhatMisoCarries : Obligations.MasterReceivesWhatMisoCarries := by
  intro q s u hinv hstep hrst
  obtain ⟨-, hm, -⟩ := step_cases hstep
  refine ⟨fun hidle hact => ?_, fun hact hrec hbit => ?_⟩
  · obtain ⟨a, -, -, seq⟩ := hm.seqStep_of_start hidle hact
    exact seq.received (s.master.received_begin q) hact nofun
  · obtain ⟨-, hsame⟩ | ⟨a, ha, seq⟩ := hm.seqStep_of_active hinv.master hrst hact
    · exact ⟨fun _ => hsame.symm ▸ hrec, fun hidle => (Role.idle_ne_active hidle (hsame.symm ▸ hact)).elim⟩
    · exact ⟨fun hact' => seq.received hrec hact' (hbit a ha), seq.result_of_received hinv.master hact hrec⟩

end Sys2Proof.Machine
end

section
/-!
O54: loopback (41_master_sequencer.md R156). `P_SAMPLE` finds on `mosi` the bit `P_DRIVE` put there, so O53's contract
holds with `TX` itself as the bytes received.
-/
namespace Sys2Proof.Machine

/-- Below `tx_len` the transmit buffer holds values (10_state.md R50). -/
theorem Master.Inv.tx_read? {p : Params} {m : Master} (h : m.Inv p) {i : Nat} (hi : i < m.txLen) :
    m.tx.read? i = some (m.txByte i) := by
  obtain ⟨v, hv⟩ := Option.isSome_iff_exists.1 (h.txWritten i hi)
  rw [Master.txByte, hv, Option.getD_some]

theorem Master.txByte_congr {m m' : Master} (htx : m'.tx = m.tx) (hepoch : m'.epoch = m.epoch) :
    m'.txByte = m.txByte := by
  funext i
  rw [Master.txByte, htx, hepoch, Master.txByte]

/-- A step of an active SPIBB-M that is not reset leaves its transmit buffer as it is (R27, R73). -/
theorem Master.Stepped.tx_frame_of_active {s : State} {m' : Master} (hs : Master.Stepped s m')
    (hrst : ∀ a, s.nextTick.m = some a → a.rst = false) (hact : s.master.role = .active) :
    m'.tx = s.master.tx ∧ m'.txLen = s.master.txLen ∧ m'.epoch = s.master.epoch := by
  obtain ⟨-, rfl⟩ | ⟨a, h, -, rfl | rfl, seq⟩ := hs.seqStep_or_taken hrst hact
  · exact ⟨rfl, rfl, rfl⟩
  · exact seq.tx_frame
  · exact seq.tx_frame

/-- Settles O54: O53 with `TX` as the bytes received; `TX` is the same before and after the step. -/
theorem loopbackReturnsTx : Obligations.LoopbackReturnsTx := by
  intro s u hinv hwiring hstep hrst hact hrec
  obtain ⟨-, hm, -⟩ := step_cases hstep
  obtain ⟨htx, -, hepoch⟩ := hm.tx_frame_of_active hrst hact
  obtain ⟨-, hkeep⟩ := masterReceivesWhatMisoCarries s.master.txByte s u hinv hstep hrst
  obtain ⟨hactive, hfinished⟩ := hkeep hact hrec fun a _ _ hphase => by
    rw [s.misoRead_mosi _ hwiring]
    exact hinv.master.activeMosi hact (by rw [hphase]; rfl)
  refine ⟨fun hact' => (Master.txByte_congr htx hepoch).symm ▸ hactive hact', fun hidle => ?_⟩
  obtain ⟨-, hlen, hbytes⟩ := hfinished hidle
  refine ⟨hlen, fun i hi => ⟨_, hbytes i (hlen ▸ hi), ?_⟩⟩
  exact (congrArg (Memory.read? · i) htx).trans (hinv.master.tx_read? (hlen ▸ hi))

end Sys2Proof.Machine
end

section
/-!
O55: what SPIBB-S receives in a session (42_slave_sequencer.md R186). `Received` is established by the session start and
kept by every step of the session; however the session ends, it is the result.
-/
namespace Sys2Proof.Machine

theorem Slave.received_startSession (q : Nat → Byte) (x : Slave) : x.startSession.Received q where
  committed := nofun
  current := holdsTop_zero _ _

theorem Slave.Received.sawCs {q : Nat → Byte} {x : Slave} (h : x.Received q) (cs : Level) :
    (x.sawCs cs).Received q := ⟨h.committed, h.current⟩

/-- After the eighth falling edge the commit completes one more byte. -/
theorem Slave.Received.read?_commit {q : Nat → Byte} {x : Slave} (h : x.Received q) (hphase : x.phase = .wLow)
    (hbit : x.bit = 7) : ∀ i, i < x.byte + 1 → (x.rx.write x.byte x.acc).read? i = some (q i) := by
  have hcurrent := h.current
  rw [Slave.sampledBits, hphase, hbit] at hcurrent
  exact Memory.read?_write_prefix h.committed (holdsTop_eight hcurrent)

/-- Every step of a session keeps `Received`, if a sample finds the bit of its position. -/
theorem Slave.SeqStep.received {p : Params} {b : SPins} {q : Nat → Byte} {x x' : Slave} (hs : x.SeqStep p b x')
    (hact : x.role = .active) (hx : x.Received q) (hact' : x'.role = .active)
    (hbit : x.phase = .wHigh → b.csN = false → b.sclk = true → b.mosi = (q x.byte).getLsbD (7 - x.bit.val)) :
    x'.Received q := by
  have hcurrent := hx.current
  cases hs with
  | idle idle | start idle => exact (Role.idle_ne_active idle hact).elim
  | deselected | commitFull | deadline => cases hact'
  | sample _ phase cs clk =>
    rw [Slave.sampledBits, phase] at hcurrent
    exact ⟨hx.committed, holdsTop_shiftIn hcurrent x.bit.isLt (hbit phase cs clk)⟩
  | bitDone _ phase _ _ bit =>
    rw [Slave.sampledBits, phase] at hcurrent
    refine ⟨hx.committed, ?_⟩
    rw [Slave.sampledBits, Slave.bitDone_phase, Slave.bitDone_bit, Slave.bit_succ_val bit]
    exact hcurrent
  | commit _ phase _ _ bit => exact ⟨hx.read?_commit phase bit, holdsTop_zero _ _⟩
  | miss => exact ⟨hx.committed, hcurrent⟩

/-- However a session ends, its result is what was received. -/
theorem Slave.SeqStep.result_of_received {p : Params} {b : SPins} {q : Nat → Byte} {x x' : Slave}
    (hs : x.SeqStep p b x') (hact : x.role = .active) (hx : x.Received q) (hidle : x'.role = .idle) :
    x'.res ≠ .none ∧ ∀ j, j < x'.rxLen → x'.rx.read? j = some (q j) := by
  cases hs with
  | deselected | deadline => exact ⟨nofun, hx.committed⟩
  | commitFull _ phase _ _ bit full => exact ⟨nofun, full ▸ hx.read?_commit phase bit⟩
  | start => cases hidle
  | idle | sample | bitDone | commit | miss => exact (Role.idle_ne_active hidle hact).elim

/-- Settles O55: a session starts with nothing received, and a step of it is one sequencer step. -/
theorem slaveReceivesWhatMosiCarries : Obligations.SlaveReceivesWhatMosiCarries := by
  intro q s u hinv hstep hrst
  obtain ⟨-, -, hx⟩ := step_cases hstep
  refine ⟨fun hidle hact => ?_, fun hact hrec hbit => ?_⟩
  · obtain ⟨b, h, -, -, -, -, -, e⟩ := hx.start_of_idle_active hidle hact
    rw [e]
    exact (h.received_startSession q).sawCs _
  · obtain ⟨-, hsame⟩ | ⟨b, y, hb, seq, e⟩ := hx.seqStep_of_active hinv.slave hrst hact
    · exact ⟨fun _ => hsame.symm ▸ hrec, fun hidle => (Role.idle_ne_active hidle (hsame.symm ▸ hact)).elim⟩
    · refine ⟨fun hact' => ?_, fun hidle => ?_⟩
      · rw [e] at hact' ⊢
        exact (seq.received hact hrec hact' (hbit b hb)).sawCs _
      · change u.slave.res ≠ .none ∧ ∀ j, j < u.slave.rxLen → u.slave.rx.read? j = some (q j)
        rw [e] at hidle ⊢
        exact seq.result_of_received hact hrec hidle

end Sys2Proof.Machine
end

section
/-!
The sequencer step of SPIBB-S by its situation: what the levels read, the role and the wait leave possible
(42_slave_sequencer.md R170 to R178).
-/
namespace Sys2Proof.Machine

/-- Chip-select HIGH ends a session READY and leaves an idle block as it is (R173). -/
theorem Slave.SeqStep.of_deselected {p : Params} {b : SPins} {x y : Slave} (hs : x.SeqStep p b y)
    (hcs : b.csN = true) :
    (x.role = .idle ∧ y = x) ∨ (x.role = .active ∧ y = x.endSession .ready x.byte) := by
  cases hs with
  | idle idle => exact .inl ⟨idle, rfl⟩
  | deselected act => exact .inr ⟨act, rfl⟩
  | _ => simp_all

/-- An idle block starts a session on a falling edge of chip-select and else stays as it is (R184). -/
theorem Slave.SeqStep.of_idle {p : Params} {b : SPins} {x y : Slave} (hs : x.SeqStep p b y)
    (hidle : x.role = .idle) :
    (¬ (x.csPrev = true ∧ b.csN = false) ∧ y = x) ∨ (x.csPrev = true ∧ b.csN = false ∧ y = x.startSession) := by
  cases hs with
  | idle _ noEdge => exact .inl ⟨noEdge, rfl⟩
  | start _ csPrev cs => exact .inr ⟨csPrev, cs, rfl⟩
  | _ => simp_all

/-- A poll that misses counts, or meets the deadline (R178). -/
theorem Slave.SeqStep.of_miss {p : Params} {b : SPins} {x y : Slave} (hs : x.SeqStep p b y)
    (hact : x.role = .active) (hcs : b.csN = false) (hclk : b.sclk = decide (x.phase = .wLow)) :
    (x.tmr + 1 ≠ p.timeout ∧ y = { x with tmr := x.tmr + 1 }) ∨
    (x.tmr + 1 = p.timeout ∧ y = x.endSession .incomplete x.byte) := by
  cases hs with
  | miss _ _ _ early => exact .inl ⟨early, rfl⟩
  | deadline _ _ _ last => exact .inr ⟨last, rfl⟩
  | _ => simp_all

/-- A rising clock is sampled (R174). -/
theorem Slave.SeqStep.of_rising {p : Params} {b : SPins} {x y : Slave} (hs : x.SeqStep p b y)
    (hact : x.role = .active) (hphase : x.phase = .wHigh) (hcs : b.csN = false) (hclk : b.sclk = true) :
    y = x.sample b.mosi := by
  cases hs with
  | sample => rfl
  | _ => simp_all

/-- A falling clock ends the bit period, the byte, or the session (R175, R176, R177). -/
theorem Slave.SeqStep.of_falling {p : Params} {b : SPins} {x y : Slave} (hs : x.SeqStep p b y)
    (hact : x.role = .active) (hphase : x.phase = .wLow) (hcs : b.csN = false) (hclk : b.sclk = false) :
    (x.bit.val < 7 ∧ y = x.bitDone) ∨ (x.bit = 7 ∧ x.byte + 1 < p.capS ∧ y = x.commit) ∨
    (x.bit = 7 ∧ x.byte + 1 = p.capS ∧ y = x.commitFull p.capS) := by
  cases hs with
  | bitDone _ _ _ _ bit => exact .inl ⟨bit, rfl⟩
  | commit _ _ _ _ bit room => exact .inr (.inl ⟨bit, room, rfl⟩)
  | commitFull _ _ _ _ bit full => exact .inr (.inr ⟨bit, full, rfl⟩)
  | _ => simp_all

/-- A cycle that is not reset is a host step, a sequencer step and the note of the level read. -/
theorem Slave.CycleStep.host_seq {p : Params} {b : SPins} {x x' : Slave} (hc : x.CycleStep p b x')
    (hrst : b.rst = false) : ∃ h y, x.HostStep p b h ∧ h.SeqStep p b y ∧ x' = y.sawCs b.csN := by
  cases hc with
  | reset rst => exact Bool.noConfusion (hrst.symm.trans rst)
  | @run _ h y host seq => exact ⟨h, y, host, seq, rfl⟩

/-- A host operation changes neither the wait of SPIBB-S nor the polls it has lasted. -/
theorem Slave.HostStep.wait {p : Params} {b : SPins} {x h : Slave} (hs : x.HostStep p b h) :
    h.phase = x.phase ∧ h.tmr = x.tmr := by
  cases hs <;> exact ⟨rfl, rfl⟩

theorem Slave.HostStep.byte {p : Params} {b : SPins} {x h : Slave} (hs : x.HostStep p b h) : h.byte = x.byte := by
  cases hs <;> rfl

end Sys2Proof.Machine
end

section
/-!
The slave of a pair in a session of one byte: where one cycle takes it from each of its positions
(70_reset_and_hazards.md R234, R236). The host step of the cycle does not move it.
-/
namespace Sys2Proof.Machine

theorem Slave.HostStep.waitsHigh {p : Params} {b : SPins} {x h : Slave} {k t : Nat} (hs : x.HostStep p b h)
    (hx : x.WaitsHigh k t) : h.WaitsHigh k t := by
  cases hs <;> exact ⟨hx.active, hx.phase, hx.byte, hx.bit, hx.tmr⟩

theorem Slave.HostStep.waitsLow {p : Params} {b : SPins} {x h : Slave} {k t : Nat} (hs : x.HostStep p b h)
    (hx : x.WaitsLow k t) : h.WaitsLow k t := by
  cases hs <;> exact ⟨hx.active, hx.phase, hx.byte, hx.bit, hx.tmr⟩

theorem Slave.HostStep.hasCommitted {p : Params} {b : SPins} {x h : Slave} {cap t : Nat} (hs : x.HostStep p b h)
    (hx : x.HasCommitted cap t) : h.HasCommitted cap t := by
  cases hs <;> exact ⟨hx.full, hx.waits⟩

/-- Chip-select HIGH leaves the slave idle with the level noted; a session it ends is READY with its whole bytes. -/
theorem Slave.CycleStep.of_deselected {p : Params} {b : SPins} {x x' : Slave} (hc : x.CycleStep p b x')
    (hrst : b.rst = false) (hcs : b.csN = true) :
    x'.role = .idle ∧ x'.csPrev = true ∧ (x.role = .active → x'.res = .ready ∧ x'.rxLen = x.byte) := by
  obtain ⟨h, y, host, seq, rfl⟩ := hc.host_seq hrst
  obtain ⟨hidle, rfl⟩ | ⟨-, rfl⟩ := seq.of_deselected hcs
  · exact ⟨hidle, hcs, fun hact => (Role.idle_ne_active (host.role.symm.trans hidle) hact).elim⟩
  · exact ⟨rfl, hcs, fun _ => ⟨rfl, host.byte⟩⟩

/-- The falling edge of chip-select starts a session. -/
theorem Slave.CycleStep.waitsHigh_of_select {p : Params} {b : SPins} {x x' : Slave} (hc : x.CycleStep p b x')
    (hrst : b.rst = false) (hidle : x.role = .idle) (hprev : x.csPrev = true) (hcs : b.csN = false) :
    x'.WaitsHigh 0 0 := by
  obtain ⟨h, y, host, seq, rfl⟩ := hc.host_seq hrst
  obtain ⟨hnone, -⟩ | ⟨-, -, rfl⟩ := seq.of_idle (host.role.trans hidle)
  · exact absurd ⟨host.csPrev.trans hprev, hcs⟩ hnone
  · exact ⟨rfl, rfl, rfl, rfl, rfl⟩

/-- A poll for the rising edge that misses before the deadline counts. -/
theorem Slave.CycleStep.waitsHigh_of_miss {p : Params} {b : SPins} {x x' : Slave} {k t : Nat}
    (hc : x.CycleStep p b x') (hrst : b.rst = false) (hx : x.WaitsHigh k t) (hcs : b.csN = false)
    (hclk : b.sclk = false) (ht : t + 1 ≠ p.timeout) : x'.WaitsHigh k (t + 1) := by
  obtain ⟨h, y, host, seq, rfl⟩ := hc.host_seq hrst
  have hh := host.waitsHigh hx
  obtain ⟨-, rfl⟩ | ⟨hlast, -⟩ := seq.of_miss hh.active hcs (by rw [hclk, hh.phase]; rfl)
  · exact ⟨hh.active, hh.phase, hh.byte, hh.bit, congrArg (· + 1) hh.tmr⟩
  · exact absurd (hh.tmr ▸ hlast) ht

/-- A poll for the falling edge that misses before the deadline counts. -/
theorem Slave.CycleStep.waitsLow_of_miss {p : Params} {b : SPins} {x x' : Slave} {k t : Nat}
    (hc : x.CycleStep p b x') (hrst : b.rst = false) (hx : x.WaitsLow k t) (hcs : b.csN = false)
    (hclk : b.sclk = true) (ht : t + 1 ≠ p.timeout) : x'.WaitsLow k (t + 1) := by
  obtain ⟨h, y, host, seq, rfl⟩ := hc.host_seq hrst
  have hh := host.waitsLow hx
  obtain ⟨-, rfl⟩ | ⟨hlast, -⟩ := seq.of_miss hh.active hcs (by rw [hclk, hh.phase]; rfl)
  · exact ⟨hh.active, hh.phase, hh.byte, hh.bit, congrArg (· + 1) hh.tmr⟩
  · exact absurd (hh.tmr ▸ hlast) ht

/-- The rising edge is sampled, and the slave waits for the falling edge of the same bit. -/
theorem Slave.CycleStep.waitsLow_of_rising {p : Params} {b : SPins} {x x' : Slave} {k t : Nat}
    (hc : x.CycleStep p b x') (hrst : b.rst = false) (hx : x.WaitsHigh k t) (hcs : b.csN = false)
    (hclk : b.sclk = true) : x'.WaitsLow k 0 := by
  obtain ⟨h, y, host, seq, rfl⟩ := hc.host_seq hrst
  have hh := host.waitsHigh hx
  obtain rfl := seq.of_rising hh.active hh.phase hcs hclk
  exact ⟨hh.active, rfl, hh.byte, hh.bit, rfl⟩

/-- A falling edge within the byte leads to the wait for the next rising edge. -/
theorem Slave.CycleStep.waitsHigh_of_falling {p : Params} {b : SPins} {x x' : Slave} {k t : Nat}
    (hc : x.CycleStep p b x') (hrst : b.rst = false) (hx : x.WaitsLow k t) (hk : k < 7) (hcs : b.csN = false)
    (hclk : b.sclk = false) : x'.WaitsHigh (k + 1) 0 := by
  obtain ⟨h, y, host, seq, rfl⟩ := hc.host_seq hrst
  have hh := host.waitsLow hx
  have hbit : h.bit.val < 7 := hh.bit.symm ▸ hk
  obtain ⟨-, rfl⟩ | ⟨hlast, -⟩ | ⟨hlast, -⟩ := seq.of_falling hh.active hh.phase hcs hclk
  · exact ⟨hh.active, rfl, hh.byte, by rw [Slave.sawCs_bit, Slave.bitDone_bit, Slave.bit_succ_val hbit, hh.bit], rfl⟩
  · rw [hlast] at hbit
    exact absurd hbit (lt_irrefl 7)
  · rw [hlast] at hbit
    exact absurd hbit (lt_irrefl 7)

/-- The eighth falling edge commits the byte; a one-byte buffer is full with it, which ends the session READY. -/
theorem Slave.CycleStep.hasCommitted_of_falling {p : Params} {b : SPins} {x x' : Slave} {t : Nat}
    (hc : x.CycleStep p b x') (hrst : b.rst = false) (hx : x.WaitsLow 7 t) (hcs : b.csN = false)
    (hclk : b.sclk = false) :
    x'.HasCommitted p.capS 0 ∧ (x'.role = .idle → x'.res = .ready ∧ x'.rxLen = 1) := by
  obtain ⟨h, y, host, seq, rfl⟩ := hc.host_seq hrst
  have hh := host.waitsLow hx
  have hbyte : h.byte + 1 = 1 := by rw [hh.byte]
  obtain ⟨hlt, -⟩ | ⟨-, hroom, rfl⟩ | ⟨-, hfull, rfl⟩ := seq.of_falling hh.active hh.phase hcs hclk
  · rw [hh.bit] at hlt
    exact absurd hlt (lt_irrefl 7)
  · refine ⟨⟨fun hcap => by omega, fun _ => ⟨hh.active, rfl, hbyte, rfl, rfl⟩⟩, fun hidle => ?_⟩
    exact (Role.idle_ne_active hidle hh.active).elim
  · have hcap : p.capS = 1 := hfull.symm.trans hbyte
    exact ⟨⟨fun _ => ⟨rfl, hcs⟩, fun hne => absurd hcap hne⟩, fun _ => ⟨rfl, hcap⟩⟩

/-- With its byte committed and chip-select still LOW the slave stays where it is; a wait goes on to the deadline. -/
theorem Slave.CycleStep.hasCommitted_of_miss {p : Params} {b : SPins} {x x' : Slave} {t : Nat}
    (hc : x.CycleStep p b x') (hrst : b.rst = false) (hx : x.HasCommitted p.capS t) (hcs : b.csN = false)
    (hclk : b.sclk = false) (ht : p.capS ≠ 1 → t + 1 ≠ p.timeout) : x'.HasCommitted p.capS (t + 1) := by
  obtain ⟨h, y, host, seq, rfl⟩ := hc.host_seq hrst
  have hh := host.hasCommitted hx
  by_cases hcap : p.capS = 1
  · obtain ⟨hidle, hprev⟩ := hh.full hcap
    obtain ⟨-, rfl⟩ | ⟨htrue, -⟩ := seq.of_idle hidle
    · exact ⟨fun _ => ⟨hidle, hcs⟩, fun hne => absurd hcap hne⟩
    · exact Bool.noConfusion (hprev.symm.trans htrue)
  · obtain ⟨hact, hphase, hbyte, hbit, htmr⟩ := hh.waits hcap
    obtain ⟨-, rfl⟩ | ⟨hlast, -⟩ := seq.of_miss hact hcs (by rw [hclk, hphase]; rfl)
    · exact ⟨fun h1 => absurd h1 hcap, fun _ => ⟨hact, hphase, hbyte, hbit, congrArg (· + 1) htmr⟩⟩
    · exact absurd (htmr ▸ hlast) (ht hcap)

end Sys2Proof.Machine
end

section
/-!
O57: the bits a pair in step finds at its samples (10_state.md R45, 41_master_sequencer.md R157, 42_slave_sequencer.md
R182). The slave's position is read off `InStep`, and the invariant says what each data line carries there.
-/
namespace Sys2Proof.Machine

/-- `State.InStep` as a relation of the two blocks. -/
def InStepAt (p : Params) (m : Master) (x : Slave) : Prop :=
  let s : State := { State.resetWith p Wiring.pair with master := m, slave := x }
  s.InStep

theorem State.inStep_iff (s : State) : s.InStep ↔ InStepAt s.params s.master s.slave := Iff.rfl

section
variable {p : Params} {m : Master} {x : Slave}

/-- Between bytes, and before and after a transfer, the slave is idle or has one whole byte. -/
theorem inStepAt_of_unselected (h : m.role = .idle ∨ m.phase = .pAssert ∨ m.phase = .pFinish) :
    InStepAt p m x ↔ x.role = .idle ∨ (x.byte = 1 ∧ x.bit.val = 0) := by
  cases hrole : m.role with
  | idle => simp only [InStepAt, State.InStep, hrole]
  | active => rcases h with h | h | h <;> simp only [InStepAt, State.InStep, hrole, h, reduceCtorEq] at h ⊢

variable (hact : m.role = .active)
include hact

theorem inStepAt_of_pDrive (hphase : m.phase = .pDrive) : InStepAt p m x ↔
    if m.dly = m.bitBase p then
      if m.bit = 7 then x.role = .idle ∧ x.csPrev = true else x.WaitsLow (6 - m.bit.val) p.dHalf
    else m.dly < m.bitBase p ∧ x.WaitsHigh (7 - m.bit.val) (m.bitBase p - 1 - m.dly) := by
  simp only [InStepAt, State.InStep, hact, hphase, highWaitMisses]
  rfl

theorem inStepAt_of_pSample (hphase : m.phase = .pSample) : InStepAt p m x ↔
    m.dly ≤ p.dDrive ∧ x.WaitsHigh (7 - m.bit.val) (m.bitBase p + (p.dDrive - m.dly)) := by
  simp only [InStepAt, State.InStep, hact, hphase, highWaitMisses]
  rfl

theorem inStepAt_of_pHigh (hphase : m.phase = .pHigh) : InStepAt p m x ↔
    m.dly = 0 ∧ x.WaitsHigh (7 - m.bit.val) (m.bitBase p + p.dDrive + 1) := by
  simp only [InStepAt, State.InStep, hact, hphase, highWaitMisses]
  rfl

theorem inStepAt_of_pLow (hphase : m.phase = .pLow) : InStepAt p m x ↔
    if m.dly = p.dHalf then x.WaitsHigh (7 - m.bit.val) (m.bitBase p + p.dDrive + 2)
    else m.dly < p.dHalf ∧ x.WaitsLow (7 - m.bit.val) (p.dHalf - 1 - m.dly) := by
  simp only [InStepAt, State.InStep, hact, hphase, highWaitMisses]
  rfl

theorem inStepAt_of_pStore (hphase : m.phase = .pStore) : InStepAt p m x ↔
    if m.dly = p.dHalf then x.WaitsLow 7 p.dHalf
    else m.dly < p.dHalf ∧ x.HasCommitted p.capS (p.dHalf - 1 - m.dly) := by
  simp only [InStepAt, State.InStep, hact, hphase]
  rfl

theorem inStepAt_of_pDeassert (hphase : m.phase = .pDeassert) : InStepAt p m x ↔
    m.dly = 0 ∧ x.HasCommitted p.capS p.dHalf := by
  simp only [InStepAt, State.InStep, hact, hphase]
  rfl

end

/-- A slave that waits for the rising edge of bit count `7 - b` drives response bit `b` of byte 0 (R45, R182). -/
theorem Slave.Inv.miso_of_waitsHigh {p : Params} {x : Slave} (hx : x.Inv p) {t : Nat} {b : Fin 8}
    (hw : x.WaitsHigh (7 - b.val) t) : x.miso = x.respBit 0 b.val := by
  rw [hx.activeMiso hw.active, hw.byte, hw.bit, show 7 - (7 - b.val) = b.val by omega]

theorem MPhase.eq_pLow_of_lines {ph : MPhase} (h : ph.lines.2 = true) : ph = .pLow := by
  cases ph with
  | pLow => rfl
  | _ => cases h

/-- With the clock HIGH, an active SPIBB-M is at `P_LOW` (R89). -/
theorem Master.Inv.phase_of_clock_high {p : Params} {m : Master} (hm : m.Inv p) (hact : m.role = .active)
    (hclk : m.sclk = true) : m.phase = .pLow :=
  MPhase.eq_pLow_of_lines ((hm.lines_of_phase hact rfl).2.symm.trans hclk)

/-- A slave of a pair in step that sees the rising edge is in byte 0, at the bit on `mosi`. -/
theorem InStepAt.bit_of_rising {p : Params} {m : Master} {x : Slave} (h : InStepAt p m x) (hm : m.Inv p)
    (hact : m.role = .active) (hphase : x.phase = .wHigh) (hclk : m.sclk = true) :
    x.byte = 0 ∧ m.mosi = (m.txByte m.byte).getLsbD (7 - x.bit.val) := by
  have hlow := hm.phase_of_clock_high hact hclk
  rw [inStepAt_of_pLow hact hlow] at h
  split at h
  · refine ⟨h.byte, ?_⟩
    rw [hm.activeMosi hact (by rw [hlow]; rfl), h.bit, show 7 - (7 - m.bit.val) = m.bit.val by omega]
    rfl
  · exact SPhase.noConfusion (hphase.symm.trans h.2.phase)

/-- Settles O57: at `P_SAMPLE` the slave waits for the rising edge of the master's bit; at the rising edge the master is
at `P_LOW`, with that bit on `mosi`. -/
theorem pairInStepExchangesTheSameBit : Obligations.PairInStepExchangesTheSameBit := by
  intro s hinv hin hact
  refine ⟨fun hphase _ => ?_, fun _ hwait _ hclk => ?_⟩
  · obtain ⟨-, hw⟩ := (inStepAt_of_pSample hact hphase).1 hin
    exact ⟨hw.active, hw.byte, hinv.slave.miso_of_waitsHigh hw⟩
  · obtain ⟨hbyte, hmosi⟩ := InStepAt.bit_of_rising hin hinv.master hact hwait hclk
    have hlt : s.master.byte < s.master.txLen :=
      hinv.master.activeByte hact (by rw [hinv.master.phase_of_clock_high hact hclk]; nofun)
    exact ⟨hbyte, _, hinv.master.tx_read? hlt, hmosi⟩

end Sys2Proof.Machine
end

section
/-!
O56: a pair in lockstep stays in step (70_reset_and_hazards.md R236, R241 L). One lemma per phase of the master: the
slave's cycle, which reads the lines of that phase, takes it to where the master's dwell or action expects it. The
deadline bound keeps every miss below `TIMEOUT`. (`by exact hact` waits until the goal has named the master.)
-/
namespace Sys2Proof.Machine

/-- If the session ends here, it ends READY with one byte (R187). -/
def Slave.EndsWithOneByte (x x' : Slave) : Prop :=
  x.role = .active → x'.role = .idle → x'.res = .ready ∧ x'.rxLen = 1

theorem Slave.endsWithOneByte_of_active {x x' : Slave} (hact : x'.role = .active) : x.EndsWithOneByte x' :=
  fun _ hidle => (Role.idle_ne_active hidle hact).elim

theorem Slave.endsWithOneByte_of_idle {x x' : Slave} (hidle : x.role = .idle) : x.EndsWithOneByte x' :=
  fun hact => (Role.idle_ne_active hidle hact).elim

/-- A slave that has committed stays as it is: its session had ended before, or goes on. -/
theorem Slave.HasCommitted.endsWithOneByte {cap t t' : Nat} {x x' : Slave} (h : x.HasCommitted cap t)
    (h' : x'.HasCommitted cap t') : x.EndsWithOneByte x' := by
  by_cases hcap : cap = 1
  · exact Slave.endsWithOneByte_of_idle (h.full hcap).1
  · exact Slave.endsWithOneByte_of_active (h'.waits hcap).1

theorem Slave.HasCommitted.idle_or_oneByte {cap t : Nat} {x : Slave} (h : x.HasCommitted cap t) :
    x.role = .idle ∨ (x.byte = 1 ∧ x.bit.val = 0) := by
  by_cases hcap : cap = 1
  · exact .inl (h.full hcap).1
  · obtain ⟨-, -, hbyte, hbit, -⟩ := h.waits hcap
    exact .inr ⟨hbyte, hbit⟩

/-- The bit after another of the same byte is not the first one. -/
theorem Master.seven_ne_of_succ_eq_bit (m : Master) {n : Nat} (h : n + 1 = m.bit.val) : n ≠ 7 := by
  have hlt := m.bit.isLt
  omega

/-- What the bound of R236 leaves for the waits of a legal parameter set: both stay short of the deadline. -/
theorem waits_lt_timeout {p : Params} (hdead : p.deadlineBound) (hlegal : p.Legal) (m : Master) :
    m.bitBase p + p.dDrive + 2 < p.timeout ∧ p.dHalf + 1 < p.timeout := by
  obtain ⟨-, -, -, -, hbit, -⟩ := hlegal
  have hbase : m.bitBase p ≤ p.dSettle ∨ m.bitBase p ≤ p.dHalf := by
    rw [Master.bitBase]
    split
    · exact .inl le_rfl
    · exact .inr le_rfl
  simp only [Params.tBit, Params.deadlineBound] at hbit hdead
  omega

section
variable {p : Params} {l : Level} {m m' : Master} {b : SPins} {x x' : Slave}

/-- In the cycle after `P_ASSERT` the slave, idle, has yet to see chip-select fall. -/
theorem inStepAt_of_selected (hact : m.role = .active) (hphase : m.phase = .pDrive) (hbit : m.bit = 7)
    (hdly : m.dly = p.dSettle) (hidle : x.role = .idle) (hprev : x.csPrev = true) : InStepAt p m x := by
  rw [inStepAt_of_pDrive hact hphase, if_pos (by rw [hdly, Master.bitBase, if_pos hbit]), if_pos hbit]
  exact ⟨hidle, hprev⟩

/-- In the cycle after a `P_LOW` within the byte the slave has yet to see the clock fall. -/
theorem inStepAt_of_nextBit (hact : m.role = .active) (hphase : m.phase = .pDrive) (hbit : m.bit ≠ 7)
    (hdly : m.dly = p.dHalf) (hw : x.WaitsLow (6 - m.bit.val) p.dHalf) : InStepAt p m x := by
  rw [inStepAt_of_pDrive hact hphase, if_pos (by rw [hdly, Master.bitBase, if_neg hbit]), if_neg hbit]
  exact hw

/-- After chip-select was seen HIGH, `P_ASSERT` or its dwell finds the slave idle with that level noted. -/
theorem Master.SeqStep.inStepAt_of_pAssert (hs : m.SeqStep p l m') (hact : m.role = .active)
    (hphase : m.phase = .pAssert) (hidle : x'.role = .idle) (hprev : x'.csPrev = true) : InStepAt p m' x' := by
  cases hs with
  | dwell => exact (inStepAt_of_unselected (m := m.dwell) (.inr (.inl hphase))).2 (.inl hidle)
  | pAssert => exact inStepAt_of_selected hact rfl rfl rfl hidle hprev
  | _ => simp_all

theorem Master.SeqStep.inStepAt_of_pFinish (hs : m.SeqStep p l m') (hact : m.role = .active)
    (hphase : m.phase = .pFinish) (hidle : x'.role = .idle) : InStepAt p m' x' := by
  cases hs with
  | dwell => exact (inStepAt_of_unselected (m := m.dwell) (.inr (.inr hphase))).2 (.inl hidle)
  | pFinish => exact (inStepAt_of_unselected (.inl rfl)).2 (.inl hidle)
  | _ => simp_all

/-- With chip-select HIGH a session that ends has its one byte. -/
theorem InStepAt.endsWithOneByte_of_deselected (h : InStepAt p m x)
    (hunsel : m.role = .idle ∨ m.phase = .pAssert ∨ m.phase = .pFinish) (hc : x.CycleStep p b x')
    (hrst : b.rst = false) (hcs : b.csN = true) : x.EndsWithOneByte x' := by
  obtain ⟨-, -, hend⟩ := hc.of_deselected hrst hcs
  obtain hidle | ⟨hbyte, -⟩ := (inStepAt_of_unselected hunsel).1 h
  · exact Slave.endsWithOneByte_of_idle hidle
  · exact fun hact _ => hbyte ▸ hend hact

variable (hs : m.SeqStep p l m') (hact : m.role = .active) (hc : x.CycleStep p b x') (hrst : b.rst = false)
  (hcs : b.csN = false) (hlegal : p.Legal) (hdead : p.deadlineBound) (h : InStepAt p m x)
include hs hact hc hrst hcs hlegal hdead h

theorem InStepAt.after_pDrive (hphase : m.phase = .pDrive) (hclk : b.sclk = false) :
    InStepAt p m' x' ∧ x.EndsWithOneByte x' := by
  obtain ⟨hhigh, hhalf⟩ := waits_lt_timeout hdead hlegal m
  have hbitlt := m.bit.isLt
  have hx' : m.dly ≤ m.bitBase p ∧ x'.WaitsHigh (7 - m.bit.val) (m.bitBase p - m.dly) := by
    rw [inStepAt_of_pDrive hact hphase] at h
    split at h
    · next hdly =>
      rw [hdly, Nat.sub_self]
      split at h
      · next hbit =>
        rw [hbit]
        exact ⟨le_rfl, hc.waitsHigh_of_select hrst h.1 h.2 hcs⟩
      · next hbit =>
        have hne : m.bit.val ≠ 7 := fun e => hbit (Fin.ext e)
        rw [show 7 - m.bit.val = 6 - m.bit.val + 1 by omega]
        exact ⟨le_rfl, hc.waitsHigh_of_falling hrst h (by omega) hcs hclk⟩
    · obtain ⟨hlt, hw⟩ := h
      rw [show m.bitBase p - m.dly = m.bitBase p - 1 - m.dly + 1 by omega]
      exact ⟨hlt.le, hc.waitsHigh_of_miss hrst hw hcs hclk (by omega)⟩
  obtain ⟨hle, hw⟩ := hx'
  refine ⟨?_, Slave.endsWithOneByte_of_active hw.active⟩
  cases hs with
  | dwell _ dly =>
    have hlt : m.dly - 1 < m.bitBase p := by omega
    refine (inStepAt_of_pDrive (m := m.dwell) hact hphase).2 ?_
    rw [Master.dwell_dly, if_neg (by exact hlt.ne)]
    refine ⟨hlt, ?_⟩
    have htmr : m.bitBase p - 1 - (m.dly - 1) = m.bitBase p - m.dly := by omega
    exact htmr.symm ▸ hw
  | pDrive _ dly =>
    refine (inStepAt_of_pSample (by exact hact) (by rfl)).2 ?_
    refine ⟨le_rfl, ?_⟩
    rw [dly, show m.bitBase p - 0 = m.bitBase p + (p.dDrive - p.dDrive) by omega] at hw
    exact hw
  | _ => simp_all

theorem InStepAt.after_pSample (hphase : m.phase = .pSample) (hclk : b.sclk = false) :
    InStepAt p m' x' ∧ x.EndsWithOneByte x' := by
  obtain ⟨hhigh, hhalf⟩ := waits_lt_timeout hdead hlegal m
  obtain ⟨hle, hw⟩ := (inStepAt_of_pSample hact hphase).1 h
  have hw' := hc.waitsHigh_of_miss hrst hw hcs hclk (by omega)
  refine ⟨?_, Slave.endsWithOneByte_of_active hw'.active⟩
  cases hs with
  | dwell _ dly =>
    refine (inStepAt_of_pSample (m := m.dwell) hact hphase).2 ⟨(Nat.sub_le _ _).trans hle, ?_⟩
    have htmr : m.bitBase p + (p.dDrive - (m.dly - 1)) = m.bitBase p + (p.dDrive - m.dly) + 1 := by omega
    exact htmr.symm ▸ hw'
  | pSample _ dly =>
    refine (inStepAt_of_pHigh (by exact hact) (by rfl)).2 ?_
    rw [dly] at hw'
    exact ⟨rfl, hw'⟩
  | _ => simp_all

theorem InStepAt.after_pHigh (hphase : m.phase = .pHigh) (hclk : b.sclk = false) :
    InStepAt p m' x' ∧ x.EndsWithOneByte x' := by
  obtain ⟨hhigh, hhalf⟩ := waits_lt_timeout hdead hlegal m
  obtain ⟨hdly, hw⟩ := (inStepAt_of_pHigh hact hphase).1 h
  have hw' := hc.waitsHigh_of_miss hrst hw hcs hclk (by omega)
  refine ⟨?_, Slave.endsWithOneByte_of_active hw'.active⟩
  cases hs with
  | dwell _ dly => exact absurd hdly dly
  | pHigh =>
    refine (inStepAt_of_pLow (by exact hact) (by rfl)).2 ?_
    rw [if_pos rfl]
    exact hw'
  | _ => simp_all

theorem InStepAt.after_pLow (hphase : m.phase = .pLow) (hclk : b.sclk = true) :
    InStepAt p m' x' ∧ x.EndsWithOneByte x' := by
  obtain ⟨hhigh, hhalf⟩ := waits_lt_timeout hdead hlegal m
  have hx' : m.dly ≤ p.dHalf ∧ x'.WaitsLow (7 - m.bit.val) (p.dHalf - m.dly) := by
    rw [inStepAt_of_pLow hact hphase] at h
    split at h
    · next hdly =>
      rw [hdly, Nat.sub_self]
      exact ⟨le_rfl, hc.waitsLow_of_rising hrst h hcs hclk⟩
    · obtain ⟨hlt, hw⟩ := h
      rw [show p.dHalf - m.dly = p.dHalf - 1 - m.dly + 1 by omega]
      exact ⟨hlt.le, hc.waitsLow_of_miss hrst hw hcs hclk (by omega)⟩
  obtain ⟨hle, hw⟩ := hx'
  refine ⟨?_, Slave.endsWithOneByte_of_active hw.active⟩
  cases hs with
  | dwell _ dly =>
    have hlt : m.dly - 1 < p.dHalf := by omega
    refine (inStepAt_of_pLow (m := m.dwell) hact hphase).2 ?_
    rw [Master.dwell_dly, if_neg (by exact hlt.ne)]
    refine ⟨hlt, ?_⟩
    have htmr : p.dHalf - 1 - (m.dly - 1) = p.dHalf - m.dly := by omega
    exact htmr.symm ▸ hw
  | pLowLast _ dly _ bit =>
    refine (inStepAt_of_pStore (by exact hact) (by rfl)).2 ?_
    rw [if_pos rfl]
    rw [dly, bit] at hw
    exact hw
  | pLowNext _ dly _ c bit =>
    have hc7 : c ≠ 7 := Fin.ne_of_val_ne (m.seven_ne_of_succ_eq_bit bit)
    rw [dly, ← bit, show 7 - (c.val + 1) = 6 - c.val by omega] at hw
    exact inStepAt_of_nextBit hact rfl hc7 rfl hw
  | _ => simp_all

theorem InStepAt.after_pStore (hphase : m.phase = .pStore) (hclk : b.sclk = false) :
    InStepAt p m' x' ∧ x.EndsWithOneByte x' := by
  obtain ⟨hhigh, hhalf⟩ := waits_lt_timeout hdead hlegal m
  have hx' : m.dly ≤ p.dHalf ∧ x'.HasCommitted p.capS (p.dHalf - m.dly) ∧ x.EndsWithOneByte x' := by
    rw [inStepAt_of_pStore hact hphase] at h
    split at h
    · next hdly =>
      obtain ⟨hw, hend⟩ := hc.hasCommitted_of_falling hrst h hcs hclk
      rw [hdly, Nat.sub_self]
      exact ⟨le_rfl, hw, fun _ => hend⟩
    · obtain ⟨hlt, hw⟩ := h
      have hw' := hc.hasCommitted_of_miss hrst hw hcs hclk (by omega)
      rw [show p.dHalf - m.dly = p.dHalf - 1 - m.dly + 1 by omega]
      exact ⟨hlt.le, hw', hw.endsWithOneByte hw'⟩
  obtain ⟨hle, hw, hend⟩ := hx'
  refine ⟨?_, hend⟩
  cases hs with
  | dwell _ dly =>
    have hlt : m.dly - 1 < p.dHalf := by omega
    refine (inStepAt_of_pStore (m := m.dwell) hact hphase).2 ?_
    rw [Master.dwell_dly, if_neg (by exact hlt.ne)]
    refine ⟨hlt, ?_⟩
    have htmr : p.dHalf - 1 - (m.dly - 1) = p.dHalf - m.dly := by omega
    exact htmr.symm ▸ hw
  | pStore _ dly =>
    refine (inStepAt_of_pDeassert (by exact hact) (by rfl)).2 ?_
    rw [dly] at hw
    exact ⟨rfl, hw⟩
  | _ => simp_all

theorem InStepAt.after_pDeassert (hphase : m.phase = .pDeassert) (hclk : b.sclk = false) :
    InStepAt p m' x' ∧ x.EndsWithOneByte x' := by
  obtain ⟨hhigh, hhalf⟩ := waits_lt_timeout hdead hlegal m
  obtain ⟨hdly, hw⟩ := (inStepAt_of_pDeassert hact hphase).1 h
  have hw' := hc.hasCommitted_of_miss hrst hw hcs hclk (by omega)
  refine ⟨?_, hw.endsWithOneByte hw'⟩
  cases hs with
  | dwell _ dly => exact absurd hdly dly
  | pDeassertLast => exact (inStepAt_of_unselected (.inr (.inr rfl))).2 hw'.idle_or_oneByte
  | pDeassertNext => exact (inStepAt_of_unselected (.inr (.inl rfl))).2 hw'.idle_or_oneByte
  | _ => simp_all

end

/-- A tick of an active SPIBB-M of a pair in step, with the slave's cycle that reads its lines. -/
theorem InStepAt.after_seqStep {p : Params} {l : Level} {m m' : Master} {b : SPins} {x x' : Slave}
    (h : InStepAt p m x) (hs : m.SeqStep p l m') (hm : m.Inv p) (hact : m.role = .active)
    (hc : x.CycleStep p b x') (hrst : b.rst = false) (hcs : b.csN = m.csN) (hclk : b.sclk = m.sclk)
    (hlegal : p.Legal) (hdead : p.deadlineBound) : InStepAt p m' x' ∧ x.EndsWithOneByte x' := by
  obtain ⟨hcsN, hsclk⟩ := hm.lines_of_phase hact rfl
  rw [hcsN] at hcs
  rw [hsclk] at hclk
  cases hphase : m.phase <;> rw [hphase] at hcs hclk
  case pAssert =>
    obtain ⟨hidle, hprev, -⟩ := hc.of_deselected hrst hcs
    exact ⟨hs.inStepAt_of_pAssert hact hphase hidle hprev,
      h.endsWithOneByte_of_deselected (.inr (.inl hphase)) hc hrst hcs⟩
  case pFinish =>
    obtain ⟨hidle, -, -⟩ := hc.of_deselected hrst hcs
    exact ⟨hs.inStepAt_of_pFinish hact hphase hidle,
      h.endsWithOneByte_of_deselected (.inr (.inr hphase)) hc hrst hcs⟩
  case pDrive => exact h.after_pDrive hs hact hc hrst hcs hlegal hdead hphase hclk
  case pSample => exact h.after_pSample hs hact hc hrst hcs hlegal hdead hphase hclk
  case pHigh => exact h.after_pHigh hs hact hc hrst hcs hlegal hdead hphase hclk
  case pLow => exact h.after_pLow hs hact hc hrst hcs hlegal hdead hphase hclk
  case pStore => exact h.after_pStore hs hact hc hrst hcs hlegal hdead hphase hclk
  case pDeassert => exact h.after_pDeassert hs hact hc hrst hcs hlegal hdead hphase hclk

/-- A tick of an idle SPIBB-M, which an accepted START may make active: its chip-select was HIGH. -/
theorem InStepAt.after_idle {p : Params} {a : MPins} {m m' : Master} {b : SPins} {x x' : Slave}
    (h : InStepAt p m x) (hidle : m.role = .idle) (hcm : m.CycleStep p a m') (hrstm : a.rst = false)
    (hc : x.CycleStep p b x') (hrst : b.rst = false) (hcs : b.csN = true) :
    InStepAt p m' x' ∧ x.EndsWithOneByte x' := by
  refine ⟨?_, h.endsWithOneByte_of_deselected (.inl hidle) hc hrst hcs⟩
  obtain ⟨hslave, hprev, -⟩ := hc.of_deselected hrst hcs
  cases hcm with
  | reset rst => exact Bool.noConfusion (hrstm.symm.trans rst)
  | @run _ g _ host seq =>
    cases hg : g.role with
    | idle =>
      rw [seq.eq_of_idle hg]
      exact (inStepAt_of_unselected (.inl hg)).2 (.inl hslave)
    | active =>
      obtain ⟨rfl, -⟩ := host.eq_begin hidle hg
      exact seq.inStepAt_of_pAssert rfl rfl hslave hprev

/-- A step that clocks SPIBB-S does to it what one of its cycles does. -/
theorem Slave.Stepped.cycleStep {s : State} {x' : Slave} {b : SPins} (hs : Slave.Stepped s x')
    (hb : s.nextTick.s = some b) : s.slave.CycleStep s.params (s.readSPins b) x' := by
  obtain ⟨hnone, -⟩ | ⟨b', hb', hc⟩ := hs
  · simp [hb] at hnone
  · obtain rfl : b = b' := Option.some.inj (hb.symm.trans hb')
    exact hc

/-- Settles O56: in a pair the slave's pins are the master's lines, so the master's role and phase say which lemma
applies. -/
theorem lockstepPairStaysInStep : Obligations.LockstepPairStaysInStep := by
  intro s u hinv hdead hwiring hin hlock hstep
  obtain ⟨⟨a, ha, harst⟩, b, hb, hbrst⟩ := hlock
  obtain ⟨-, hm, hx⟩ := step_cases hstep
  obtain ⟨hcs, hclk, -⟩ := s.readSPins_pair b (congrArg Wiring.slave hwiring)
  have hc := hx.cycleStep hb
  have hrst : (s.readSPins b).rst = false := (s.readSPins_rst b).trans hbrst
  have hafter : InStepAt s.params u.master u.slave ∧ s.slave.EndsWithOneByte u.slave := by
    cases hrole : s.master.role with
    | idle =>
      have hhigh := (hinv.master.idleLines hrole).2.1
      exact InStepAt.after_idle hin hrole (hm.cycleStep ha) harst hc hrst (hcs.trans hhigh)
    | active =>
      obtain ⟨hnone, -⟩ | ⟨a', -, seq⟩ := hm.seqStep_of_active hinv.master
        (fun _ => Tick.rst_of_runsM ⟨a, ha, harst⟩) hrole
      · simp [ha] at hnone
      · exact InStepAt.after_seqStep hin seq hinv.master hrole hc hrst hcs hclk hinv.legal hdead
  rw [State.inStep_iff, step_params hstep]
  exact hafter

end Sys2Proof.Machine
end

section
/-!
O58: a whole transfer of a pair in lockstep (42_slave_sequencer.md R187). The invariant of the run says of SPIBB-S that
its present session carries the byte being sent, or that the session that ended has delivered it, but for the cycles
from `P_ASSERT` until the slave has seen chip-select fall.
-/
namespace Sys2Proof.Machine

/-- The session in progress has received `v` so far, or the last one has delivered `v` alone. -/
structure Slave.Carries (v : Byte) (x : Slave) : Prop where
  receiving : x.role = .active → x.Received fun _ => v
  delivered : x.role = .idle → x.res = .ready ∧ x.rxLen = 1 ∧ x.rx.read? 0 = some v

/-- The byte on its way: the one at `m_byte`, or, once all are sent, the last. -/
def Master.sentByte (m : Master) : Byte :=
  if m.role = .active ∧ m.phase ≠ .pFinish then m.txByte m.byte else m.txByte (m.txLen - 1)

/-- SPIBB-M has yet to lower chip-select for its byte, or did so in its latest cycle. -/
def Master.BeforeSession (p : Params) (m : Master) : Prop :=
  m.role = .active ∧ (m.phase = .pAssert ∨ (m.phase = .pDrive ∧ m.bit = 7 ∧ m.dly = p.dSettle))

theorem Master.sentByte_of_active {m : Master} (hact : m.role = .active) (hphase : m.phase ≠ .pFinish) :
    m.sentByte = m.txByte m.byte := if_pos ⟨hact, hphase⟩

theorem Master.sentByte_of_all_sent {m : Master} (h : m.role = .idle ∨ m.phase = .pFinish) :
    m.sentByte = m.txByte (m.txLen - 1) := by
  rcases h with h | h <;> exact if_neg (by simp [h])

/-- Out of the cycles before a session, each step keeps the byte on its way. -/
theorem Master.SeqStep.sentByte {p : Params} {l : Level} {m m' : Master} (hs : m.SeqStep p l m')
    (hact : m.role = .active) (hafter : ¬ m'.BeforeSession p) : m'.sentByte = m.sentByte := by
  cases hs with
  | idle | dwell => rfl
  | pAssert => exact absurd ⟨hact, .inr ⟨rfl, rfl, rfl⟩⟩ hafter
  | pDeassertNext => exact absurd ⟨hact, .inl rfl⟩ hafter
  | pDeassertLast _ _ phase last =>
    rw [Master.sentByte_of_active hact (by rw [phase]; nofun)]
    refine (Master.sentByte_of_all_sent (.inr rfl)).trans ?_
    simp only [← last, Nat.add_sub_cancel]
    rfl
  | pFinish _ _ phase =>
    rw [Master.sentByte_of_all_sent (.inr phase)]
    exact Master.sentByte_of_all_sent (.inl rfl)
  | pDrive _ _ phase | pSample _ _ phase | pHigh _ _ phase | pLowLast _ _ phase | pLowNext _ _ phase
  | pStore _ _ phase =>
    rw [Master.sentByte_of_active hact (by rw [phase]; nofun)]
    exact Master.sentByte_of_active (by exact hact) (by nofun)

/-- A cycle in which SPIBB-S's host asks nothing has no host step. -/
theorem Slave.HostStep.eq_of_quiet {p : Params} {b : SPins} {x h : Slave} (hs : x.HostStep p b h)
    (hquiet : b.hValid = false) : h = x := by
  cases hs with
  | unchanged => rfl
  | load _ _ valid | read _ _ valid => exact Bool.noConfusion (hquiet.symm.trans valid)

/-- A cycle without a host command leaves SPIBB-S's response buffer as it is. -/
theorem Slave.Stepped.tx_frame_of_quiet {s : State} {x' : Slave} (hs : Slave.Stepped s x')
    (hrst : ∀ b, s.nextTick.s = some b → b.rst = false) (hquiet : ∀ b, s.nextTick.s = some b → b.hValid = false) :
    x'.tx = s.slave.tx ∧ x'.txLen = s.slave.txLen ∧ x'.epoch = s.slave.epoch := by
  obtain ⟨-, rfl⟩ | ⟨b, hb, hc⟩ := hs
  · exact ⟨rfl, rfl, rfl⟩
  · obtain ⟨h, y, host, seq, rfl⟩ := hc.host_seq ((s.readSPins_rst b).trans (hrst b hb))
    obtain rfl := host.eq_of_quiet ((s.readSPins_hValid b).trans (hquiet b hb))
    exact seq.tx_frame

/-- A cycle without a host command in which an idle SPIBB-S stays idle leaves its result as it is. -/
theorem Slave.Stepped.result_of_quiet_idle {s : State} {x' : Slave} (hs : Slave.Stepped s x')
    (hrst : ∀ b, s.nextTick.s = some b → b.rst = false) (hquiet : ∀ b, s.nextTick.s = some b → b.hValid = false)
    (hidle : s.slave.role = .idle) (hidle' : x'.role = .idle) :
    x'.res = s.slave.res ∧ x'.rxLen = s.slave.rxLen ∧ x'.rx = s.slave.rx := by
  obtain ⟨-, rfl⟩ | ⟨b, hb, hc⟩ := hs
  · exact ⟨rfl, rfl, rfl⟩
  · obtain ⟨h, y, host, seq, rfl⟩ := hc.host_seq ((s.readSPins_rst b).trans (hrst b hb))
    obtain rfl := host.eq_of_quiet ((s.readSPins_hValid b).trans (hquiet b hb))
    obtain ⟨-, rfl⟩ | ⟨-, -, rfl⟩ := seq.of_idle hidle
    · exact ⟨rfl, rfl, rfl⟩
    · cases hidle'

theorem Slave.carries_of_start {q : Byte} {x : Slave} (hact : x.role = .active) (h : x.Received fun _ => q) :
    x.Carries q := ⟨fun _ => h, fun hidle => (Role.idle_ne_active hidle hact).elim⟩

/-- A step keeps what SPIBB-S carries, if a sample finds a bit of the same byte (O55). -/
theorem State.carries_of_step {s u : State} {v : Byte} (hinv : s.Inv) (hstep : step s = .next u)
    (hrst : ∀ b, s.nextTick.s = some b → b.rst = false) (hquiet : ∀ b, s.nextTick.s = some b → b.hValid = false)
    (hbit : ∀ b, s.nextTick.s = some b → s.slave.phase = .wHigh → (s.readSPins b).csN = false →
      (s.readSPins b).sclk = true → (s.readSPins b).mosi = v.getLsbD (7 - s.slave.bit.val))
    (hend : s.slave.EndsWithOneByte u.slave) (h : s.slave.Carries v) : u.slave.Carries v := by
  obtain ⟨-, -, hx⟩ := step_cases hstep
  obtain ⟨hstart, hkeep⟩ := slaveReceivesWhatMosiCarries (fun _ => v) s u hinv hstep hrst
  cases hrole : s.slave.role with
  | idle =>
    refine ⟨hstart hrole, fun hidle => ?_⟩
    obtain ⟨hres, hlen, hrx⟩ := hx.result_of_quiet_idle hrst hquiet hrole hidle
    rw [hres, hlen, hrx]
    exact h.delivered hrole
  | active =>
    obtain ⟨hactive, hidle⟩ := hkeep hrole (h.receiving hrole) hbit
    refine ⟨hactive, fun hi => ?_⟩
    obtain ⟨hres, hlen⟩ := hend hrole hi
    exact ⟨hres, hlen, (hidle hi).2 0 (by omega)⟩

theorem Master.SeqStep.beforeSession_of_pAssert {p : Params} {l : Level} {m m' : Master} (hs : m.SeqStep p l m')
    (hact : m.role = .active) (hphase : m.phase = .pAssert) : m'.BeforeSession p := by
  cases hs with
  | dwell => exact ⟨hact, .inl hphase⟩
  | pAssert => exact ⟨hact, .inr ⟨rfl, rfl, rfl⟩⟩
  | _ => simp_all

/-- The response byte of a slave: every bit of byte 0 that it answers (R180). -/
def Slave.respByte (x : Slave) : Byte := if 0 < x.txLen then x.txByte 0 else 0

theorem Slave.respByte_getLsbD (x : Slave) (b : Nat) : x.respByte.getLsbD b = x.respBit 0 b := by
  rw [Slave.respByte, Slave.respBit]
  split
  · rfl
  · exact BitVec.getLsbD_zero

/-- A tick of a pair in lockstep in which SPIBB-S's host asks nothing. -/
def Tick.QuietLockstep (t : Tick) : Prop := t.lockstep ∧ ∀ b, t.s = some b → b.hValid = false

/-- A pair in step, `k` cycles before the end of a transfer of `n` bytes, the last of them `v`, with the response byte
`r`. -/
structure State.Exchanging (v r : Byte) (n k : Nat) (s : State) : Prop where
  inv : s.Inv
  deadline : s.params.deadlineBound
  wiring : s.wiring = Wiring.pair
  inStep : s.InStep
  finishes : s.FinishesIn n k
  response : ∀ b, s.slave.respBit 0 b = r.getLsbD b
  last : s.master.txByte (n - 1) = v
  receiving : s.master.role = .active → s.master.Received fun _ => r
  received : s.master.role = .idle → ∀ i, i < n → s.master.rx.read? i = some r
  slaveIdle : s.master.role = .idle → s.slave.role = .idle
  carries : s.master.BeforeSession s.params ∨ s.slave.Carries s.master.sentByte

/-- Before the slave has seen chip-select fall, a tick of the pair leads to one more such cycle or to a session. -/
theorem State.carries_of_beforeSession {s u : State} {v : Byte} (hinv : s.Inv) (hin : s.InStep)
    (hwiring : s.wiring = Wiring.pair) (hstep : step s = .next u) {l : Level}
    (seq : s.master.SeqStep s.params l u.master) {b : SPins} (hb : s.nextTick.s = some b) (hrst : b.rst = false)
    (h : s.master.BeforeSession s.params) : u.master.BeforeSession s.params ∨ u.slave.Carries v := by
  obtain ⟨hact, hphase | ⟨hphase, hbit, hdly⟩⟩ := h
  · exact .inl (seq.beforeSession_of_pAssert hact hphase)
  · obtain ⟨-, -, hx⟩ := step_cases hstep
    have hpos := (inStepAt_of_pDrive hact hphase).1 hin
    rw [if_pos (by rw [hdly, Master.bitBase, if_pos hbit]), if_pos hbit] at hpos
    obtain ⟨hidle, hprev⟩ := hpos
    have hcs : (s.readSPins b).csN = false :=
      (s.readSPins_pair b (congrArg Wiring.slave hwiring)).1.trans (hinv.master.lines_of_phase hact hphase).1
    have hactive := ((hx.cycleStep hb).waitsHigh_of_select ((s.readSPins_rst b).trans hrst) hidle hprev hcs).active
    have hrst' : ∀ b', s.nextTick.s = some b' → b'.rst = false := fun _ => Tick.rst_of_runsS ⟨b, hb, hrst⟩
    exact .inr (Slave.carries_of_start hactive
      ((slaveReceivesWhatMosiCarries (fun _ => v) s u hinv hstep hrst').1 hidle hactive))

/-- The samples of the slave of a pair in step find bits of the byte on its way (O57). -/
theorem State.InStep.mosi_of_rising {s : State} (hin : s.InStep) (hinv : s.Inv) (hwiring : s.wiring = Wiring.pair)
    (hact : s.master.role = .active) (b : SPins) (hphase : s.slave.phase = .wHigh)
    (hclk : (s.readSPins b).sclk = true) :
    (s.readSPins b).mosi = s.master.sentByte.getLsbD (7 - s.slave.bit.val) := by
  obtain ⟨-, hsclk, hmosi⟩ := s.readSPins_pair b (congrArg Wiring.slave hwiring)
  rw [hsclk] at hclk
  have hlow := hinv.master.phase_of_clock_high hact hclk
  rw [hmosi, (InStepAt.bit_of_rising hin hinv.master hact hphase hclk).2,
    Master.sentByte_of_active hact (by rw [hlow]; nofun)]

/-- One tick of the exchange. -/
theorem State.Exchanging.tick {v r : Byte} {n k : Nat} {s : State} (h : s.Exchanging v r n (k + 1))
    (ht : s.nextTick.QuietLockstep) (hfits : s.nextTick.fits s.params) :
    ∃ u, step s = .next u ∧ u.Exchanging v r n k := by
  obtain ⟨hlock, hquiet⟩ := ht
  obtain ⟨⟨a, ha, harst⟩, b, hb, hbrst⟩ := id hlock
  have hrstM : ∀ a', s.nextTick.m = some a' → a'.rst = false := fun _ => Tick.rst_of_runsM hlock.1
  have hrstS : ∀ b', s.nextTick.s = some b' → b'.rst = false := fun _ => Tick.rst_of_runsS hlock.2
  obtain ⟨u, hu, hfin⟩ := h.finishes.step ⟨a, ha, harst⟩ hfits
  have hact := h.finishes.master.active (Nat.succ_pos k)
  have hparams := step_params hu
  obtain ⟨-, hm, hx⟩ := step_cases hu
  obtain ⟨hnone, -⟩ | ⟨a', -, seq⟩ := hm.seqStep_of_active h.inv.master hrstM hact
  · simp [ha] at hnone
  obtain ⟨htx, htxLen, hepoch⟩ := hm.tx_frame_of_active hrstM hact
  obtain ⟨hresp, hrespLen, hrespEpoch⟩ := hx.tx_frame_of_quiet hrstS hquiet
  obtain ⟨hin, hend⟩ := lockstepPairStaysInStep s u h.inv h.deadline h.wiring h.inStep hlock hu
  obtain ⟨hreceiving, hreceived⟩ := (masterReceivesWhatMisoCarries (fun _ => r) s u h.inv hu hrstM).2 hact
    (h.receiving hact) fun a'' _ hdly hphase => by
      rw [s.misoRead_slave _ (congrArg Wiring.miso h.wiring), ← h.response]
      exact ((pairInStepExchangesTheSameBit s h.inv h.inStep hact).1 hphase hdly).2.2
  refine ⟨u, hu, State.inv_of_step h.inv hu, hparams ▸ h.deadline, (step_wiring hu).trans h.wiring, hin, hfin,
    fun c => ?_, ?_, hreceiving, fun hidle => ?_, fun hidle => ?_, ?_⟩
  · rw [Slave.respBit_congr hresp hrespLen hrespEpoch]
    exact h.response c
  · rw [Master.txByte_congr htx hepoch]
    exact h.last
  · obtain ⟨-, -, hbytes⟩ := hreceived hidle
    exact h.finishes.master.len ▸ hbytes
  · have hphase := (seq.finish_of_active_idle hact hidle).2
    have hcs : (s.readSPins b).csN = true :=
      (s.readSPins_pair b (congrArg Wiring.slave h.wiring)).1.trans (h.inv.master.lines_of_phase hact hphase).1
    exact ((hx.cycleStep hb).of_deselected ((s.readSPins_rst b).trans hbrst) hcs).1
  · rw [hparams]
    obtain hbefore | hcarries := h.carries
    · exact State.carries_of_beforeSession h.inv h.inStep h.wiring hu seq hb hbrst hbefore
    · refine or_iff_not_imp_left.2 fun hafter => ?_
      rw [seq.sentByte hact hafter]
      exact State.carries_of_step h.inv hu hrstS hquiet
        (fun b' _ hphase _ => h.inStep.mosi_of_rising h.inv h.wiring hact b' hphase) hend hcarries

theorem State.Exchanging.run {v r : Byte} {n k : Nat} (ts rest : List Tick) {s : State}
    (h : s.Exchanging v r n (k + ts.length)) (hinputs : s.inputs = ts ++ rest)
    (hts : ∀ t ∈ ts, t.QuietLockstep ∧ t.fits s.params) :
    ∃ u, core.run ts.length s = .next u ∧ u.Exchanging v r n k := by
  induction ts generalizing s with
  | nil => exact ⟨s, rfl, h⟩
  | cons t ts ih =>
    obtain ⟨⟨hquiet, hfits⟩, hrest⟩ := List.forall_mem_cons.1 hts
    have hnext : s.nextTick = t := s.nextTick_cons t (ts ++ rest) hinputs
    obtain ⟨u, hu, hex⟩ := State.Exchanging.tick (k := k + ts.length) h (hnext ▸ hquiet) (hnext ▸ hfits)
    obtain ⟨w, hw, hdone⟩ := ih hex (by rw [step_inputs hu, hinputs]; rfl) (by rwa [step_params hu])
    exact ⟨w, (run_succ hu).trans hw, hdone⟩

/-- The tick of an accepted START begins the exchange. -/
theorem State.exchanging_of_start {s : State} {a : MPins} {len : Nat} {wdata : List Byte} {v : Byte} (hinv : s.Inv)
    (hdead : s.params.deadlineBound) (hwiring : s.wiring = Wiring.pair) (hin : s.InStep)
    (hidle : s.master.role = .idle) (hlen : 1 ≤ s.master.txLen)
    (hv : s.readByte .mTx (s.master.txLen - 1) = some v) (ha : s.nextTick.m = some a) (hvalid : a.hValid = true)
    (hdec : decode s.params .mHost a.hcmd = .ok (.mStart len wdata)) (ht : s.nextTick.QuietLockstep)
    (hfits : s.nextTick.fits s.params) :
    ∃ u, step s = .next u ∧
      u.Exchanging v s.slave.respByte s.master.txLen (s.master.txLen * s.params.tByte) := by
  obtain ⟨hlock, hquiet⟩ := ht
  obtain ⟨⟨a', ha', harst⟩, b, hb, hbrst⟩ := id hlock
  obtain rfl : a = a' := Option.some.inj (ha.symm.trans ha')
  have hrstM : ∀ a', s.nextTick.m = some a' → a'.rst = false := fun _ => Tick.rst_of_runsM hlock.1
  have hrstS : ∀ b', s.nextTick.s = some b' → b'.rst = false := fun _ => Tick.rst_of_runsS hlock.2
  obtain ⟨u, hu, hfin⟩ := hinv.step_start ha harst hvalid hdec hfits hidle hlen
  have hact : u.master.role = .active :=
    hfin.master.active (Nat.mul_pos hlen (by simp only [Params.tByte]; omega))
  have hparams := step_params hu
  obtain ⟨-, hm, hx⟩ := step_cases hu
  obtain ⟨_, -, -, seq⟩ := hm.seqStep_of_start hidle hact
  obtain ⟨htx, -, hepoch⟩ := seq.tx_frame
  obtain ⟨hresp, hrespLen, hrespEpoch⟩ := hx.tx_frame_of_quiet hrstS hquiet
  have hnot : ¬ u.master.role = .idle := fun h => Role.idle_ne_active h hact
  refine ⟨u, hu, State.inv_of_step hinv hu, hparams ▸ hdead, (step_wiring hu).trans hwiring,
    (lockstepPairStaysInStep s u hinv hdead hwiring hin hlock hu).1, hfin, fun c => ?_, ?_,
    fun _ => (masterReceivesWhatMisoCarries _ s u hinv hu hrstM).1 hidle hact, fun h => absurd h hnot,
    fun h => absurd h hnot, .inl (hparams ▸ seq.beforeSession_of_pAssert rfl rfl)⟩
  · rw [Slave.respBit_congr hresp hrespLen hrespEpoch, Slave.respByte_getLsbD]
  · rw [Master.txByte_congr htx hepoch]
    change (s.master.tx.read? _).getD _ = v
    rw [show s.master.tx.read? (s.master.txLen - 1) = some v from hv, Option.getD_some]

/-- Settles O58: the START's tick begins the exchange, `N * T_BYTE` ticks end it, and the invariant of the run is then
the claim. -/
theorem lockstepTransferExchangesBytes : Obligations.LockstepTransferExchangesBytes := by
  intro s len wdata a v hinv hfit hdead hwiring hin hidle hlen hv ha hvalid hdec hlong hticks
  obtain ⟨t, ts, hinputs⟩ := List.exists_cons_of_length_pos (Nat.zero_lt_of_lt hlong)
  have hnext : s.nextTick = t := s.nextTick_cons t ts hinputs
  rw [hinputs, List.take_succ_cons, List.forall_mem_cons] at hticks
  rw [hinputs, List.length_cons] at hlong
  obtain ⟨hfirst, hticks⟩ := hticks
  obtain ⟨u, hu, hex⟩ := State.exchanging_of_start hinv hdead hwiring hin hidle hlen hv ha hvalid hdec
    (hnext ▸ hfirst) hfit.nextTick
  have hcount : (ts.take (s.master.txLen * s.params.tByte)).length = s.master.txLen * s.params.tByte :=
    List.length_take_of_le (by omega)
  have hsplit : u.inputs = ts.take (s.master.txLen * s.params.tByte) ++ ts.drop (s.master.txLen * s.params.tByte) := by
    rw [step_inputs hu, hinputs, List.tail_cons, List.take_append_drop]
  obtain ⟨w, hw, hdone⟩ := State.Exchanging.run (k := 0) (ts.take (s.master.txLen * s.params.tByte)) _
    (by rwa [hcount, Nat.zero_add]) hsplit fun t' ht' =>
      ⟨hticks t' ht', step_params hu ▸ hfit t' (hinputs ▸ List.mem_cons_of_mem t (List.mem_of_mem_take ht'))⟩
  rw [hcount] at hw
  have hend := hdone.finishes.master.idle
  obtain ⟨hres, hrxLen⟩ := hdone.finishes.master.finished hend
  have hslave := hdone.slaveIdle hend
  have hcarries := hdone.carries.resolve_left fun hbefore => Role.idle_ne_active hend hbefore.1
  obtain ⟨hsres, hsrxLen, hbyte⟩ := hcarries.delivered hslave
  rw [Master.sentByte_of_all_sent (.inl hend), hdone.finishes.master.len, hdone.last] at hbyte
  exact ⟨w, (run_succ hu).trans hw, hend, hres, hrxLen,
    fun i hi => ⟨_, hdone.received hend i hi, fun b _ => s.slave.respByte_getLsbD b⟩, hslave, hsres, hsrxLen, hbyte⟩

end Sys2Proof.Machine
end

section
/-!
O41 and O59: a missed poll (42_slave_sequencer.md R178), and what quiescence of the slave means (70_reset_and_hazards.md
R234). One more step of the slave changes nothing but its poll counter exactly when it is a step of the edge detector
that sees no new level, or a missed poll before the deadline.
-/
namespace Sys2Proof.Machine

theorem execSSeqWHigh_of_low {s : State} (hcs : s.sPins.csN = false) (hclk : s.sPins.sclk = false) :
    execSSeqWHigh s = s.slaveStepped (s.slave.pollMiss s.params.timeout) := by
  simp [execSSeqWHigh, hcs, hclk]

theorem execSSeqWLow_of_high {s : State} (hcs : s.sPins.csN = false) (hclk : s.sPins.sclk = true) :
    execSSeqWLow s = s.slaveStepped (s.slave.pollMiss s.params.timeout) := by
  simp [execSSeqWLow, hcs, hclk]

/-- A wait that sees chip-select LOW and not its level is a missed poll. -/
theorem exec_wait_of_miss {s : State} {i : Instr} (hcs : s.sPins.csN = false)
    (hmiss : i = .sSeqWHigh ∧ s.sPins.sclk = false ∨ i = .sSeqWLow ∧ s.sPins.sclk = true) :
    exec i s = s.slaveStepped (s.slave.pollMiss s.params.timeout) := by
  rcases hmiss with ⟨rfl, hclk⟩ | ⟨rfl, hclk⟩
  · exact execSSeqWHigh_of_low hcs hclk
  · exact execSSeqWLow_of_high hcs hclk

theorem Slave.pollMiss_of_last {x : Slave} {timeout : Nat} (h : x.tmr + 1 = timeout) :
    x.pollMiss timeout = x.endSession .incomplete x.byte := if_pos h

theorem Slave.pollMiss_of_early {x : Slave} {timeout : Nat} (h : x.tmr + 1 ≠ timeout) :
    x.pollMiss timeout = { x with tmr := x.tmr + 1 } := if_neg h

/-- Settles O41: either wait polls, and the poll has the two outcomes of R178. -/
theorem missedPollsMeetTheDeadline : Obligations.MissedPollsMeetTheDeadline := by
  intro s i hcs hmiss
  rw [exec_wait_of_miss hcs hmiss, State.slaveStepped, hcs]
  exact ⟨fun hlast => by rw [Slave.pollMiss_of_last hlast]; rfl,
    fun hearly => by rw [Slave.pollMiss_of_early hearly]; rfl⟩

theorem slaveIdleStep_of_noEdge {s : State} (h : s.slave.csPrev = false ∨ s.sPins.csN = true) :
    slaveIdleStep s = s.slaveStepped s.slave :=
  if_neg fun hedge => h.elim (fun hp => by simp [hp] at hedge) fun hc => by simp [hc] at hedge

/-- The sequencer step of an active slave is the wait its phase names. -/
theorem seqS_of_active {s : State} (hact : s.slave.role = .active) : seqS s = exec s.slave.phase.instr s := by
  rw [seqS_eq, if_neg (by simp [hact])]

/-- A missed poll of an active slave. -/
theorem seqS_of_miss {s : State} (hact : s.slave.role = .active) (hcs : s.sPins.csN = false)
    (hclk : s.sPins.sclk = decide (s.slave.phase = .wLow)) :
    seqS s = s.slaveStepped (s.slave.pollMiss s.params.timeout) := by
  rw [seqS_of_active hact]
  refine exec_wait_of_miss hcs ?_
  cases hphase : s.slave.phase with
  | wHigh => exact .inl ⟨rfl, by rw [hclk, hphase]; rfl⟩
  | wLow => exact .inr ⟨rfl, by rw [hclk, hphase]; rfl⟩

/-- The step of a quiescent slave, for the pins as they are. -/
theorem seqS_keeps_iff (s : State) :
    (∃ u, seqS s = .next u ∧ { u.slave with tmr := s.slave.tmr } = s.slave) ↔
      (s.slave.role = .idle ∧ s.slave.csPrev = s.sPins.csN) ∨
      (s.slave.role = .active ∧ s.sPins.csN = false ∧ s.slave.csPrev = false ∧
        s.sPins.sclk = decide (s.slave.phase = .wLow) ∧ s.slave.tmr + 1 ≠ s.params.timeout) := by
  constructor
  · rintro ⟨u, hu, hsame⟩
    obtain ⟨y, seq, rfl⟩ := seqS_cases hu
    have hrole : y.role = s.slave.role := (congrArg Slave.role hsame :)
    have hphase : y.phase = s.slave.phase := (congrArg Slave.phase hsame :)
    have hprev : s.sPins.csN = s.slave.csPrev := (congrArg Slave.csPrev hsame :)
    cases seq with
    | idle idle => exact .inl ⟨idle, hprev.symm⟩
    | miss act cs clk early => exact .inr ⟨act, cs, hprev.symm.trans cs, clk, early⟩
    | start idle => exact (Role.idle_ne_active idle hrole.symm).elim
    | deselected act | commitFull act | deadline act => exact (Role.idle_ne_active hrole.symm act).elim
    | sample _ phase => exact SPhase.noConfusion (hphase.trans phase)
    | bitDone _ phase | commit _ phase => exact SPhase.noConfusion (hphase.trans phase)
  · rintro (⟨hidle, hprev⟩ | ⟨hact, hcs, hprev, hclk, hearly⟩)
    · have hnoEdge : s.slave.csPrev = false ∨ s.sPins.csN = true := by
        rw [hprev]
        exact (Bool.eq_false_or_eq_true _).symm
      refine ⟨_, by rw [seqS_eq, if_pos hidle, slaveIdleStep_of_noEdge hnoEdge]; rfl, ?_⟩
      simp only [Slave.sawCs, ← hprev]
    · refine ⟨_, by rw [seqS_of_miss hact hcs hclk, Slave.pollMiss_of_early hearly]; rfl, ?_⟩
      simp only [Slave.sawCs, hcs, ← hprev]

/-- Settles O59: quiescence speaks of the step at the pins read as the lines stand. -/
theorem quiescentSlave : Obligations.QuiescentSlave := fun s =>
  seqS_keeps_iff { s with sPins := s.readSPins s.sPins }

end Sys2Proof.Machine
end

section
/-!
O60: a pair under `SlaveKeepsUp` (70_reset_and_hazards.md R234, R241 I). The slave's cycle keeps it where the master's
position allows it; an action that changes a line or samples finds it settled, which leaves one of the places allowed,
and no other action moves the master to where the slave could not be. (`by exact act`
waits until the goal has named the master.)
-/
namespace Sys2Proof.Machine

/-- `State.KeepsInStep` as a relation of the two blocks. -/
def KeepsAt (p : Params) (m : Master) (x : Slave) : Prop :=
  let s : State := { State.resetWith p Wiring.pair with master := m, slave := x }
  s.KeepsInStep

theorem State.keepsInStep_iff (s : State) : s.KeepsInStep ↔ KeepsAt s.params s.master s.slave := Iff.rfl

section
variable {p : Params} {m : Master} {x : Slave}

theorem keepsAt_of_unselected (h : m.role = .idle ∨ m.phase = .pAssert ∨ m.phase = .pFinish) :
    KeepsAt p m x ↔ x.role = .idle ∨ (x.byte = 1 ∧ x.bit.val = 0) := by
  cases hrole : m.role with
  | idle => simp only [KeepsAt, State.KeepsInStep, hrole]
  | active => rcases h with h | h | h <;> simp only [KeepsAt, State.KeepsInStep, hrole, h, reduceCtorEq] at h ⊢

theorem keepsAt_of_driving (hact : m.role = .active) (hphase : m.phase = .pDrive ∨ m.phase = .pSample) :
    KeepsAt p m x ↔ x.atHigh (7 - m.bit.val) ∨
      (if m.bit = 7 then x.role = .idle ∧ x.csPrev = true else x.atLow (6 - m.bit.val)) := by
  rcases hphase with hphase | hphase <;> simp only [KeepsAt, State.KeepsInStep, hact, hphase]

theorem keepsAt_of_pHigh (hact : m.role = .active) (hphase : m.phase = .pHigh) :
    KeepsAt p m x ↔ x.atHigh (7 - m.bit.val) := by
  simp only [KeepsAt, State.KeepsInStep, hact, hphase]

theorem keepsAt_of_pLow (hact : m.role = .active) (hphase : m.phase = .pLow) :
    KeepsAt p m x ↔ x.atHigh (7 - m.bit.val) ∨ x.atLow (7 - m.bit.val) := by
  simp only [KeepsAt, State.KeepsInStep, hact, hphase]

theorem keepsAt_of_ending (hact : m.role = .active) (hphase : m.phase = .pStore ∨ m.phase = .pDeassert) :
    KeepsAt p m x ↔ x.atLow 7 ∨ x.HasCommitted p.capS x.tmr := by
  rcases hphase with hphase | hphase <;> (simp only [KeepsAt, State.KeepsInStep, hact, hphase]; rfl)

end

/-! ## The slave's cycle -/

theorem Slave.WaitsHigh.atHigh {x : Slave} {k t : Nat} (h : x.WaitsHigh k t) : x.atHigh k :=
  ⟨h.active, h.phase, h.byte, h.bit, rfl⟩

theorem Slave.WaitsLow.atLow {x : Slave} {k t : Nat} (h : x.WaitsLow k t) : x.atLow k :=
  ⟨h.active, h.phase, h.byte, h.bit, rfl⟩

theorem Slave.HasCommitted.forget {x : Slave} {cap t : Nat} (h : x.HasCommitted cap t) :
    x.HasCommitted cap x.tmr where
  full := h.full
  waits hcap := by
    obtain ⟨hact, hphase, hbyte, hbit, -⟩ := h.waits hcap
    exact ⟨hact, hphase, hbyte, hbit, rfl⟩

/-- A missed poll that does not end the session INCOMPLETE came before the deadline. -/
theorem Slave.CycleStep.early_of_miss {p : Params} {b : SPins} {x x' : Slave} (hc : x.CycleStep p b x')
    (hrst : b.rst = false) (hact : x.role = .active) (hcs : b.csN = false)
    (hclk : b.sclk = decide (x.phase = .wLow)) (hres : x'.res ≠ .incomplete) : x.tmr + 1 ≠ p.timeout := by
  obtain ⟨h, y, host, seq, rfl⟩ := hc.host_seq hrst
  obtain ⟨hphase, htmr⟩ := host.wait
  obtain ⟨hearly, -⟩ | ⟨-, rfl⟩ := seq.of_miss (host.role.trans hact) hcs (hphase.symm ▸ hclk)
  · exact htmr ▸ hearly
  · exact absurd rfl hres

section
variable {p : Params} {b : SPins} {x x' : Slave} {k : Nat} (hc : x.CycleStep p b x') (hrst : b.rst = false)
  (hcs : b.csN = false) (hres : x.role = .active → x'.res ≠ .incomplete)
include hc hrst hcs hres

theorem Slave.atHigh.after_low (h : x.atHigh k) (hclk : b.sclk = false) : x'.atHigh k := by
  have hearly := hc.early_of_miss hrst h.active hcs (by rw [hclk, h.phase]; rfl) (hres h.active)
  exact (hc.waitsHigh_of_miss hrst h hcs hclk hearly).atHigh

theorem Slave.atLow.after_high (h : x.atLow k) (hclk : b.sclk = true) : x'.atLow k := by
  have hearly := hc.early_of_miss hrst h.active hcs (by rw [hclk, h.phase]; rfl) (hres h.active)
  exact (hc.waitsLow_of_miss hrst h hcs hclk hearly).atLow

theorem Slave.HasCommitted.after_low (h : x.HasCommitted p.capS x.tmr) (hclk : b.sclk = false) :
    x'.HasCommitted p.capS x'.tmr := by
  refine (hc.hasCommitted_of_miss hrst h hcs hclk fun hcap => ?_).forget
  obtain ⟨hact, hphase, -⟩ := h.waits hcap
  exact hc.early_of_miss hrst hact hcs (by rw [hclk, hphase]; rfl) (hres hact)

end

/-- The slave's cycle, which reads the lines of the master's phase, keeps it where that phase allows it. -/
theorem KeepsAt.after_cycleS {p : Params} {m : Master} {b : SPins} {x x' : Slave} (h : KeepsAt p m x)
    (hm : m.Inv p) (hc : x.CycleStep p b x') (hrst : b.rst = false) (hcs : b.csN = m.csN) (hclk : b.sclk = m.sclk)
    (hres : x.role = .active → x'.res ≠ .incomplete) : KeepsAt p m x' := by
  cases hrole : m.role with
  | idle =>
    have hcs' : b.csN = true := hcs.trans (hm.idleLines hrole).2.1
    exact (keepsAt_of_unselected (.inl hrole)).2 (.inl (hc.of_deselected hrst hcs').1)
  | active =>
    obtain ⟨hcsN, hsclk⟩ := hm.lines_of_phase hrole rfl
    rw [hcsN] at hcs
    rw [hsclk] at hclk
    cases hphase : m.phase <;> rw [hphase] at hcs hclk
    case pAssert =>
      exact (keepsAt_of_unselected (.inr (.inl hphase))).2 (.inl (hc.of_deselected hrst hcs).1)
    case pFinish =>
      exact (keepsAt_of_unselected (.inr (.inr hphase))).2 (.inl (hc.of_deselected hrst hcs).1)
    case pDrive | pSample =>
      have hdriving : m.phase = .pDrive ∨ m.phase = .pSample := by simp [hphase]
      have hlt := m.bit.isLt
      rw [keepsAt_of_driving hrole hdriving] at h ⊢
      obtain hhigh | hbehind := h
      · exact .inl (hhigh.after_low hc hrst hcs hres hclk)
      · refine .inl ?_
        split at hbehind
        · next hbit =>
          rw [hbit]
          exact (hc.waitsHigh_of_select hrst hbehind.1 hbehind.2 hcs).atHigh
        · next hbit =>
          have hne : m.bit.val ≠ 7 := fun e => hbit (Fin.ext e)
          rw [show 7 - m.bit.val = 6 - m.bit.val + 1 by omega]
          exact (hc.waitsHigh_of_falling hrst hbehind (by omega) hcs hclk).atHigh
    case pHigh =>
      rw [keepsAt_of_pHigh hrole hphase] at h ⊢
      exact h.after_low hc hrst hcs hres hclk
    case pLow =>
      rw [keepsAt_of_pLow hrole hphase] at h ⊢
      obtain hhigh | hlow := h
      · exact .inr (hc.waitsLow_of_rising hrst hhigh hcs hclk).atLow
      · exact .inr (hlow.after_high hc hrst hcs hres hclk)
    case pStore | pDeassert =>
      have hending : m.phase = .pStore ∨ m.phase = .pDeassert := by simp [hphase]
      rw [keepsAt_of_ending hrole hending] at h ⊢
      obtain hlow | hdone := h
      · exact .inr (hc.hasCommitted_of_falling hrst hlow hcs hclk).1.forget
      · exact .inr (hdone.after_low hc hrst hcs hres hclk)

/-! ## The master's action -/

/-- The slave has acted on the levels of chip-select and the clock: it is idle with chip-select noted, or waits for a
level that is not there. -/
def Slave.Settled (csN sclk : Level) (x : Slave) : Prop :=
  (x.role = .idle ∧ x.csPrev = csN) ∨ (x.role = .active ∧ csN = false ∧ sclk = decide (x.phase = .wLow))

theorem Slave.Settled.of_deselected {sclk : Level} {x : Slave} (h : x.Settled true sclk) :
    x.role = .idle ∧ x.csPrev = true := h.resolve_right nofun

theorem Slave.Settled.not_atLow {csN : Level} {x : Slave} {k : Nat} (h : x.Settled csN false) : ¬ x.atLow k := by
  intro hlow
  obtain ⟨hidle, -⟩ | ⟨-, -, hclk⟩ := h
  · exact Role.idle_ne_active hidle hlow.active
  · rw [hlow.phase] at hclk
    cases hclk

theorem Slave.Settled.not_atHigh {csN : Level} {x : Slave} {k : Nat} (h : x.Settled csN true) : ¬ x.atHigh k := by
  intro hhigh
  obtain ⟨hidle, -⟩ | ⟨-, -, hclk⟩ := h
  · exact Role.idle_ne_active hidle hhigh.active
  · rw [hhigh.phase] at hclk
    cases hclk

/-- A settled slave at the master's bit waits for its rising edge. -/
theorem KeepsAt.atHigh_of_settled {p : Params} {m : Master} {x : Slave} (h : KeepsAt p m x) (hact : m.role = .active)
    (hphase : m.phase = .pSample) (hset : x.Settled false false) : x.atHigh (7 - m.bit.val) := by
  refine ((keepsAt_of_driving hact (.inr hphase)).1 h).resolve_right fun hbehind => ?_
  split at hbehind
  · obtain ⟨hidle, hprev⟩ := hbehind
    obtain ⟨-, hlow⟩ | ⟨hactive, -⟩ := hset
    · exact Bool.noConfusion (hprev.symm.trans hlow)
    · exact Role.idle_ne_active hidle hactive
  · exact hset.not_atLow hbehind

/-- What `SlaveKeepsUp` asks a settled slave for: an action that changes a line, and `P_SAMPLE`. -/
def Master.NeedsSettled (m m' : Master) : Prop :=
  m'.sclk ≠ m.sclk ∨ m'.csN ≠ m.csN ∨ m'.mosi ≠ m.mosi ∨ (m.role = .active ∧ m.dly = 0 ∧ m.phase = .pSample)

/-- `P_DEASSERT` finds the slave settled after the last falling edge, with its byte committed. -/
theorem KeepsAt.idle_or_oneByte_of_deassert {p : Params} {m m' : Master} {x : Slave} (h : KeepsAt p m x)
    (hm : m.Inv p) (hact : m.role = .active) (hphase : m.phase = .pDeassert) (hcs' : m'.csN = true)
    (hset : m.NeedsSettled m' → x.Settled m.csN m.sclk) : x.role = .idle ∨ (x.byte = 1 ∧ x.bit.val = 0) := by
  obtain ⟨hcs, hclk⟩ := hm.lines_of_phase hact hphase
  have hsettled := hset (.inr (.inl (by rw [hcs, hcs']; nofun)))
  rw [hcs, hclk] at hsettled
  exact (((keepsAt_of_ending hact (.inr hphase)).1 h).resolve_left hsettled.not_atLow).idle_or_oneByte

/-- The master's action keeps the slave where the next position allows it. -/
theorem Master.SeqStep.keepsAt {p : Params} {l : Level} {m m' : Master} {x : Slave} (hs : m.SeqStep p l m')
    (hm : m.Inv p) (h : KeepsAt p m x) (hset : m.NeedsSettled m' → x.Settled m.csN m.sclk) : KeepsAt p m' x := by
  cases hs with
  | idle | dwell => exact h
  | pAssert act _ phase =>
    have hcs : m.csN = true := (hm.lines_of_phase act phase).1
    have hsettled := hset (.inr (.inl (by rw [hcs]; nofun)))
    rw [hcs] at hsettled
    exact (keepsAt_of_driving (by exact act) (.inl (by rfl))).2 (.inr hsettled.of_deselected)
  | pDrive act _ phase =>
    exact (keepsAt_of_driving (by exact act) (.inr (by rfl))).2 ((keepsAt_of_driving act (.inl phase)).1 h)
  | pSample act dly phase =>
    obtain ⟨hcs, hclk⟩ := hm.lines_of_phase act phase
    have hsettled := hset (.inr (.inr (.inr ⟨act, dly, phase⟩)))
    rw [hcs, hclk] at hsettled
    exact (keepsAt_of_pHigh (by exact act) (by rfl)).2 (h.atHigh_of_settled act phase hsettled)
  | pHigh act _ phase =>
    exact (keepsAt_of_pLow (by exact act) (by rfl)).2 (.inl ((keepsAt_of_pHigh act phase).1 h))
  | pLowLast act _ phase bit =>
    have hclk : m.sclk = true := (hm.lines_of_phase act phase).2
    have hsettled := hset (.inl (by rw [hclk]; nofun))
    rw [hclk] at hsettled
    have hlow := ((keepsAt_of_pLow act phase).1 h).resolve_left hsettled.not_atHigh
    rw [bit] at hlow
    exact (keepsAt_of_ending (by exact act) (.inl (by rfl))).2 (.inl hlow)
  | pLowNext act _ phase c bit =>
    have hclk : m.sclk = true := (hm.lines_of_phase act phase).2
    have hsettled := hset (.inl (by rw [hclk]; nofun))
    rw [hclk] at hsettled
    have hlow := ((keepsAt_of_pLow act phase).1 h).resolve_left hsettled.not_atHigh
    have hc7 : c ≠ 7 := Fin.ne_of_val_ne (m.seven_ne_of_succ_eq_bit bit)
    rw [← bit, show 7 - (c.val + 1) = 6 - c.val by omega] at hlow
    refine (keepsAt_of_driving (by exact act) (.inl (by rfl))).2 (.inr ?_)
    rw [if_neg hc7]
    exact hlow
  | pStore act _ phase =>
    exact (keepsAt_of_ending (by exact act) (.inr (by rfl))).2 ((keepsAt_of_ending act (.inl phase)).1 h)
  | pDeassertLast act _ phase =>
    exact (keepsAt_of_unselected (.inr (.inr rfl))).2 (h.idle_or_oneByte_of_deassert hm act phase rfl hset)
  | pDeassertNext act _ phase =>
    exact (keepsAt_of_unselected (.inr (.inl rfl))).2 (h.idle_or_oneByte_of_deassert hm act phase rfl hset)
  | pFinish _ _ phase =>
    exact (keepsAt_of_unselected (.inl rfl)).2 ((keepsAt_of_unselected (.inr (.inr phase))).1 h)

/-- A host operation moves neither SPIBB-M's lines nor, but for a START, its place. -/
theorem Master.HostStep.keepsAt {p : Params} {a : MPins} {m h : Master} {x : Slave} (hs : m.HostStep p a h)
    (hk : KeepsAt p m x) : KeepsAt p h x := by
  cases hs with
  | start _ _ _ _ idle => exact (keepsAt_of_unselected (.inr (.inl rfl))).2 ((keepsAt_of_unselected (.inl idle)).1 hk)
  | unchanged | load | startEmpty | read => exact hk

theorem Master.HostStep.lines {p : Params} {a : MPins} {m h : Master} (hs : m.HostStep p a h) :
    h.sclk = m.sclk ∧ h.csN = m.csN ∧ h.mosi = m.mosi := by
  cases hs <;> exact ⟨rfl, rfl, rfl⟩

/-- A master at an action other than the first after the host step was at it before. -/
theorem Master.HostStep.eq_or_taken_of_phase {p : Params} {a : MPins} {m h : Master} (hs : m.HostStep p a h)
    (hact : h.role = .active) (hphase : h.phase ≠ .pAssert) : m.role = .active ∧ (h = m ∨ h = m.taken) := by
  cases hs with
  | start => exact absurd rfl hphase
  | unchanged => exact ⟨hact, .inl rfl⟩
  | read => exact ⟨hact, .inr rfl⟩
  | load _ _ _ _ idle | startEmpty _ _ _ _ idle => exact (Role.idle_ne_active idle hact).elim

/-- The master's part of a step, for a slave that is settled where `SlaveKeepsUp` asks for it. -/
theorem Master.Stepped.keepsAt {s : State} {m' : Master} {x : Slave} (hs : Master.Stepped s m')
    (hm : s.master.Inv s.params) (hrst : ∀ a, s.nextTick.m = some a → a.rst = false)
    (hk : KeepsAt s.params s.master x)
    (hset : m'.sclk ≠ s.master.sclk ∨ m'.csN ≠ s.master.csN ∨ m'.mosi ≠ s.master.mosi ∨
      (s.nextTick.runsM ∧ s.master.role = .active ∧ s.master.dly = 0 ∧ s.master.phase = .pSample) →
      x.Settled s.master.csN s.master.sclk) : KeepsAt s.params m' x := by
  obtain ⟨-, rfl⟩ | ⟨a, ha, hc⟩ := hs
  · exact hk
  · cases hc with
    | reset rst => exact Bool.noConfusion ((hrst a ha).symm.trans rst)
    | @run _ h _ host seq =>
      obtain ⟨hsclk, hcsN, hmosi⟩ := host.lines
      refine seq.keepsAt (host.inv hm) (host.keepsAt hk) fun hneeds => ?_
      rw [hsclk, hcsN]
      refine hset ?_
      rw [Master.NeedsSettled, hsclk, hcsN, hmosi] at hneeds
      refine hneeds.imp_right <| .imp_right <| .imp_right fun ⟨hact, hdly, hphase⟩ => ⟨⟨a, ha, hrst a ha⟩, ?_⟩
      obtain ⟨hactive, rfl | rfl⟩ := host.eq_or_taken_of_phase hact (by rw [hphase]; nofun)
      · exact ⟨hactive, hdly, hphase⟩
      · exact ⟨hactive, hdly, hphase⟩

/-- A quiescent slave of a pair is settled, and stays settled through its own cycle. -/
theorem State.slaveQuiescent.settled {s : State} (h : s.slaveQuiescent) (hwiring : s.wiring = Wiring.pair)
    {x' : Slave} (hx : Slave.Stepped s x') (hrst : ∀ b, s.nextTick.s = some b → b.rst = false) :
    s.slave.Settled s.master.csN s.master.sclk ∧ x'.Settled s.master.csN s.master.sclk := by
  have hslave := congrArg Wiring.slave hwiring
  rw [quiescentSlave s, (s.readSPins_pair _ hslave).1, (s.readSPins_pair _ hslave).2.1] at h
  have hset : s.slave.Settled s.master.csN s.master.sclk :=
    h.imp_right fun ⟨hact, hcs, _, hclk, _⟩ => ⟨hact, hcs, hclk⟩
  refine ⟨hset, ?_⟩
  obtain ⟨-, rfl⟩ | ⟨b, hb, hc⟩ := hx
  · exact hset
  · obtain ⟨g, y, host, seq, rfl⟩ := hc.host_seq ((s.readSPins_rst b).trans (hrst b hb))
    obtain ⟨hcs, hclk, -⟩ := s.readSPins_pair b hslave
    obtain ⟨hidle, hprev⟩ | ⟨hact, hlow, -, hlevel, hearly⟩ := h
    · obtain ⟨-, rfl⟩ | ⟨hp, hc', -⟩ := seq.of_idle (host.role.trans hidle)
      · exact .inl ⟨host.role.trans hidle, hcs⟩
      · rw [host.csPrev, hprev, ← hcs, hc'] at hp
        cases hp
    · obtain ⟨hphase, htmr⟩ := host.wait
      obtain ⟨-, rfl⟩ | ⟨hlast, -⟩ := seq.of_miss (host.role.trans hact) (hcs.trans hlow)
        (by rw [hclk, hlevel, hphase])
      · exact .inr ⟨host.role.trans hact, hlow, by rw [hlevel, ← hphase]; rfl⟩
      · exact absurd (htmr ▸ hlast) hearly

/-- Settles O60: the slave's cycle keeps it in place for the master's old position, and the master's action, which finds
it settled where it matters, for the new one. -/
theorem interleavedPairKeepsInStep : Obligations.InterleavedPairKeepsInStep := by
  intro s u hinv hwiring hin hkeeps hrstM hrstS hstep hres
  obtain ⟨-, hm, hx⟩ := step_cases hstep
  have hslave : KeepsAt s.params s.master u.slave := by
    obtain ⟨-, hsame⟩ | ⟨b, hb, hc⟩ := hx
    · rw [hsame]
      exact hin
    · obtain ⟨hcs, hclk, -⟩ := s.readSPins_pair b (congrArg Wiring.slave hwiring)
      refine KeepsAt.after_cycleS hin hinv.master hc ((s.readSPins_rst b).trans (hrstS b hb)) hcs hclk
        fun hact hinc => ?_
      exact SRes.noConfusion ((hinv.slave.activeRes hact).symm.trans (hres hinc))
  constructor
  · rw [State.keepsInStep_iff, step_params hstep]
    exact hm.keepsAt hinv.master hrstM hslave fun hneeds =>
      ((hkeeps u hstep hneeds).settled hwiring hx hrstS).2
  · intro hruns hact hdly hphase
    have hquiet := hkeeps u hstep (.inr (.inr (.inr ⟨hruns, hact, hdly, hphase⟩)))
    obtain ⟨hcs, hclk⟩ := hinv.master.lines_of_phase hact hphase
    have hset := (hquiet.settled hwiring hx hrstS).1
    rw [hcs, hclk] at hset
    have hhigh := KeepsAt.atHigh_of_settled hin hact hphase hset
    exact ⟨hhigh.active, hhigh.byte, hinv.slave.miso_of_waitsHigh hhigh⟩

end Sys2Proof.Machine
end

section
/-!
O52: a wait that never ends (42_slave_sequencer.md R178, 60_exceptions.md R205). While the lines stand still every tick
is a missed poll, so an induction on the polls left to the deadline follows the wait to its end.
-/
namespace Sys2Proof.Machine

/-- A tick in which SPIBB-S sees chip-select LOW and not the level it awaits, and its lines do not move. -/
def State.StuckTick (s : State) (t : Tick) : Prop :=
  t.fits s.params ∧ (s.wiring.slave = .env ∨ t.m = none) ∧
    ∃ b, t.s = some b ∧ b.rst = false ∧ (s.readSPins b).csN = false ∧
      (s.readSPins b).sclk = decide (s.slave.phase = .wLow)

/-- The session of `s` has ended INCOMPLETE in `u`, with its whole bytes. -/
def State.EndedIncomplete (s u : State) : Prop :=
  u.slave.role = .idle ∧ u.slave.res = .incomplete ∧ u.slave.rxLen = s.slave.byte ∧ u.slave.rx = s.slave.rx ∧
    u.slave.miso = false

/-- SPIBB-S reads the same levels while its lines come from the environment or from a master that has not changed. -/
theorem State.readSPins_congr {s u : State} (hwiring : u.wiring = s.wiring)
    (hlines : s.wiring.slave = .env ∨ u.master = s.master) (b : SPins) : u.readSPins b = s.readSPins b := by
  obtain henv | hmaster := hlines
  · rw [u.readSPins_env b (hwiring ▸ henv), s.readSPins_env b henv]
  · simp only [State.readSPins, State.line, hwiring, hmaster]

theorem Master.Stepped.eq_of_no_edge {s : State} {m' : Master} (hs : Master.Stepped s m')
    (hnone : s.nextTick.m = none) : m' = s.master := by
  obtain ⟨-, hsame⟩ | ⟨a, ha, -⟩ := hs
  · exact hsame
  · simp [hnone] at ha

/-- A stuck tick does one missed poll. -/
theorem State.StuckTick.step {s : State} (hstuck : s.StuckTick s.nextTick) (hinv : s.Inv)
    (hact : s.slave.role = .active) :
    ∃ u, Machine.step s = .next u ∧ u.slave = (s.slave.pollMiss s.params.timeout).sawCs false := by
  obtain ⟨hfits, -, b, hb, hrst, hcs, hclk⟩ := hstuck
  obtain ⟨u, hu, -⟩ := hinv.next hfits
  obtain ⟨-, -, hx⟩ := step_cases hu
  obtain ⟨h, y, host, seq, e⟩ := (hx.cycleStep hb).host_seq ((s.readSPins_rst b).trans hrst)
  obtain rfl : h = s.slave := by
    obtain rfl | rfl := host.eq_or_taken_of_active hact
    · rfl
    · exact Slave.taken_of_res_none (hinv.slave.activeRes hact)
  refine ⟨u, hu, ?_⟩
  rw [e, hcs]
  obtain ⟨hearly, rfl⟩ | ⟨hlast, rfl⟩ := seq.of_miss hact hcs hclk
  · rw [Slave.pollMiss_of_early hearly]
  · rw [Slave.pollMiss_of_last hlast]

/-- After a missed poll before the deadline the ticks that were stuck are stuck still. -/
theorem State.StuckTick.after_miss {s u : State} {t : Tick} (ht : s.StuckTick t)
    (hfirst : s.StuckTick s.nextTick) (hstep : Machine.step s = .next u) (hphase : u.slave.phase = s.slave.phase) :
    u.StuckTick t := by
  obtain ⟨-, hm, -⟩ := step_cases hstep
  obtain ⟨hfits, hstill, b, hb, hrst, hcs, hclk⟩ := ht
  have hread := State.readSPins_congr (step_wiring hstep) (hfirst.2.1.imp_right hm.eq_of_no_edge) b
  refine ⟨step_params hstep ▸ hfits, step_wiring hstep ▸ hstill, b, hb, hrst, ?_, ?_⟩
  · rw [hread, hcs]
  · rw [hread, hclk, hphase]

/-- The wait runs to its deadline, `n + 1` polls away. -/
theorem State.run_stuck (n : Nat) : ∀ s : State, s.Inv → s.slave.role = .active →
    s.slave.tmr + (n + 1) = s.params.timeout → n + 1 ≤ s.inputs.length →
    (∀ t ∈ s.inputs.take (n + 1), s.StuckTick t) →
    (∀ k, k < n + 1 → ∃ u, core.run k s = .next u ∧ u.slave.role = .active) ∧
      ∃ u, core.run (n + 1) s = .next u ∧ s.EndedIncomplete u := by
  induction n with
  | zero =>
    intro s hinv hact htmr hlong hstuck
    obtain ⟨t, ts, hinputs⟩ := List.exists_cons_of_length_pos hlong
    rw [hinputs, List.take_succ_cons, List.forall_mem_cons, ← s.nextTick_cons t ts hinputs] at hstuck
    obtain ⟨u, hu, e⟩ := hstuck.1.step hinv hact
    rw [Slave.pollMiss_of_last htmr] at e
    refine ⟨fun k hk => ?_, u, run_succ hu, ?_⟩
    · obtain rfl : k = 0 := by omega
      exact ⟨s, run_zero s, hact⟩
    · rw [State.EndedIncomplete, e]
      exact ⟨rfl, rfl, rfl, rfl, rfl⟩
  | succ n ih =>
    intro s hinv hact htmr hlong hstuck
    obtain ⟨t, ts, hinputs⟩ := List.exists_cons_of_length_pos (Nat.zero_lt_of_lt hlong)
    rw [hinputs, List.take_succ_cons, List.forall_mem_cons, ← s.nextTick_cons t ts hinputs] at hstuck
    obtain ⟨hfirst, hrest⟩ := hstuck
    obtain ⟨u, hu, e⟩ := hfirst.step hinv hact
    rw [Slave.pollMiss_of_early (by omega)] at e
    have hin : u.inputs = ts := by rw [step_inputs hu, hinputs, List.tail_cons]
    obtain ⟨hactive, w, hw, hend⟩ := ih u (State.inv_of_step hinv hu) (by rw [e]; exact hact)
      (by rw [e, step_params hu, ← htmr]; exact Nat.add_right_comm _ _ _)
      (by rw [hin]; rw [hinputs] at hlong; exact Nat.le_of_succ_le_succ hlong)
      (hin.symm ▸ fun t' ht' => (hrest t' ht').after_miss hfirst hu (by rw [e]; rfl))
    refine ⟨fun k hk => ?_, w, (run_succ hu).trans hw, ?_⟩
    · cases k with
      | zero => exact ⟨s, run_zero s, hact⟩
      | succ k =>
        obtain ⟨w', hw', hact'⟩ := hactive k (by omega)
        exact ⟨w', (run_succ hu).trans hw', hact'⟩
    · obtain ⟨hidle, hres, hlen, hrx, hmiso⟩ := hend
      rw [e] at hlen hrx
      exact ⟨hidle, hres, hlen, hrx, hmiso⟩

/-- Settles O52: in the invariant the poll counter is below the deadline, so there is a poll left to run. -/
theorem stuckClockEndsIncomplete : Obligations.StuckClockEndsIncomplete := by
  intro s hinv hact hlong hstuck
  have hlt := hinv.slave.activeTmr hact
  obtain ⟨n, hn⟩ : ∃ n, s.params.timeout - s.slave.tmr = n + 1 := ⟨s.params.timeout - s.slave.tmr - 1, by omega⟩
  rw [hn] at hlong hstuck ⊢
  exact State.run_stuck n s hinv hact (by omega) hlong hstuck

end Sys2Proof.Machine
end

section
/-!
O46, O47 and O48: how a slave session starts and ends, and when the buffers change (42_slave_sequencer.md R173 to R184,
10_state.md R27, R46). Each is read off the one sequencer step a block's part of the tick has.
-/
namespace Sys2Proof.Machine

/-- A host operation touches nothing of SPIBB-S's sequencer, its line or its receive buffer (R60, R122). -/
theorem Slave.HostStep.sequencer_frame {p : Params} {b : SPins} {x h : Slave} (hs : x.HostStep p b h) :
    h = { x with tx := h.tx, txLen := h.txLen, res := h.res } := by
  cases hs <;> rfl

/-- The sequencer step that ends a session, and the reason (R173, R177, R178). -/
theorem Slave.SeqStep.end_of_active_idle {p : Params} {b : SPins} {x y : Slave} (hs : x.SeqStep p b y)
    (hact : x.role = .active) (hidle : y.role = .idle) :
    b.csN = true ∨
      (x.phase = .wLow ∧ b.sclk = false ∧ x.bit = 7 ∧ x.byte + 1 = p.capS ∧ y.res = .ready) ∨
      (x.tmr + 1 = p.timeout ∧ y.res = .incomplete ∧ b.sclk = decide (x.phase = .wLow)) := by
  cases hs with
  | deselected _ cs => exact .inl cs
  | commitFull _ phase _ clk bit full => exact .inr (.inl ⟨phase, clk, bit, full, rfl⟩)
  | deadline _ _ clk last => exact .inr (.inr ⟨last, rfl, clk⟩)
  | start => cases hidle
  | idle | sample | bitDone | commit | miss => exact (Role.idle_ne_active hidle hact).elim

/-- Settles O46: the change of role is that of the step's one sequencer step. -/
theorem slaveRoleChanges : Obligations.SlaveRoleChanges := by
  intro s u hstep
  obtain ⟨-, -, hx⟩ := step_cases hstep
  refine ⟨fun hidle hact => ?_, fun hact hidle => ?_⟩
  · obtain ⟨b, -, hb, hrst, hprev, hcs, -⟩ := hx.start_of_idle_active hidle hact
    exact ⟨b, hb, hrst, hprev, hcs⟩
  · obtain ⟨-, hsame⟩ | ⟨b, hb, hc⟩ := hx
    · exact (Role.idle_ne_active hidle (hsame ▸ hact)).elim
    · refine ⟨b, hb, ?_⟩
      cases hrst : b.rst with
      | true => exact .inl rfl
      | false =>
        obtain ⟨h, y, host, seq, e⟩ := hc.host_seq ((s.readSPins_rst b).trans hrst)
        rw [e] at hidle ⊢
        obtain rfl | rfl := host.eq_or_taken_of_active hact
        · exact .inr (seq.end_of_active_idle hact hidle)
        · exact .inr (seq.end_of_active_idle hact hidle)

/-- A step of an active SPIBB-S that is not reset leaves its response buffer as it is (R73). -/
theorem Slave.Stepped.tx_frame_of_active {s : State} {x' : Slave} (hs : Slave.Stepped s x')
    (hrst : ∀ b, s.nextTick.s = some b → b.rst = false) (hact : s.slave.role = .active) :
    x'.tx = s.slave.tx ∧ x'.txLen = s.slave.txLen ∧ x'.epoch = s.slave.epoch := by
  obtain ⟨-, rfl⟩ | ⟨b, h, y, -, rfl | rfl, seq, rfl⟩ := hs.seqStep_or_taken hrst hact
  · exact ⟨rfl, rfl, rfl⟩
  · exact seq.tx_frame
  · exact seq.tx_frame

/-- Settles O47: the frames of an active block's step. -/
theorem txImmutableWhileActive : Obligations.TxImmutableWhileActive := by
  intro s u hstep
  obtain ⟨-, hm, hx⟩ := step_cases hstep
  refine ⟨fun hact hrst => ?_, fun hact hrst => ?_⟩
  · obtain ⟨htx, hlen, -⟩ := hm.tx_frame_of_active hrst hact
    exact ⟨htx, hlen⟩
  · obtain ⟨htx, hlen, -⟩ := hx.tx_frame_of_active hrst hact
    exact ⟨htx, hlen⟩

theorem Memory.eq_of_read?_write_ne {m : Memory} {n i : Nat} {v : Byte} (h : (m.write n v).read? i ≠ m.read? i) :
    i = n := by
  by_contra hne
  exact h (Memory.read?_write_other m n v i hne)

/-- `P_STORE` is the one sequencer step of SPIBB-M that writes `RX` (R147). -/
theorem Master.SeqStep.rx_eq_or_store {p : Params} {l : Level} {m m' : Master} (hs : m.SeqStep p l m') :
    m'.rx = m.rx ∨
      (m.role = .active ∧ m.dly = 0 ∧ m.phase = .pStore ∧ m'.rx = m.rx.write m.byte m.acc) := by
  cases hs with
  | pStore act dly phase => exact .inr ⟨act, dly, phase, rfl⟩
  | _ => exact .inl rfl

/-- The commit is the one sequencer step of SPIBB-S that writes `RX` (R176, R177). -/
theorem Slave.SeqStep.rx_eq_or_commit {p : Params} {b : SPins} {x y : Slave} (hs : x.SeqStep p b y) :
    y.rx = x.rx ∨ (x.role = .active ∧ x.phase = .wLow ∧ x.bit = 7 ∧ b.csN = false ∧ b.sclk = false ∧
      y.rx = x.rx.write x.byte x.acc) := by
  cases hs with
  | commit act phase cs clk bit | commitFull act phase cs clk bit => exact .inr ⟨act, phase, bit, cs, clk, rfl⟩
  | _ => exact .inl rfl

theorem Master.HostStep.rx {p : Params} {a : MPins} {m h : Master} (hs : m.HostStep p a h) : h.rx = m.rx := by
  cases hs <;> rfl

/-- A cycle of SPIBB-M that changes a byte of `RX` stores the accumulator at `m_byte`. -/
theorem Master.CycleStep.store_of_rx_ne {p : Params} {a : MPins} {m m' : Master} {i : Nat}
    (hc : m.CycleStep p a m') (hrst : a.rst = false) (hne : m'.rx.read? i ≠ m.rx.read? i) :
    m.role = .active ∧ m.dly = 0 ∧ m.phase = .pStore ∧ i = m.byte ∧ m'.rx.read? i = some m.acc := by
  cases hc with
  | reset rst => exact Bool.noConfusion (hrst.symm.trans rst)
  | @run _ h _ host seq =>
    rw [← host.rx] at hne
    obtain hsame | ⟨hact, hdly, hphase, hwrite⟩ := seq.rx_eq_or_store
    · exact absurd (congrArg (Memory.read? · i) hsame) hne
    · rw [hwrite] at hne ⊢
      obtain rfl := Memory.eq_of_read?_write_ne hne
      obtain ⟨hactive, rfl | rfl⟩ := host.eq_or_taken_of_phase hact (by rw [hphase]; nofun)
      · exact ⟨hactive, hdly, hphase, rfl, Memory.read?_write_same _ _ _⟩
      · exact ⟨hactive, hdly, hphase, rfl, Memory.read?_write_same _ _ _⟩

/-- A cycle of SPIBB-S that changes a byte of `RX` commits the accumulator at `s_byte`. -/
theorem Slave.CycleStep.commit_of_rx_ne {p : Params} {b : SPins} {x x' : Slave} {i : Nat}
    (hc : x.CycleStep p b x') (hrst : b.rst = false) (hne : x'.rx.read? i ≠ x.rx.read? i) :
    x.role = .active ∧ x.phase = .wLow ∧ x.bit = 7 ∧ i = x.byte ∧ x'.rx.read? i = some x.acc ∧
      b.csN = false ∧ b.sclk = false := by
  obtain ⟨h, y, host, seq, rfl⟩ := hc.host_seq hrst
  rw [host.sequencer_frame] at seq
  obtain hsame | ⟨hact, hphase, hbit, hcs, hclk, hwrite⟩ := seq.rx_eq_or_commit
  · exact absurd (congrArg (Memory.read? · i) hsame) hne
  · rw [Slave.sawCs_rx, hwrite] at hne ⊢
    obtain rfl := Memory.eq_of_read?_write_ne hne
    exact ⟨hact, hphase, hbit, rfl, Memory.read?_write_same _ _ _, hcs, hclk⟩

/-- Settles O48: a byte of `RX` that changes has a clock edge of its block, and so a cycle that stores or commits it. -/
theorem rxChangesOnlyAtByteBoundary : Obligations.RxChangesOnlyAtByteBoundary := by
  intro s u hstep i
  obtain ⟨-, hm, hx⟩ := step_cases hstep
  refine ⟨fun hrst hne => ?_, fun hrst hne => ?_⟩
  · obtain ⟨-, hsame⟩ | ⟨a, ha, hc⟩ := hm
    · exact absurd (congrArg (fun m : Master => m.rx.read? i) hsame) hne
    · exact hc.store_of_rx_ne (hrst a ha) hne
  · obtain ⟨-, hsame⟩ | ⟨b, hb, hc⟩ := hx
    · exact absurd (congrArg (fun x : Slave => x.rx.read? i) hsame) hne
    · obtain ⟨hact, hphase, hbit, hi, hread, hcs, hclk⟩ :=
        hc.commit_of_rx_ne ((s.readSPins_rst b).trans (hrst b hb)) hne
      exact ⟨hact, hphase, hbit, hi, hread, b, hb, hcs, hclk⟩

/-- Settles O42: what a sequencer step leaves as it is, and the byte a commit writes. -/
theorem slaveActionFrame : Obligations.SlaveActionFrame := by
  intro s t hseq
  obtain ⟨y, seq, rfl⟩ := seqS_cases hseq
  obtain ⟨htx, hlen, hepoch⟩ := seq.tx_frame
  refine ⟨rfl, htx, hlen, hepoch, rfl, fun i => ?_⟩
  change y.rx.read? i = s.slave.rx.read? i ∨ _
  obtain hsame | ⟨hact, hphase, hbit, hcs, hclk, hwrite⟩ := seq.rx_eq_or_commit
  · exact .inl (congrArg (Memory.read? · i) hsame)
  · by_cases hi : i = s.slave.byte
    · refine .inr ⟨hi, hact, hphase, hbit, hcs, hclk, ?_⟩
      change y.rx.read? i = some s.slave.acc
      rw [hwrite, hi, Memory.read?_write_same]
    · rw [hwrite]
      exact .inl (Memory.read?_write_other _ _ _ _ hi)

end Sys2Proof.Machine
end

section
/-!
O49 and O50: the edge convention of the lines (70_reset_and_hazards.md R240, 30_encoding.md R89) and the countdown of a
transfer as a step lemma (R243).
-/
namespace Sys2Proof.Machine

/-- The convention for the three lines of SPIBB-M: at most one changes, `mosi` only while the clock rests in a selected
byte, and the clock only while chip-select is LOW. -/
def Master.EdgeRule (m m' : Master) : Prop :=
  (m'.mosi ≠ m.mosi → m.sclk = false ∧ m'.sclk = false ∧ m.csN = false ∧ m'.csN = false) ∧
  (m'.sclk ≠ m.sclk → m'.mosi = m.mosi ∧ m.csN = false ∧ m'.csN = false) ∧
  (m'.csN ≠ m.csN → m.sclk = false ∧ m'.sclk = false ∧ m'.mosi = m.mosi)

theorem Master.edgeRule_of_lines_eq {m m' : Master} (hsclk : m'.sclk = m.sclk) (hcsN : m'.csN = m.csN)
    (hmosi : m'.mosi = m.mosi) : m.EdgeRule m' :=
  ⟨absurd hmosi, absurd hsclk, absurd hcsN⟩

/-- Every sequencer step keeps the convention: the lines of the phase before it are those R89 lists. -/
theorem Master.SeqStep.edgeRule {p : Params} {l : Level} {m m' : Master} (hs : m.SeqStep p l m') (hm : m.Inv p) :
    m.EdgeRule m' := by
  cases hs with
  | idle | dwell | pSample | pStore | pFinish => exact Master.edgeRule_of_lines_eq rfl rfl rfl
  | pDrive act _ phase =>
    obtain ⟨hcs, hclk⟩ := hm.lines_of_phase act phase
    exact ⟨fun _ => ⟨hclk, hclk, hcs, hcs⟩, absurd rfl, absurd rfl⟩
  | pHigh act _ phase | pLowLast act _ phase | pLowNext act _ phase =>
    have hcs : m.csN = false := (hm.lines_of_phase act phase).1
    exact ⟨absurd rfl, fun _ => ⟨rfl, hcs, hcs⟩, absurd rfl⟩
  | pAssert act _ phase | pDeassertLast act _ phase | pDeassertNext act _ phase =>
    have hclk : m.sclk = false := (hm.lines_of_phase act phase).2
    exact ⟨absurd rfl, absurd rfl, fun _ => ⟨hclk, hclk, rfl⟩⟩

/-- The host step of a cycle moves no line, so the cycle keeps the convention. -/
theorem Master.Stepped.edgeRule {s : State} {m' : Master} (hs : Master.Stepped s m') (hm : s.master.Inv s.params)
    (hrst : ∀ a, s.nextTick.m = some a → a.rst = false) : s.master.EdgeRule m' := by
  obtain ⟨-, rfl⟩ | ⟨a, ha, hc⟩ := hs
  · exact Master.edgeRule_of_lines_eq rfl rfl rfl
  · cases hc with
    | reset rst => exact Bool.noConfusion ((hrst a ha).symm.trans rst)
    | @run _ h _ host seq =>
      obtain ⟨hsclk, hcsN, hmosi⟩ := host.lines
      have hrule := seq.edgeRule (host.inv hm)
      rwa [Master.EdgeRule, hsclk, hcsN, hmosi] at hrule

/-- Settles O49: the convention for the master's lines; the slave's sample leaves `miso` as it is. -/
theorem edgeConvention : Obligations.EdgeConvention := by
  intro s u hinv hstep
  obtain ⟨-, hm, hx⟩ := step_cases hstep
  refine ⟨hm.edgeRule hinv.master, fun b hb hrst hact hphase hcs hclk => ?_⟩
  obtain ⟨h, y, host, seq, e⟩ := (hx.cycleStep hb).host_seq ((s.readSPins_rst b).trans hrst)
  rw [host.sequencer_frame] at seq
  obtain rfl := seq.of_rising hact hphase hcs hclk
  exact (congrArg Slave.miso e :)

/-- Settles O50: the sequencer step of the cycle counts one down; that of a START counts from the whole transfer. -/
theorem everyMasterCycleCountsDown : Obligations.EveryMasterCycleCountsDown := by
  intro s u hinv hruns hstep
  obtain ⟨a, ha, -⟩ := id hruns
  obtain ⟨-, hm, -⟩ := step_cases hstep
  have hrst : ∀ a', s.nextTick.m = some a' → a'.rst = false := fun _ => Tick.rst_of_runsM hruns
  refine ⟨fun hact => ?_, fun hidle hact => ?_⟩
  · obtain ⟨hnone, -⟩ | ⟨_, -, seq⟩ := hm.seqStep_of_active hinv.master hrst hact
    · simp [ha] at hnone
    · exact ⟨seq.cyclesToFinish hact hinv.master.placed,
        Master.cyclesToFinish_eq_zero_iff (seq.placed hinv.master.placed)⟩
  · obtain ⟨_, -, hlen, seq⟩ := hm.seqStep_of_start hidle hact
    exact Nat.succ_injective ((seq.cyclesToFinish rfl (Master.placed_begin hlen)).trans
      (Master.cyclesToFinish_begin _ _))

end Sys2Proof.Machine
end

section
/-!
O15: the two blocks share only the lines (60_exceptions.md R217, 70_reset_and_hazards.md R241). A cycle of one block is
the same whatever the other block and its response are, and carries them along unchanged; so two cycles commute.
-/
namespace Sys2Proof.Machine

/-- The next state, if there is one, with `f` applied. -/
def mapNext (f : State → State) (o : Host.Outcome State Fault Refusal) : Host.Outcome State Fault Refusal :=
  andThen o fun s => .next (f s)

@[simp] theorem mapNext_next (f : State → State) (s : State) : mapNext f (.next s) = .next (f s) := rfl

theorem mapNext_ite (f : State → State) (c : Prop) [Decidable c] (o o' : Host.Outcome State Fault Refusal) :
    mapNext f (if c then o else o') = if c then mapNext f o else mapNext f o' := apply_ite _ _ _ _

theorem andThen_mapNext {f : State → State} {g : State → Host.Outcome State Fault Refusal}
    (hg : ∀ t, g (f t) = mapNext f (g t)) (o : Host.Outcome State Fault Refusal) :
    andThen (mapNext f o) g = mapNext f (andThen o g) := by
  cases o with
  | next t => exact hg t
  | fault | refused => rfl

/-- The state with another SPIBB-M and another response of it. -/
def State.withM (m : Master) (r : Rsp) (s : State) : State := { s with master := m, mRsp := r }

/-- The state with another SPIBB-S and another response of it. -/
def State.withS (x : Slave) (r : Rsp) (s : State) : State := { s with slave := x, sRsp := r }

theorem exec_sHost_withM {i : Instr} (hi : i.port = .sHost) (m : Master) (r : Rsp) (s : State) :
    exec i (s.withM m r) = mapNext (State.withM m r) (exec i s) := by
  cases i with
  | sNop | sStart | sReserved => rfl
  | sLoad =>
    simp only [exec_sLoad, execSLoad, mapNext_ite]
    rfl
  | sRead =>
    simp only [exec_sRead, execSRead]
    change (match s.slave.res.delivers with | some c => _ | none => _) = _
    cases s.slave.res.delivers <;> rfl
  | _ => cases hi

theorem exec_mHost_withS {i : Instr} (hi : i.port = .mHost) (x : Slave) (r : Rsp) (s : State) :
    exec i (s.withS x r) = mapNext (State.withS x r) (exec i s) := by
  cases i with
  | mNop | mReserved => rfl
  | mLoad =>
    simp only [exec_mLoad, execMLoad, mapNext_ite]
    rfl
  | mStart =>
    simp only [exec_mStart, execMStart, mapNext_ite]
    rfl
  | mRead =>
    simp only [exec_mRead, execMRead, mapNext_ite]
    rfl
  | _ => cases hi

theorem hostS_withM (m : Master) (r : Rsp) (s : State) :
    hostS (s.withM m r) = mapNext (State.withM m r) (hostS s) := by
  unfold hostS
  rw [mapNext_ite]
  refine if_congr Iff.rfl ?_ rfl
  change runDecoded (decode s.params .sHost s.sPins.hcmd) (s.withM m r) = _
  cases hdec : decode s.params .sHost s.sPins.hcmd with
  | error => rfl
  | ok i => exact exec_sHost_withM (encodeOfDecode _ _ _ _ hdec).1 m r s

theorem hostM_withS (x : Slave) (r : Rsp) (s : State) :
    hostM (s.withS x r) = mapNext (State.withS x r) (hostM s) := by
  unfold hostM
  rw [mapNext_ite]
  refine if_congr Iff.rfl ?_ rfl
  change runDecoded (decode s.params .mHost s.mPins.hcmd) (s.withS x r) = _
  cases hdec : decode s.params .mHost s.mPins.hcmd with
  | error => rfl
  | ok i => exact exec_mHost_withS (encodeOfDecode _ _ _ _ hdec).1 x r s

theorem seqS_withM (m : Master) (r : Rsp) (s : State) :
    seqS (s.withM m r) = mapNext (State.withM m r) (seqS s) := by
  rw [seqS_eq, seqS_eq, mapNext_ite]
  refine if_congr Iff.rfl ?_ ?_
  · simp only [slaveIdleStep, mapNext_ite]
    rfl
  · change exec s.slave.phase.instr (s.withM m r) = _
    cases s.slave.phase with
    | wHigh =>
      simp only [SPhase.instr, exec_sSeqWHigh, execSSeqWHigh, mapNext_ite]
      rfl
    | wLow =>
      simp only [SPhase.instr, exec_sSeqWLow, execSSeqWLow, mapNext_ite]
      rfl

theorem seqM_withS (x : Slave) (r : Rsp) (s : State) :
    seqM (s.withS x r) = mapNext (State.withS x r) (seqM s) := by
  rw [seqM_eq, seqM_eq, mapNext_ite, mapNext_ite]
  refine if_congr Iff.rfl rfl (if_congr Iff.rfl rfl ?_)
  change exec s.master.phase.instr (s.withS x r) = _
  cases s.master.phase with
  | pDrive =>
    simp only [MPhase.instr, exec, execMSeqPDrive, mapNext_ite]
    rfl
  | pLow =>
    simp only [MPhase.instr, exec, execMSeqPLow, mapNext_ite]
    rfl
  | pStore =>
    simp only [MPhase.instr, exec, execMSeqPStore, mapNext_ite]
    rfl
  | pAssert | pSample | pHigh | pDeassert | pFinish => rfl

/-- A cycle of SPIBB-S is the same beside any SPIBB-M. -/
theorem cycleS_withM (m : Master) (r : Rsp) (s : State) :
    cycleS (s.withM m r) = mapNext (State.withM m r) (cycleS s) := by
  unfold cycleS
  rw [mapNext_ite, hostS_withM, andThen_mapNext (seqS_withM m r)]
  rfl

/-- A cycle of SPIBB-M is the same beside any SPIBB-S. -/
theorem cycleM_withS (x : Slave) (r : Rsp) (s : State) :
    cycleM (s.withS x r) = mapNext (State.withS x r) (cycleM s) := by
  unfold cycleM
  rw [mapNext_ite, hostM_withS, andThen_mapNext (seqM_withS x r)]
  rfl

/-- Settles O15: each cycle has its frame, and the second runs as it would have run alone. -/
theorem blocksShareOnlyTheLines : Obligations.BlocksShareOnlyTheLines := by
  intro s a b ha hb
  obtain ⟨hframeM, -⟩ := cycleM_cases ha
  obtain ⟨hframeS, -⟩ := cycleS_cases hb
  refine ⟨hframeM, hframeS, ?_, ?_⟩
  · have hrun : cycleS (s.withM a.master a.mRsp) = .next (b.withM a.master a.mRsp) := by
      rw [cycleS_withM, hb, mapNext_next]
    rw [ha, andThen_next, hframeM]
    refine hrun.trans ?_
    rw [hframeS]
    rfl
  · have hrun : cycleM (s.withS b.slave b.sRsp) = .next (a.withS b.slave b.sRsp) := by
      rw [cycleM_withS, ha, mapNext_next]
    rw [hb, andThen_next, hframeS]
    refine hrun.trans ?_
    rw [hframeM]
    rfl

end Sys2Proof.Machine
end

section
/-!
O20, O22, O23 and O25: START on an idle block and the deliveries of READ (40_host_operations.md R113, R114, R118, R121).
-/
namespace Sys2Proof.Machine

theorem execMStart_of_pos {s : State} (hidle : s.master.role = .idle) (hlen : 0 < s.master.txLen) :
    execMStart s = .next (({ s with master := s.master.begin } : State).answerM .ok) := by
  simp [execMStart, hidle, Nat.ne_of_gt hlen]

/-- Settles O20: START's two equations on an idle block. -/
theorem startBeginsTransfer : Obligations.StartBeginsTransfer := fun _ _ _ hidle =>
  ⟨execMStart_of_pos hidle, execMStart_of_empty hidle⟩

theorem MRes.ready_of_ne_none {r : MRes} (h : r ≠ .none) : r = .ready := by
  cases r with
  | none => exact absurd rfl h
  | ready => rfl

/-- A READ leaves nothing to deliver, whether it delivered or not. -/
theorem execMRead_res {s t : State} (h : execMRead s = .next t) : t.master.res = .none := by
  by_cases hres : s.master.res = .none
  · rw [execMRead_of_none hres] at h
    cases h
    exact hres
  · rw [execMRead_of_ready (MRes.ready_of_ne_none hres)] at h
    cases h
    rfl

theorem SRes.delivers_of_ne_none {r : SRes} (h : r ≠ .none) :
    r.delivers = some (if r = .ready then .ok else .incomplete) := by
  cases r with
  | none => exact absurd rfl h
  | ready | incomplete => rfl

theorem execSRead_res {s t : State} (h : execSRead s = .next t) : t.slave.res = .none := by
  by_cases hres : s.slave.res = .none
  · rw [execSRead_of_none hres] at h
    cases h
    exact hres
  · rw [execSRead_of_delivers (SRes.delivers_of_ne_none hres)] at h
    cases h
    rfl

/-- A byte of the receive buffer that has a value is delivered as it is. -/
theorem deliveredBytes_of_lt {cap n i : Nat} {rx : Nat → Byte} {v : Byte} (hcap : i < cap) (hn : i < n)
    (hv : rx i = v) : (deliveredBytes cap n rx)[i]? = some v := by
  rw [deliveredBytes_getElem? _ _ _ _ hcap, if_pos hn, hv]

/-- Above the delivered bytes the response reads 0x00 (R82). -/
theorem deliveredBytes_of_le {cap n i : Nat} (rx : Nat → Byte) (hcap : i < cap) (hn : n ≤ i) :
    (deliveredBytes cap n rx)[i]? = some 0 := by
  rw [deliveredBytes_getElem? _ _ _ _ hcap, if_neg (Nat.not_lt.2 hn)]

theorem Master.rxByte_of_read? {m : Master} {i : Nat} {v : Byte} (h : m.rx.read? i = some v) : m.rxByte i = v := by
  rw [Master.rxByte, h, Option.getD_some]

theorem Slave.rxByte_of_read? {x : Slave} {i : Nat} {v : Byte} (h : x.rx.read? i = some v) : x.rxByte i = v := by
  rw [Slave.rxByte, h, Option.getD_some]

/-- Settles O22: the delivering READ by its equation and the bytes of a delivery; otherwise NOT_READY. -/
theorem masterReadDelivers : Obligations.MasterReadDelivers := by
  refine fun s _ _ => ⟨fun hres => ⟨_, execMRead_of_ready hres, rfl, rfl, deliveredBytes_length _ _ _,
    fun i v hcap hn hv => ?_, fun i hcap hn => ?_, rfl⟩, execMRead_of_none⟩
  · exact deliveredBytes_of_lt hcap hn (Master.rxByte_of_read? hv)
  · exact deliveredBytes_of_le _ hcap hn

/-- Settles O23: the same for SPIBB-S, whose code names the way the session ended. -/
theorem slaveReadDelivers : Obligations.SlaveReadDelivers := by
  refine fun s _ _ => ⟨fun hres => ⟨_, execSRead_of_delivers (SRes.delivers_of_ne_none hres), rfl, rfl,
    deliveredBytes_length _ _ _, fun i v hcap hn hv => ?_, fun i hcap hn => ?_, rfl⟩, execSRead_of_none⟩
  · exact deliveredBytes_of_lt hcap hn (Slave.rxByte_of_read? hv)
  · exact deliveredBytes_of_le _ hcap hn

/-- The edge detector that starts a session drops a pending result (R171). -/
theorem seqS_res_of_start {s t : State} (hidle : s.slave.role = .idle) (h : seqS s = .next t)
    (hact : t.slave.role = .active) : t.slave.res = .none := by
  obtain ⟨y, seq, rfl⟩ := seqS_cases h
  obtain ⟨-, rfl⟩ | ⟨-, -, rfl⟩ := seq.of_idle hidle
  · exact (Role.idle_ne_active hidle hact).elim
  · rfl

/-- Settles O25: each of the four leaves the result slot empty, and a READ of an empty slot answers NOT_READY. -/
theorem resultDeliveredAtMostOnce : Obligations.ResultDeliveredAtMostOnce := by
  intro s t _ _
  have hreadM (hres : t.master.res = .none) :
      t.master.res = .none ∧ execMRead t = .next (t.answerM .notReady) := ⟨hres, execMRead_of_none hres⟩
  have hreadS (hres : t.slave.res = .none) :
      t.slave.res = .none ∧ execSRead t = .next (t.answerS .notReady) := ⟨hres, execSRead_of_none hres⟩
  refine ⟨fun h => hreadM (execMRead_res h), fun h => hreadS (execSRead_res h), fun hidle hlen h => hreadM ?_,
    fun hidle h hact => hreadS (seqS_res_of_start hidle h hact)⟩
  rw [exec_mStart, execMStart_of_pos hidle hlen] at h
  cases h
  rfl

end Sys2Proof.Machine
end

section
/-!
O27 and O28: what no host operation changes (40_host_operations.md R122). What an operation can do to the state is said
once per block; each clause of the frames is then read off the few shapes of its outcome.
-/
namespace Sys2Proof.Machine

/-- Everything a host operation of SPIBB-M can do: answer only, load, start, or take a result. -/
theorem exec_mHost_cases {i : Instr} {s t : State} (hi : i.port = .mHost) (h : exec i s = .next t) :
    (∃ c, t = s.answerM c) ∨
    (∃ len wdata, i = .mLoad len wdata ∧
      t = ({ s with master := s.master.load len (loadBytes len wdata) } : State).answerM .ok) ∨
    (∃ len wdata, i = .mStart len wdata ∧
      (t = ({ s with master := s.master.completeEmpty } : State).answerM .ok ∨
        t = ({ s with master := s.master.begin } : State).answerM .ok)) ∨
    (∃ len wdata, i = .mRead len wdata ∧ t = { s.deliverM .ok with master := s.master.taken }) := by
  cases i with
  | mNop | mReserved => exact .inl ⟨_, (Host.Outcome.next.inj h).symm⟩
  | mLoad len wdata =>
    rw [exec_mLoad, execMLoad] at h
    split at h
    · exact .inl ⟨_, (Host.Outcome.next.inj h).symm⟩
    · split at h
      · exact .inl ⟨_, (Host.Outcome.next.inj h).symm⟩
      · exact .inr (.inl ⟨len, wdata, rfl, (Host.Outcome.next.inj h).symm⟩)
  | mStart len wdata =>
    rw [exec_mStart, execMStart] at h
    split at h
    · exact .inl ⟨_, (Host.Outcome.next.inj h).symm⟩
    · split at h
      · exact .inr (.inr (.inl ⟨len, wdata, rfl, .inl (Host.Outcome.next.inj h).symm⟩))
      · exact .inr (.inr (.inl ⟨len, wdata, rfl, .inr (Host.Outcome.next.inj h).symm⟩))
  | mRead len wdata =>
    rw [exec_mRead, execMRead] at h
    split at h
    · exact .inr (.inr (.inr ⟨len, wdata, rfl, (Host.Outcome.next.inj h).symm⟩))
    · exact .inl ⟨_, (Host.Outcome.next.inj h).symm⟩
  | _ => cases hi

/-- Everything a host operation of SPIBB-S can do: answer only, load, or take a result. -/
theorem exec_sHost_cases {i : Instr} {s t : State} (hi : i.port = .sHost) (h : exec i s = .next t) :
    (∃ c, t = s.answerS c) ∨
    (∃ len wdata, i = .sLoad len wdata ∧
      t = ({ s with slave := s.slave.load len (loadBytes len wdata) } : State).answerS .ok) ∨
    (∃ len wdata c, i = .sRead len wdata ∧ t = { s.deliverS c with slave := s.slave.taken }) := by
  cases i with
  | sNop | sStart | sReserved => exact .inl ⟨_, (Host.Outcome.next.inj h).symm⟩
  | sLoad len wdata =>
    rw [exec_sLoad, execSLoad] at h
    split at h
    · exact .inl ⟨_, (Host.Outcome.next.inj h).symm⟩
    · split at h
      · exact .inl ⟨_, (Host.Outcome.next.inj h).symm⟩
      · exact .inr (.inl ⟨len, wdata, rfl, (Host.Outcome.next.inj h).symm⟩)
  | sRead len wdata =>
    by_cases hres : s.slave.res = .none
    · rw [exec_sRead, execSRead_of_none hres] at h
      exact .inl ⟨_, (Host.Outcome.next.inj h).symm⟩
    · rw [exec_sRead, execSRead_of_delivers (SRes.delivers_of_ne_none hres)] at h
      exact .inr (.inr ⟨len, wdata, _, rfl, (Host.Outcome.next.inj h).symm⟩)
  | _ => cases hi

/-- Settles O27: clause by clause for each outcome; the clause about its own field does not speak of the operation. -/
theorem masterHostOperationFrame : Obligations.MasterHostOperationFrame := by
  intro i s t hi h
  obtain ⟨c, rfl⟩ | ⟨len, wdata, rfl, rfl⟩ | ⟨len, wdata, rfl, rfl | rfl⟩ | ⟨len, wdata, rfl, rfl⟩ :=
    exec_mHost_cases hi h
  · exact ⟨rfl, rfl, rfl, rfl, rfl, rfl, rfl, fun _ => rfl, fun _ _ _ _ _ => rfl, fun _ => ⟨rfl, fun _ => rfl⟩,
      fun _ => ⟨rfl, rfl, rfl, rfl, rfl⟩, fun _ => rfl⟩
  · refine ⟨rfl, rfl, rfl, rfl, rfl, rfl, rfl, fun _ => rfl, fun len' wdata' heq a ha => ?_,
      fun hne => absurd rfl (hne len wdata), fun _ => ⟨rfl, rfl, rfl, rfl, rfl⟩, fun _ => rfl⟩
    cases heq
    exact Memory.read?_load_of_le _ wdata ha
  · exact ⟨rfl, rfl, rfl, rfl, rfl, rfl, rfl, fun _ => rfl, nofun, fun _ => ⟨rfl, fun _ => rfl⟩,
      fun hne => absurd rfl (hne len wdata), fun hne => absurd rfl (hne len wdata).1⟩
  · exact ⟨rfl, rfl, rfl, rfl, rfl, rfl, rfl, fun _ => rfl, nofun, fun _ => ⟨rfl, fun _ => rfl⟩,
      fun hne => absurd rfl (hne len wdata), fun hne => absurd rfl (hne len wdata).1⟩
  · exact ⟨rfl, rfl, rfl, rfl, rfl, rfl, rfl, fun _ => rfl, nofun, fun _ => ⟨rfl, fun _ => rfl⟩,
      fun _ => ⟨rfl, rfl, rfl, rfl, rfl⟩, fun hne => absurd rfl (hne len wdata).2⟩

/-- Settles O28: as O27, for SPIBB-S. -/
theorem slaveHostOperationFrame : Obligations.SlaveHostOperationFrame := by
  intro i s t hi h
  obtain ⟨c, rfl⟩ | ⟨len, wdata, rfl, rfl⟩ | ⟨len, wdata, c, rfl, rfl⟩ := exec_sHost_cases hi h
  · exact ⟨rfl, fun _ => rfl, fun _ _ _ _ _ => rfl, fun _ => ⟨rfl, fun _ => rfl⟩, fun _ => rfl⟩
  · refine ⟨rfl, fun _ => rfl, fun len' wdata' heq a ha => ?_, fun hne => absurd rfl (hne len wdata), fun _ => rfl⟩
    cases heq
    exact Memory.read?_load_of_le _ wdata ha
  · exact ⟨rfl, fun _ => rfl, nofun, fun _ => ⟨rfl, fun _ => rfl⟩, fun hne => absurd rfl (hne len wdata)⟩

end Sys2Proof.Machine
end

section
/-!
O29 to O35: the master's actions (41_master_sequencer.md R142 to R149), one equation per action and branch, and what
none of them changes.
-/
namespace Sys2Proof.Machine

theorem execMSeqPDrive_of_lt {s : State} (h : s.master.byte < s.params.capM) :
    execMSeqPDrive s = .next { s with master := { s.master with
      mosi := s.master.txBit, phase := .pSample, dly := s.params.dDrive } } := if_pos h

theorem execMSeqPDrive_of_le {s : State} (h : s.params.capM ≤ s.master.byte) :
    execMSeqPDrive s = .fault .noSuchByte := if_neg (Nat.not_lt.2 h)

theorem execMSeqPLow_of_last {s : State} (h : s.master.bit = 0) :
    execMSeqPLow s = .next { s with master := { s.master with
      sclk := false, phase := .pStore, dly := s.params.dHalf } } := if_pos h

theorem execMSeqPLow_of_next {s : State} {b : Fin 8} (h : b.val + 1 = s.master.bit.val) :
    execMSeqPLow s = .next { s with master := { s.master with
      sclk := false, bit := b, phase := .pDrive, dly := s.params.dHalf } } := by
  have hne : s.master.bit ≠ 0 := fun e => by
    rw [e] at h
    exact Nat.succ_ne_zero _ h
  have hb : s.master.bit - 1 = b := Fin.ext (by rw [Fin.val_sub_one_of_ne_zero hne]; omega)
  rw [execMSeqPLow, if_neg hne, hb]

theorem execMSeqPStore_of_lt {s : State} (h : s.master.byte < s.params.capM) :
    execMSeqPStore s = .next { s with master := { s.master with
      rx := s.master.rx.write s.master.byte s.master.acc, phase := .pDeassert, dly := 0 } } := if_pos h

theorem execMSeqPStore_of_le {s : State} (h : s.params.capM ≤ s.master.byte) :
    execMSeqPStore s = .fault .noSuchByte := if_neg (Nat.not_lt.2 h)

theorem execMSeqPDeassert_of_last {s : State} (h : s.master.byte + 1 = s.master.txLen) :
    execMSeqPDeassert s = .next { s with master := { s.master with
      csN := true, byte := s.master.byte + 1, dly := s.params.dGap, phase := .pFinish } } := by
  rw [execMSeqPDeassert, if_pos h]

theorem execMSeqPDeassert_of_next {s : State} (h : s.master.byte + 1 ≠ s.master.txLen) :
    execMSeqPDeassert s = .next { s with master := { s.master with
      csN := true, byte := s.master.byte + 1, dly := s.params.dGap, phase := .pAssert } } := by
  rw [execMSeqPDeassert, if_neg h]

theorem Master.txBit_of_read? {m : Master} {v : Byte} (h : m.tx.read? m.byte = some v) :
    m.txBit = v.getLsbD m.bit.val := by
  rw [Master.txBit, Master.txByte, h, Option.getD_some]

/-- Settles O29: the level is `txBit`, which is a bit of the byte where there is one. -/
theorem drivePutsTheBitOnMosi : Obligations.DrivePutsTheBitOnMosi := by
  refine fun s => ⟨fun hlt => ⟨fun v hv => ?_, _, execMSeqPDrive_of_lt hlt⟩, execMSeqPDrive_of_le⟩
  exact (execMSeqPDrive_of_lt hlt).trans (by rw [Master.txBit_of_read? hv])

/-- A shift bit by bit, as the statements about samples say it (R12). -/
theorem shiftIn_bits (acc : Byte) (b : Level) :
    (shiftIn acc b).getLsbD 0 = b ∧ ∀ j, j < 7 → (shiftIn acc b).getLsbD (j + 1) = acc.getLsbD j :=
  (shiftInEightTimes acc).1 b

/-- Settles O30: the new accumulator is the shifted one. -/
theorem sampleShiftsMisoIn : Obligations.SampleShiftsMisoIn := fun s =>
  ⟨_, rfl, shiftIn_bits s.master.acc s.mPins.miso⟩

/-- Settles O31: the equations of the two actions. -/
theorem clockPulse : Obligations.ClockPulse := fun _ =>
  ⟨rfl, execMSeqPLow_of_last, fun _ => execMSeqPLow_of_next⟩

/-- Settles O32: a read after the one write. -/
theorem storeWritesOneByte : Obligations.StoreWritesOneByte := fun s =>
  ⟨fun hlt => ⟨_, execMSeqPStore_of_lt hlt, Memory.read?_write_same _ _ _,
    fun i => Memory.read?_write_other s.master.rx _ _ i, rfl⟩, execMSeqPStore_of_le⟩

/-- Settles O33: the equations of the two actions. -/
theorem chipSelectBracketsTheByte : Obligations.ChipSelectBracketsTheByte := fun _ =>
  ⟨rfl, execMSeqPDeassert_of_last, execMSeqPDeassert_of_next⟩

/-- Settles O34: the action has one branch. -/
theorem finishFlagsReady : Obligations.FinishFlagsReady := fun _ => rfl

/-- Settles O35: action by action; a clause that excepts the action holds of it for that reason, the others because the
action does not write the field. -/
theorem masterActionFrame : Obligations.MasterActionFrame := by
  intro i s t hi h
  cases i with
  | mSeqPAssert =>
    cases h
    exact ⟨rfl, rfl, rfl, rfl, fun _ _ => rfl, fun _ => ⟨rfl, rfl, rfl⟩, fun _ => rfl, fun hne => absurd rfl hne.1,
      fun _ => rfl, fun _ => rfl⟩
  | mSeqPDrive =>
    by_cases hlt : s.master.byte < s.params.capM
    · cases (execMSeqPDrive_of_lt hlt).symm.trans h
      exact ⟨rfl, rfl, rfl, rfl, fun _ _ => rfl, fun _ => ⟨rfl, rfl, rfl⟩, fun _ => rfl, fun _ => rfl, fun _ => rfl,
        fun hne => absurd rfl hne⟩
    · cases (execMSeqPDrive_of_le (Nat.not_lt.1 hlt)).symm.trans h
  | mSeqPSample =>
    cases h
    exact ⟨rfl, rfl, rfl, rfl, fun _ _ => rfl, fun _ => ⟨rfl, rfl, rfl⟩, fun _ => rfl, fun _ => rfl, fun _ => rfl,
      fun _ => rfl⟩
  | mSeqPHigh =>
    cases h
    exact ⟨rfl, rfl, rfl, rfl, fun _ _ => rfl, fun _ => ⟨rfl, rfl, rfl⟩, fun _ => rfl, fun _ => rfl,
      fun hne => absurd rfl hne.1, fun _ => rfl⟩
  | mSeqPLow =>
    by_cases hbit : s.master.bit = 0
    · cases (execMSeqPLow_of_last hbit).symm.trans h
      exact ⟨rfl, rfl, rfl, rfl, fun _ _ => rfl, fun _ => ⟨rfl, rfl, rfl⟩, fun _ => rfl, fun _ => rfl,
        fun hne => absurd rfl hne.2, fun _ => rfl⟩
    · have hnext : (s.master.bit - 1).val + 1 = s.master.bit.val := by
        have hval : s.master.bit.val ≠ 0 := fun e => hbit (Fin.ext e)
        rw [Fin.val_sub_one_of_ne_zero hbit]
        omega
      cases (execMSeqPLow_of_next hnext).symm.trans h
      exact ⟨rfl, rfl, rfl, rfl, fun _ _ => rfl, fun _ => ⟨rfl, rfl, rfl⟩, fun _ => rfl, fun _ => rfl,
        fun hne => absurd rfl hne.2, fun _ => rfl⟩
  | mSeqPStore =>
    by_cases hlt : s.master.byte < s.params.capM
    · cases (execMSeqPStore_of_lt hlt).symm.trans h
      exact ⟨rfl, rfl, rfl, rfl, fun a hne => Memory.read?_write_other _ _ _ _ (hne.resolve_left (absurd rfl)),
        fun _ => ⟨rfl, rfl, rfl⟩, fun _ => rfl, fun _ => rfl, fun _ => rfl, fun _ => rfl⟩
    · cases (execMSeqPStore_of_le (Nat.not_lt.1 hlt)).symm.trans h
  | mSeqPDeassert =>
    cases h
    exact ⟨rfl, rfl, rfl, rfl, fun _ _ => rfl, fun _ => ⟨rfl, rfl, rfl⟩, fun hne => absurd rfl hne,
      fun hne => absurd rfl hne.2, fun _ => rfl, fun _ => rfl⟩
  | mSeqPFinish =>
    cases h
    exact ⟨rfl, rfl, rfl, rfl, fun _ _ => rfl, fun hne => absurd rfl hne, fun _ => rfl, fun _ => rfl, fun _ => rfl,
      fun _ => rfl⟩
  | _ => cases hi

end Sys2Proof.Machine
end

section
/-!
O36, O37, O39 and O40: the slave's steps (42_slave_sequencer.md R171 to R180), one equation per branch, and the response
bit they drive.
-/
namespace Sys2Proof.Machine

theorem seqS_of_idle {s : State} (hidle : s.slave.role = .idle) : seqS s = slaveIdleStep s := by
  rw [seqS_eq, if_pos hidle]

theorem slaveIdleStep_of_edge {s : State} (hprev : s.slave.csPrev = true) (hcs : s.sPins.csN = false) :
    slaveIdleStep s = s.slaveStepped s.slave.startSession := if_pos ⟨hprev, hcs⟩

/-- Settles O36: the edge detector's two branches. -/
theorem fallingChipSelectStartsSession : Obligations.FallingChipSelectStartsSession := by
  refine fun s hidle => ⟨fun hprev hcs => ?_, fun hnone => ?_⟩
  · rw [seqS_of_idle hidle, slaveIdleStep_of_edge hprev hcs, State.slaveStepped, hcs]
    rfl
  · rw [seqS_of_idle hidle, slaveIdleStep_of_noEdge hnone]
    rfl

/-- Settles O37: the response bit reads the response buffer alone. -/
theorem responseBit : Obligations.ResponseBit := by
  refine fun s i b => ⟨fun v hi hv => ?_, s.slave.respBit_of_le i b, fun _ _ => Slave.respBit_congr rfl rfl rfl i b⟩
  rw [s.slave.respBit_of_lt i b hi, Slave.txByte, show s.slave.tx.read? i = some v from hv, Option.getD_some]

/-- Settles O39: the sample's equation, with the shift bit by bit. -/
theorem risingClockSamplesMosi : Obligations.RisingClockSamplesMosi := by
  intro s hcs hclk
  refine ⟨_, ?_, shiftIn_bits s.slave.acc s.sPins.mosi⟩
  rw [exec_sSeqWHigh, execSSeqWHigh_of_high hcs hclk, State.slaveStepped, hcs]
  rfl

section
variable {s : State} (hcs : s.sPins.csN = false) (hclk : s.sPins.sclk = false)
include hcs hclk

theorem execSSeqWLow_of_bitDone (hbit : s.slave.bit.val < 7) :
    execSSeqWLow s = s.slaveStepped s.slave.bitDone := by
  obtain ⟨-, e⟩ | ⟨hlast, -⟩ | ⟨hlast, -⟩ | ⟨hlast, -⟩ := execSSeqWLow_cases_of_low hcs hclk
  · exact e
  all_goals omega

theorem execSSeqWLow_of_commit (hbit : s.slave.bit = 7) (hroom : s.slave.byte + 1 < s.params.capS) :
    execSSeqWLow s = s.slaveStepped s.slave.commit := by
  have hval : s.slave.bit.val = 7 := congrArg Fin.val hbit
  obtain ⟨hlt, -⟩ | ⟨-, -, e⟩ | ⟨-, hfull, -⟩ | ⟨-, hnone, -⟩ := execSSeqWLow_cases_of_low hcs hclk
  case inr.inl => exact e
  all_goals omega

theorem execSSeqWLow_of_commitFull (hbit : s.slave.bit = 7) (hfull : s.slave.byte + 1 = s.params.capS) :
    execSSeqWLow s = s.slaveStepped (s.slave.commitFull s.params.capS) := by
  have hval : s.slave.bit.val = 7 := congrArg Fin.val hbit
  obtain ⟨hlt, -⟩ | ⟨-, hroom, -⟩ | ⟨-, -, e⟩ | ⟨-, hnone, -⟩ := execSSeqWLow_cases_of_low hcs hclk
  case inr.inr.inl => exact e
  all_goals omega

theorem execSSeqWLow_of_noSuchByte (hbit : s.slave.bit = 7) (hnone : s.params.capS ≤ s.slave.byte) :
    execSSeqWLow s = .fault .noSuchByte := by
  have hval : s.slave.bit.val = 7 := congrArg Fin.val hbit
  obtain ⟨hlt, -⟩ | ⟨-, hroom, -⟩ | ⟨-, hfull, -⟩ | ⟨-, -, e⟩ := execSSeqWLow_cases_of_low hcs hclk
  case inr.inr.inr => exact e
  all_goals omega

end

/-- Settles O40: `bit_done`'s four branches; the byte written is read back, the others are as they were. -/
theorem fallingClockEndsBitPeriod : Obligations.FallingClockEndsBitPeriod := by
  refine fun s hcs hclk => ⟨fun b hb => ?_, fun hbit hroom => ?_, fun hbit hfull => ?_,
    execSSeqWLow_of_noSuchByte hcs hclk⟩
  · have hlt : s.slave.bit.val < 7 := by have := b.isLt; omega
    have hnext : s.slave.bit + 1 = b := Fin.ext ((Slave.bit_succ_val hlt).trans hb.symm)
    have hresp : 6 - s.slave.bit.val = 7 - b.val := by omega
    rw [exec_sSeqWLow, execSSeqWLow_of_bitDone hcs hclk hlt, State.slaveStepped, hcs, Slave.bitDone, hnext, hresp]
    rfl
  · refine ⟨_, execSSeqWLow_of_commit hcs hclk hbit hroom, Memory.read?_write_same _ _ _,
      fun i => Memory.read?_write_other s.slave.rx _ _ i, ?_⟩
    rw [hcs]
    rfl
  · refine ⟨_, execSSeqWLow_of_commitFull hcs hclk hbit hfull, Memory.read?_write_same _ _ _,
      fun i => Memory.read?_write_other s.slave.rx _ _ i, ?_⟩
    rw [hcs]
    rfl

end Sys2Proof.Machine
end

section
/-!
O10 to O14: a tick as the cycles of the blocks it clocks (00_scope.md R13, 70_reset_and_hazards.md R230, R241 L), and a
cycle as reset, or the decoded command and one sequencer step.
-/
namespace Sys2Proof.Machine

theorem andThen_next_right (o : Host.Outcome State Fault Refusal) : andThen o .next = o := by cases o <;> rfl

theorem cycleM_of_rst {s : State} (hrst : s.mPins.rst = true) : cycleM s = .next s.resetM := if_pos hrst

theorem cycleS_of_rst {s : State} (hrst : s.sPins.rst = true) : cycleS s = .next s.resetS := if_pos hrst

theorem cycleM_of_not_rst {s : State} (hrst : s.mPins.rst = false) : cycleM s = andThen (hostM s) seqM :=
  if_neg (by simp [hrst])

theorem cycleS_of_not_rst {s : State} (hrst : s.sPins.rst = false) : cycleS s = andThen (hostS s) seqS :=
  if_neg (by simp [hrst])

/-- A tick of SPIBB-M alone is one cycle of it. -/
theorem step_of_m_alone {s : State} {a : MPins} {ts : List Tick} (h : s.inputs = { m := some a, s := none } :: ts) :
    step s = cycleM { s with inputs := ts, ticks := s.ticks + 1, mPins := s.readMPins a } := by
  rw [step_eq, s.nextTick_cons _ ts h, State.sampled, h]
  exact andThen_next_right _

/-- A tick of SPIBB-S alone is one cycle of it. -/
theorem step_of_s_alone {s : State} {b : SPins} {ts : List Tick} (h : s.inputs = { m := none, s := some b } :: ts) :
    step s = cycleS { s with inputs := ts, ticks := s.ticks + 1, sPins := s.readSPins b } := by
  rw [step_eq, s.nextTick_cons _ ts h, State.sampled, h]
  rfl

/-- A step that clocks SPIBB-S ends with its cycle, which finds its own block as the tick did. -/
theorem step_ends_with_cycleS {s u : State} {b : SPins} (h : step s = .next u) (hb : s.nextTick.s = some b) :
    ∃ r, cycleS r = .next u ∧ r.slave = s.slave ∧ r.params = s.params ∧ r.sPins = s.readSPins b := by
  rw [step_eq] at h
  obtain ⟨r, hr, hs⟩ := andThen_eq_next.1 h
  rw [if_pos (by rw [hb]; rfl)] at hs
  have hpins := s.sampled_sPins_some _ b hb
  refine ⟨r, hs, ?_⟩
  split at hr
  · rw [(cycleM_cases hr).1]
    exact ⟨rfl, rfl, hpins⟩
  · cases hr
    exact ⟨rfl, rfl, hpins⟩

/-- Settles O10: the reset cycle's equations; the other block's cycle of the same tick keeps what they leave. -/
theorem resetPin : Obligations.ResetPin := by
  intro s a b ts
  refine ⟨fun u hu ha hrst => ?_, fun u hu hb hrst => ?_, fun hin hrst => ?_, fun hin hrst => ?_⟩
  · have hpins : (s.sampled s.nextTick).mPins.rst = true := by rw [s.sampled_mPins_some _ a ha]; exact hrst
    have hblock : u.master = Master.afterReset (s.master.epoch + 1) ∧ u.mRsp = Rsp.plain s.params.capM .ok := by
      rw [step_of_clocksM ha (cycleM_of_rst hpins)] at hu
      split at hu
      · obtain ⟨hmaster, hrsp⟩ := cycleS_master_mRsp hu
        exact ⟨hmaster, hrsp⟩
      · cases hu
        exact ⟨rfl, rfl⟩
    obtain ⟨hmaster, hrsp⟩ := hblock
    refine ⟨hmaster, hrsp, fun i => ?_⟩
    simp only [State.readByte, State.buffer, hmaster]
    exact ⟨rfl, rfl⟩
  · obtain ⟨r, hr, hslave, hparams, hpins⟩ := step_ends_with_cycleS hu hb
    rw [cycleS_of_rst (by rw [hpins, State.readSPins_rst]; exact hrst)] at hr
    cases hr
    rw [State.resetS_slave, State.resetS_sRsp, hslave, hparams]
    exact ⟨rfl, rfl, fun i => ⟨rfl, rfl⟩⟩
  · exact ⟨_, (step_of_m_alone hin).trans (cycleM_of_rst hrst), rfl, rfl, rfl⟩
  · exact ⟨_, (step_of_s_alone hin).trans (cycleS_of_rst ((s.readSPins_rst b).trans hrst)), rfl, rfl, rfl⟩

theorem hostM_of_error {s : State} {e : DecodeError} (hvalid : s.mPins.hValid = true)
    (hdec : decode s.params .mHost s.mPins.hcmd = .error e) : hostM s = .refused (.undecodable e) := by
  rw [hostM, if_pos hvalid, hdec, runDecoded_error]

theorem hostM_of_quiet {s : State} (hquiet : s.mPins.hValid = false) : hostM s = .next (s.answerM .ok) :=
  if_neg (by simp [hquiet])

theorem hostS_of_decode {s : State} {i : Instr} (hvalid : s.sPins.hValid = true)
    (hdec : decode s.params .sHost s.sPins.hcmd = .ok i) : hostS s = exec i s := by
  rw [hostS, if_pos hvalid, hdec, runDecoded_ok]

theorem hostS_of_error {s : State} {e : DecodeError} (hvalid : s.sPins.hValid = true)
    (hdec : decode s.params .sHost s.sPins.hcmd = .error e) : hostS s = .refused (.undecodable e) := by
  rw [hostS, if_pos hvalid, hdec, runDecoded_error]

theorem hostS_of_quiet {s : State} (hquiet : s.sPins.hValid = false) : hostS s = .next (s.answerS .ok) :=
  if_neg (by simp [hquiet])

/-- Settles O11: the tick is one cycle, and the three kinds of command are the equations of its host step. -/
theorem masterStepRunsDecodedCommand : Obligations.MasterStepRunsDecodedCommand := by
  intro s a ts hin hrst s'
  have hstep : step s = andThen (hostM s') seqM := (step_of_m_alone hin).trans (cycleM_of_not_rst hrst)
  refine ⟨fun hvalid i hdec => ?_, fun hvalid e hdec => ?_, fun hquiet => ?_, s.misoRead_slave a.miso,
    s.misoRead_mosi a.miso, fun henv => ?_⟩
  · rw [hstep, hostM_of_decode (s := s') hvalid hdec]
  · rw [hstep, hostM_of_error (s := s') hvalid hdec, andThen_refused]
  · rw [hstep, hostM_of_quiet (s := s') hquiet, andThen_next]
    rfl
  · change ({ a with miso := s.misoRead a.miso } : MPins) = a
    rw [s.misoRead_env a.miso henv]

/-- Settles O12: as O11, for SPIBB-S. -/
theorem slaveStepRunsDecodedCommand : Obligations.SlaveStepRunsDecodedCommand := by
  intro s b ts hin hrst s'
  have hstep : step s = andThen (hostS s') seqS :=
    (step_of_s_alone hin).trans (cycleS_of_not_rst ((s.readSPins_rst b).trans hrst))
  refine ⟨fun hvalid i hdec => ?_, fun hvalid e hdec => ?_, fun hquiet => ?_, fun hmaster => ?_,
    s.readSPins_env b⟩
  · rw [hstep, hostS_of_decode (s := s') (i := i) ((s.readSPins_hValid b).trans hvalid)
      (by rw [← hdec]; exact congrArg _ (s.readSPins_hcmd b))]
  · rw [hstep, hostS_of_error (s := s') (e := e) ((s.readSPins_hValid b).trans hvalid)
      (by rw [← hdec]; exact congrArg _ (s.readSPins_hcmd b)), andThen_refused]
  · rw [hstep, hostS_of_quiet (s := s') ((s.readSPins_hValid b).trans hquiet), andThen_next]
    rfl
  · obtain ⟨hcs, hclk, hmosi⟩ := s.readSPins_pair b hmaster
    exact ⟨hclk, hcs, hmosi⟩

theorem seqM_of_dwell {s : State} (hact : s.master.role = .active) (hdly : s.master.dly ≠ 0) :
    seqM s = .next { s with master := s.master.dwell } := by
  rw [seqM_eq, if_neg (by simp [hact]), if_pos hdly]

theorem seqM_of_action {s : State} (hact : s.master.role = .active) (hdly : s.master.dly = 0) :
    seqM s = exec s.master.phase.instr s := by
  rw [seqM_eq, if_neg (by simp [hact]), if_neg (by simp [hdly])]

/-- Settles O13: the branches of the two sequencer steps; every phase number decodes to its phase's instruction. -/
theorem sequencerStepsRunDecodedActions : Obligations.SequencerStepsRunDecodedActions := by
  intro s
  refine ⟨seqM_of_idle, seqM_of_dwell, fun hact hdly i hdec => ?_, ⟨_, decode_mPhase s.params s.master.phase⟩,
    fun hidle => (fallingChipSelectStartsSession s hidle).1, fun hidle => (fallingChipSelectStartsSession s hidle).2,
    fun hact i hdec => ?_, ⟨_, decode_sPhase s.params s.slave.phase⟩⟩
  · rw [decode_mPhase] at hdec
    rw [seqM_of_action hact hdly, Except.ok.inj hdec]
  · rw [decode_sPhase] at hdec
    rw [seqS_of_active hact, Except.ok.inj hdec]

/-- Settles O14: both blocks' pins are read before either cycle. -/
theorem lockstepReadsThePreviousLevels : Obligations.LockstepReadsThePreviousLevels := by
  intro s a b ts hin hwiring s'
  have hsampled : s.sampled { m := some a, s := some b } = s' := by
    simp only [State.sampled, State.readMPins, State.misoRead_slave s _ (congrArg Wiring.miso hwiring),
      State.readSPins, congrArg Wiring.slave hwiring, Wiring.pair, hin, List.tail_cons]
    rfl
  rw [step_eq, s.nextTick_cons _ ts hin, hsampled]
  rfl

end Sys2Proof.Machine
end
